-- ==== Sys2Proof/Config.lean ====
section
/-! DEFINITION. The implementation parameters of 00_scope R6, each under the spec's name and at its default
(decisions D1, D2, D6, D16). A different machine of the same spec is had by changing a value here (log 5). The
spec leaves no value open after which the engine goes on, so there is no free value. -/

namespace Sys2Proof.Config

/-- `XLEN` (R6, D1): width of a register value, a memory cell, an address, an immediate, a program counter. -/
abbrev xlen : Nat := 32

/-- `RIDX` (R6, D2): width of a register index. -/
abbrev ridx : Nat := 8

/-- `ILEN` (R6, D6): width of an instruction word. -/
abbrev ilen : Nat := 64

/-- `DEPTH` (R6): number of pipeline stages. -/
abbrev depth : Nat := 8

/-- `NLATCH` (R6): number of inter-stage latches. -/
abbrev nlatch : Nat := depth - 1

/-- `SEQ_BASE` (R6, D16): sequence number of the first slot created. -/
abbrev seqBase : Nat := 1

/-- `CYCLE_BASE` (R6, D16): number of the first cycle. -/
abbrev cycleBase : Nat := 1

/-- `N < 2^(XLEN-1)` (R6, R24): every program image is shorter than this many words. -/
abbrev imageLimit : Nat := 2 ^ (xlen - 1)

end Sys2Proof.Config
end

