-- ==== Sys2Proof/Word.lean ====
section
/-! DEFINITION. The bit-vector types of the machine (00_scope R6, R12). `+` and `-` on words are those of
`BitVec`, modulo `2^XLEN` (R12, 44_arithmetic R139). -/

namespace Sys2Proof

/-- A word (R12): an `XLEN`-bit pattern. -/
abbrev Word := BitVec Config.xlen

/-- A register index (10_state R21): an `RIDX`-bit unsigned number. -/
abbrev RegIdx := BitVec Config.ridx

/-- An instruction word (30_encoding R56). -/
abbrev InstrWord := BitVec Config.ilen

/-- The `imm` field of an instruction word (30_encoding R56, R60): 32 bits. -/
abbrev Imm := BitVec 32

end Sys2Proof
end

