-- ==== Sys2Proof/Syntax.lean ====
section
/-! DEFINITION. The instruction set (30_encoding R55, R58, R68): the closed set of five opcodes, one constructor
of `Instr` for each of the seven word forms of spec/opcode_table.json, and the instruction record of R55. -/

namespace Sys2Proof

/-- The five opcodes (R1, R55). The set is closed (R157). -/
inductive Opcode where
  | add | sub | load | store | branchNotZero
  deriving DecidableEq, Repr

/-- The seven word forms of R58, with their operands in the order of the assembler text (R63). -/
inductive Instr where
  /-- `ADD rd, rs, rt` (R140). -/
  | addReg (rd rs rt : RegIdx)
  /-- `ADD rd, rs, #imm` (R141). -/
  | addLit (rd rs : RegIdx) (imm : Imm)
  /-- `SUB rd, rs, rt` (R142). -/
  | subReg (rd rs rt : RegIdx)
  /-- `SUB rd, rs, #imm` (R143). -/
  | subLit (rd rs : RegIdx) (imm : Imm)
  /-- `LOAD rt, imm(rs)` (R144). -/
  | load (rt rs : RegIdx) (imm : Imm)
  /-- `STORE rt, imm(rs)` (R145). -/
  | store (rt rs : RegIdx) (imm : Imm)
  /-- `BRANCH_NOT_ZERO rs, label`, `imm` the distance from the branch to the label (R147, R64). -/
  | branchNotZero (rs : RegIdx) (imm : Imm)
  deriving DecidableEq, Repr

/-- The instruction record of R55, its operand fields optional. Which fields an opcode has is checked by
`Record.wellFormed` of WellFormed.lean. -/
structure Record where
  opcode     : Opcode
  destReg    : Option RegIdx
  sourceReg1 : Option RegIdx
  sourceReg2 : Option RegIdx
  immediate  : Option Imm
  deriving DecidableEq, Repr

end Sys2Proof
end

