-- ==== Sys2Proof/WellFormed.lean ====
section
/-! DEFINITION. The construction checks of the spec: the field-presence invariant of an instruction record
(30_encoding R55) and the limits of a program image (00_scope R6, 70_reset_and_hazards R174). Register indices
and immediates are bit vectors of the fields' widths, so every term of `Instr` is well formed; the record is
where an ill-formed instruction can be written down. -/

namespace Sys2Proof

/-- The three shapes of R55, with the two forms of the first. -/
inductive Shape where
  | register | literal | memory | branch
  deriving DecidableEq, Repr

/-- The shape whose row of the table of R55 a record matches exactly, if any. -/
def Record.shape (r : Record) : Option Shape :=
  match r.opcode, r.destReg, r.sourceReg1, r.sourceReg2, r.immediate with
  | .add, some _, some _, some _, none => some .register
  | .sub, some _, some _, some _, none => some .register
  | .add, some _, some _, none, some _ => some .literal
  | .sub, some _, some _, none, some _ => some .literal
  | .load, none, some _, some _, some _ => some .memory
  | .store, none, some _, some _, some _ => some .memory
  | .branchNotZero, none, some _, none, some _ => some .branch
  | _, _, _, _, _ => none

/-- "a record that breaks the table is not an Instruction" (R55). -/
def Record.wellFormed (r : Record) : Bool := r.shape.isSome

/-- Word to record (R59), for a word already decoded to its form. -/
def Instr.toRecord : Instr → Record
  | .addReg rd rs rt => ⟨.add, some rd, some rs, some rt, none⟩
  | .addLit rd rs imm => ⟨.add, some rd, some rs, none, some imm⟩
  | .subReg rd rs rt => ⟨.sub, some rd, some rs, some rt, none⟩
  | .subLit rd rs imm => ⟨.sub, some rd, some rs, none, some imm⟩
  | .load rt rs imm => ⟨.load, none, some rs, some rt, some imm⟩
  | .store rt rs imm => ⟨.store, none, some rs, some rt, some imm⟩
  | .branchNotZero rs imm => ⟨.branchNotZero, none, some rs, none, some imm⟩

/-- The instruction a record stands for: the other direction of the bijection of R59. A record that breaks the
table of R55 has none. -/
def Record.toInstr (r : Record) : Option Instr :=
  match r.opcode, r.destReg, r.sourceReg1, r.sourceReg2, r.immediate with
  | .add, some rd, some rs, some rt, none => some (.addReg rd rs rt)
  | .add, some rd, some rs, none, some imm => some (.addLit rd rs imm)
  | .sub, some rd, some rs, some rt, none => some (.subReg rd rs rt)
  | .sub, some rd, some rs, none, some imm => some (.subLit rd rs imm)
  | .load, none, some rs, some rt, some imm => some (.load rt rs imm)
  | .store, none, some rs, some rt, some imm => some (.store rt rs imm)
  | .branchNotZero, none, some rs, none, some imm => some (.branchNotZero rs imm)
  | _, _, _, _, _ => none

/-- The opcode of an instruction (R57, R59). -/
def Instr.opcode (i : Instr) : Opcode := i.toRecord.opcode

/-- The check on an instruction: its record has the shape its opcode asks for (R55). -/
def Instr.wellFormed (i : Instr) : Bool := i.toRecord.wellFormed

/-- The check on a program image: `N < 2^(XLEN-1)` (R6, R174(c)). Its words may be illegal (R66). -/
def imageWellFormed (img : List InstrWord) : Bool := decide (img.length < Config.imageLimit)

end Sys2Proof
end

