-- ==== Sys2Proof/Decode.lean ====
section
/-! DEFINITION. The instruction word: its fields (30_encoding R56), the decoder from words to `Instr`, total and
rejecting by name (R58, R66), and after it the encoder. An instruction word is delivered whole and has no byte
order (20_memory R44). -/

namespace Sys2Proof

/-- Why a word matches none of the seven forms of R58 (the four kinds R66 lists; their order of test is the
model's, log 16). -/
inductive DecodeError where
  /-- `op` in 5 to 15. -/
  | unknownOpcode
  /-- `zero` (bits 58:56) not 0. -/
  | reservedBits
  /-- `L = 1` with `op` in 2, 3, 4. -/
  | literalBit
  /-- a non-zero field that the form requires to be zero. -/
  | unusedField
  deriving DecidableEq, Repr

/-- `op`, bits 63:60 (R56). -/
def fieldOp (w : InstrWord) : BitVec 4 := w.extractLsb' 60 4
/-- `L`, bit 59 (R56). -/
def fieldL (w : InstrWord) : BitVec 1 := w.extractLsb' 59 1
/-- `zero`, bits 58:56 (R56). -/
def fieldZero (w : InstrWord) : BitVec 3 := w.extractLsb' 56 3
/-- `rd`, bits 55:48 (R56). -/
def fieldRd (w : InstrWord) : RegIdx := w.extractLsb' 48 8
/-- `rs`, bits 47:40 (R56). -/
def fieldRs (w : InstrWord) : RegIdx := w.extractLsb' 40 8
/-- `rt`, bits 39:32 (R56). -/
def fieldRt (w : InstrWord) : RegIdx := w.extractLsb' 32 8
/-- `imm`, bits 31:0 (R56). -/
def fieldImm (w : InstrWord) : Imm := w.extractLsb' 0 32

/-- Opcode from its number (R57); 5 to 15 name no opcode. -/
def opcodeOfNumber (n : BitVec 4) : Option Opcode :=
  if n = 0 then some .add
  else if n = 1 then some .sub
  else if n = 2 then some .load
  else if n = 3 then some .store
  else if n = 4 then some .branchNotZero
  else none

/-- The register form and the literal form of ADD and of SUB (R58): which one, by `L`, and the field it leaves
zero. -/
def decodeArith (reg : RegIdx → RegIdx → RegIdx → Instr) (lit : RegIdx → RegIdx → Imm → Instr)
    (w : InstrWord) : Except DecodeError Instr :=
  if fieldL w = 0 then
    if fieldImm w = 0 then .ok (reg (fieldRd w) (fieldRs w) (fieldRt w)) else .error .unusedField
  else
    if fieldRt w = 0 then .ok (lit (fieldRd w) (fieldRs w) (fieldImm w)) else .error .unusedField

/-- LOAD and STORE (R58): `L` and `rd` zero. -/
def decodeMemory (mk : RegIdx → RegIdx → Imm → Instr) (w : InstrWord) : Except DecodeError Instr :=
  if fieldL w ≠ 0 then .error .literalBit
  else if fieldRd w ≠ 0 then .error .unusedField
  else .ok (mk (fieldRt w) (fieldRs w) (fieldImm w))

/-- BRANCH_NOT_ZERO (R58): `L`, `rd` and `rt` zero. -/
def decodeBranch (w : InstrWord) : Except DecodeError Instr :=
  if fieldL w ≠ 0 then .error .literalBit
  else if fieldRd w ≠ 0 ∨ fieldRt w ≠ 0 then .error .unusedField
  else .ok (.branchNotZero (fieldRs w) (fieldImm w))

/-- The decoder: the one form of R58 that a word is of, or the reason there is none (R66). -/
def decode (w : InstrWord) : Except DecodeError Instr :=
  match opcodeOfNumber (fieldOp w) with
  | none => .error .unknownOpcode
  | some op =>
    if fieldZero w ≠ 0 then .error .reservedBits
    else match op with
      | .add => decodeArith .addReg .addLit w
      | .sub => decodeArith .subReg .subLit w
      | .load => decodeMemory .load w
      | .store => decodeMemory .store w
      | .branchNotZero => decodeBranch w

/-- Opcode numbers (R57). -/
def Opcode.number : Opcode → BitVec 4
  | .add => 0
  | .sub => 1
  | .load => 2
  | .store => 3
  | .branchNotZero => 4

/-- A word from its fields (R56). -/
def assemble (op : BitVec 4) (l : BitVec 1) (rd rs rt : RegIdx) (imm : Imm) : InstrWord :=
  op ++ l ++ (0 : BitVec 3) ++ rd ++ rs ++ rt ++ imm

/-- The encoder: the word of an instruction, absent fields all zeros (R58). -/
def encode : Instr → InstrWord
  | .addReg rd rs rt => assemble Opcode.add.number 0 rd rs rt 0
  | .addLit rd rs imm => assemble Opcode.add.number 1 rd rs 0 imm
  | .subReg rd rs rt => assemble Opcode.sub.number 0 rd rs rt 0
  | .subLit rd rs imm => assemble Opcode.sub.number 1 rd rs 0 imm
  | .load rt rs imm => assemble Opcode.load.number 0 0 rs rt imm
  | .store rt rs imm => assemble Opcode.store.number 0 0 rs rt imm
  | .branchNotZero rs imm => assemble Opcode.branchNotZero.number 0 0 rs 0 imm

/-- One row of the table of R58. -/
structure WordForm where
  name      : String
  matchBits : InstrWord
  mask      : InstrWord
  deriving DecidableEq, Repr

/-- The table of R58, copied from it; `decode` does not use it, the statements compare the two. -/
def wordForms : List WordForm :=
  [ ⟨"ADD register", 0x0000000000000000#64, 0xFF000000FFFFFFFF#64⟩,
    ⟨"ADD literal", 0x0800000000000000#64, 0xFF0000FF00000000#64⟩,
    ⟨"SUB register", 0x1000000000000000#64, 0xFF000000FFFFFFFF#64⟩,
    ⟨"SUB literal", 0x1800000000000000#64, 0xFF0000FF00000000#64⟩,
    ⟨"LOAD", 0x2000000000000000#64, 0xFFFF000000000000#64⟩,
    ⟨"STORE", 0x3000000000000000#64, 0xFFFF000000000000#64⟩,
    ⟨"BRANCH_NOT_ZERO", 0x4000000000000000#64, 0xFFFF00FF00000000#64⟩ ]

/-- "A word `w` is of a form when `w and mask = match`" (R58). -/
def WordForm.accepts (f : WordForm) (w : InstrWord) : Bool := (w &&& f.mask) == f.matchBits

/-- `sext_32` (R12, R60): the 32-bit immediate sign-extended to `XLEN` bits. -/
def sext32 (imm : Imm) : Word := imm.signExtend Config.xlen

/-- The immediate the host computes for a branch at index `branch` to a label at index `target`:
"`targetInstructionIndex − branchInstructionIndex`" (R55, R64). -/
def labelDistance (target branch : Nat) : Imm := BitVec.ofInt 32 ((target : Int) - (branch : Int))

/-- The word of `nbits` bits with value `w`, as spec/opcode_table.json numbers bits; bits above `nbits` are 0. -/
def tableWord (nbits w : Nat) : InstrWord := BitVec.ofNat Config.ilen (w % 2 ^ nbits)

/-- The instruction the decoder reads from an instruction of `nbits` bits with value `w`. -/
def decodeTableWord (nbits w : Nat) : Option Instr :=
  match decode (tableWord nbits w) with
  | .ok i => some i
  | .error _ => none

end Sys2Proof
end

