-- ==== Sys2Proof/Machine/State.lean ====
section
/-! DEFINITION. The state of the engine (10_state R20 to R32), the fatal conditions (60_exceptions R152), the
reasons a step of the model stops, and the state after reset (R38, R170). -/

namespace Sys2Proof.Machine

/-- A fatal condition with the value it records (60_exceptions R152). Raising one is a next state of the model
whose `fault` holds it (R150, log 4). -/
inductive FatalCondition where
  /-- Code 1, raised in ID: the slot's `pc` and the word (R153). -/
  | illegalInstruction (pc : Word) (word : InstrWord)
  /-- Code 2, raised in EX: the register index (R154). -/
  | registerAbsent (i : RegIdx)
  /-- Code 3, raised in MEM1: the address (R155). -/
  | memoryAbsent (a : Word)
  /-- Code 4, raised in IF1: the value of `fetchPtr` (R156). -/
  | fetchOutOfRange (p : Word)
  deriving DecidableEq, Repr

/-- Why a step of the model stops without a next state. Neither case is the spec's, and neither arises in a
state that satisfies the invariants of R39 (log 9). -/
inductive Fault where
  /-- Raised by a phase that needs a slot field which R39 says is present and which is absent. Safe: the model
  stops where R39 says no engine can be. -/
  | slotFieldAbsent
  /-- Raised by the WB, MEM1, EX or branch phase on a slot whose word does not decode: R39(c) and R116 say such
  a slot never gets past ID. Safe: the model stops where R39 says no engine can be. -/
  | slotNotDecodable
  deriving DecidableEq, Repr

/-- Why the model has no meaning for an instruction. -/
inductive Refusal where
  /-- Raised by an arm of `exec` for an instruction without a meaning yet (none now). Safe: nothing runs. -/
  | notModelled (mnemonic : String)
  deriving DecidableEq, Repr

/-- The outcome of a phase or of a step. -/
abbrev Result (σ : Type) := Host.Outcome σ Fault Refusal

/-- The tri-state writeback-source signal `writebackSourceIsMemory` (R31, R120). -/
inductive WritebackSource where
  | memory | alu | na
  deriving DecidableEq, Repr

/-- The tri-state destination selector `destRegisterIsSecondSource` (R31, R119, R120). -/
inductive DestSelect where
  | second | dest | na
  deriving DecidableEq, Repr

/-- The seven control signals (R31). -/
structure ControlSignals where
  destRegisterIsSecondSource : DestSelect
  registerWriteEnabled       : Bool
  aluOperandIsRegister       : Bool
  memoryWriteEnabled         : Bool
  memoryReadEnabled          : Bool
  writebackSourceIsMemory    : WritebackSource
  branchEnabled              : Bool
  deriving DecidableEq, Repr

/-- A Pipeline Slot (R27 to R31). A field not yet computed is `none`. -/
structure Slot where
  /-- The instruction word (R27). -/
  instr               : InstrWord
  /-- The issue sequence number (R27). -/
  seq                 : Nat
  /-- The fetch-time program counter (R24(b), R27). -/
  pc                  : Word
  opcode              : Option Opcode
  readReg1            : Option RegIdx
  readReg2            : Option RegIdx
  writeReg            : Option RegIdx
  immediate           : Option Word
  branchTargetAddress : Option Word
  /-- The control signals, absent before decode (R31, R92). -/
  signals             : Option ControlSignals
  opVal1              : Option Word
  opVal2              : Option Word
  aluResult           : Option Word
  isZero              : Option Bool
  memoryDatum         : Option Word
  decoded             : Bool
  stallPending        : Bool
  deriving DecidableEq, Repr

/-- The seven inter-stage latches (R32). -/
structure Latches where
  if1  : Option Slot
  if2  : Option Slot
  id   : Option Slot
  ex   : Option Slot
  mem1 : Option Slot
  mem2 : Option Slot
  mem3 : Option Slot
  deriving DecidableEq, Repr

/-- The stage tokens of the report (40_pipeline_engine R97). -/
inductive StageToken where
  | IF1 | IF2 | ID | stall | EX | MEM1 | MEM2 | MEM3 | WB
  deriving DecidableEq, Repr

/-- One entry of a stage report (R97): `I<seq>-<token>`. -/
structure ReportEntry where
  seq   : Nat
  token : StageToken
  deriving DecidableEq, Repr

/-- Whose work `exec` is asked for: the phases of the cycle in which an instruction has work of its own (R82,
R84, R87 to R89, R91), or none, between cycles, where an instruction is taken as a whole (the sequential level,
R8). The model's own, log 1. -/
inductive Phase where
  /-- No cycle is in progress. -/
  | atRest
  | wb | mem1 | ex | id
  /-- Step one of the IF1 phase: the branch evaluation of the slot in EX (R91). -/
  | if1
  deriving DecidableEq, Repr

/-- The register file `RF`: present registers with their values, by rising index (R21, R22). -/
abbrev RegFile := List (Nat × Word)

/-- Main memory `MEM`: present cells with their values, by rising address (20_memory R40). A cell holds a whole
word, there are no bytes (R44, log 3). -/
abbrev Memory := List (Nat × Word)

/-- The machine state (R20), with the program image (R34, log 2), the stage report of the last completed cycle
(R97, log 8) and the model's own `phase` (log 1). -/
structure State where
  rf       : RegFile
  mem      : Memory
  img      : List InstrWord
  lat      : Latches
  fetchPtr : Word
  seqNext  : Nat
  cycle    : Nat
  eop      : Bool
  finished : Bool
  fault    : Option FatalCondition
  report   : List ReportEntry
  phase    : Phase
  deriving DecidableEq, Repr

/-- Seven empty latches. -/
def Latches.empty : Latches := ⟨none, none, none, none, none, none, none⟩

/-- The machine right after reset with nothing loaded by the host (R38, R170, log 6): the program image is
empty, every register and every cell is absent. -/
def State.reset : State where
  rf       := []
  mem      := []
  img      := []
  lat      := Latches.empty
  fetchPtr := 0
  seqNext  := Config.seqBase
  cycle    := 0
  eop      := false
  finished := false
  fault    := none
  report   := []
  phase    := .atRest

end Sys2Proof.Machine
end

