-- ==== Sys2Proof/Machine/Ops.lean ====
section
/-! DEFINITION. The named operations over registers and memory (00_scope R13, 10_state R22, 20_memory R42, R43),
taking a fatal condition (60_exceptions R150) and the only way out of one, reset (70_reset_and_hazards R170). -/

namespace Sys2Proof.Machine

/-- The value a partial map holds at `k`, `none` where it holds none. What an unlisted index or address reads as
is this `none`: absent (R22, R40). -/
def mapGet : List (Nat × Word) → Nat → Option Word
  | [], _ => none
  | (k', v) :: m, k => if k' = k then some v else mapGet m k

/-- The partial map with `v` at `k`, keys kept strictly rising. -/
def mapSet : List (Nat × Word) → Nat → Word → List (Nat × Word)
  | [], k, v => [(k, v)]
  | (k', v') :: m, k, v =>
    if k < k' then (k, v) :: (k', v') :: m
    else if k' = k then (k, v) :: m
    else (k', v') :: mapSet m k v

/-- Keys are strictly rising from `lo` on and below `bound`. -/
def mapWfFrom (bound : Nat) : Nat → List (Nat × Word) → Bool
  | _, [] => true
  | lo, (k, _) :: m => decide (lo ≤ k) && decide (k < bound) && mapWfFrom bound (k + 1) m

/-- The canonical form of the register file: rising indices below `2^RIDX` (R21). -/
def RegFile.wf (rf : RegFile) : Bool := mapWfFrom (2 ^ Config.ridx) 0 rf

/-- The canonical form of main memory: rising addresses below `2^XLEN` (R40). An unlisted cell is absent, so no
entry can equal what an unlisted one reads as. -/
def Memory.wf (m : Memory) : Bool := mapWfFrom (2 ^ Config.xlen) 0 m

/-- `RF[i]` (R13, R22): the register's value, `none` when it is absent. -/
def readReg (s : State) (i : RegIdx) : Option Word := mapGet s.rf i.toNat

/-- `x[i] <- v` (R13, R22): makes register `i` present with value `v`. No register is hardwired (R21). -/
def writeReg (s : State) (i : RegIdx) (v : Word) : State := { s with rf := mapSet s.rf i.toNat v }

/-- `MEM[a]` (R42): the cell's value, `none` when it is absent. Reading changes nothing (R46). -/
def readCell (s : State) (a : Word) : Option Word := mapGet s.mem a.toNat

/-- `MemWrite(a, 1, v)` (R43): any address, the whole word, never a fault. -/
def writeCell (s : State) (a v : Word) : State := { s with mem := mapSet s.mem a.toNat v }

/-- The code of a fatal condition (R152). -/
def FatalCondition.code : FatalCondition → Nat
  | .illegalInstruction _ _ => 1
  | .registerAbsent _ => 2
  | .memoryAbsent _ => 3
  | .fetchOutOfRange _ => 4

/-- `raise F(info)` (R13, R150): `fault` records the condition. `andThen` lets no later phase of the cycle run
and `settle` leaves the latches as the cycle found them. -/
def raise (f : FatalCondition) (s : State) : Result State := .next { s with fault := some f }

/-- A later phase of a cycle, run on what the earlier ones left unless they raised a fatal condition (R150:
"the phases that come after it ... do not run in that cycle"). -/
def andThen (r : Result State) (k : State → Result State) : Result State :=
  match r with
  | .next s => if s.fault.isSome then .next s else k s
  | .fault e => .fault e
  | .refused e => .refused e

/-- The reset input (R170): the engine's own state takes its reset values; `RF`, `MEM` and `IMG` keep what they
hold. It is the only way out of the terminal states (R161, R170). -/
def applyReset (s : State) : State :=
  { State.reset with rf := s.rf, mem := s.mem, img := s.img }

/-- The run is over: finished, or stopped by a fatal condition (R99). -/
def terminal (s : State) : Bool := s.finished || s.fault.isSome

/-- `N` (R6): the number of instruction words in the program image. -/
def imageLength (s : State) : Nat := s.img.length

/-- `IMG[p]` for `0 <= signed(p) < N` (R13, R24(b)); `none` outside. -/
def imageAt (s : State) (p : Word) : Option InstrWord :=
  if p.toInt < 0 then none else s.img[p.toNat]?

end Sys2Proof.Machine
end

