-- ==== Sys2Proof/Machine/Boot.lean ====
section
/-! DEFINITION. The host's side (70_reset_and_hazards R173 to R176): loading a complete image before reset is
released, and reading the final state. -/

namespace Sys2Proof.Machine

/-- No key appears twice in a section of the image (R174(d)). -/
def distinctKeys : List (Nat × Word) → Bool
  | [] => true
  | (k, _) :: m => (mapGet m k).isNone && distinctKeys m

/-- A section of the image as a partial map. -/
def loadSection (lines : List (Nat × Word)) : List (Nat × Word) :=
  lines.foldr (fun l m => mapSet m l.1 l.2) []

/-- The registers section as index and value pairs. -/
def registerLines (regs : List (RegIdx × Word)) : List (Nat × Word) := regs.map fun l => (l.1.toNat, l.2)

/-- The memory section as address and value pairs. -/
def memoryLines (cells : List (Word × Word)) : List (Nat × Word) := cells.map fun l => (l.1.toNat, l.2)

/-- The state at the release of reset with a host's image loaded (R38, R170, R173). An image the host must not
supply, with a duplicate line or too many words, loads nothing (R174(c), R174(d), 93_implementation_defined U10;
log 11). Malformed program text never gets here (R65, R167). -/
def boot (regs : List (RegIdx × Word)) (cells : List (Word × Word)) (img : List InstrWord) : Option State :=
  if distinctKeys (registerLines regs) && distinctKeys (memoryLines cells) && imageWellFormed img then
    some { State.reset with
      rf := loadSection (registerLines regs)
      mem := loadSection (memoryLines cells)
      img := img }
  else none

/-- The registers of the final dump (R176): every present register, by ascending index. -/
def dumpRegisters (s : State) : List (Nat × Word) := s.rf

/-- The cells of the final dump (R176, R54): every present cell, by ascending `signed(a)`, so the addresses with
the sign bit first. -/
def dumpMemory (s : State) : List (Int × Word) :=
  (s.mem.filter fun c => decide (2 ^ (Config.xlen - 1) ≤ c.1)).map (fun c => ((c.1 : Int) - 2 ^ Config.xlen, c.2))
    ++ (s.mem.filter fun c => decide (c.1 < 2 ^ (Config.xlen - 1))).map fun c => ((c.1 : Int), c.2)

end Sys2Proof.Machine
end

