-- ==== Sys2Proof/Machine/Control.lean ====
section
/-! DEFINITION. The instruction-to-slot decode and the control signal generator (42_control_decoder R115 to
R124): pure functions of the slot's word and `pc`. -/

namespace Sys2Proof.Machine

/-- The slot the IF1 phase creates (40_pipeline_engine R92): identity fields set, every other field absent. -/
def newSlot (word : InstrWord) (pc : Word) (seq : Nat) : Slot where
  instr := word
  seq := seq
  pc := pc
  opcode := none
  readReg1 := none
  readReg2 := none
  writeReg := none
  immediate := none
  branchTargetAddress := none
  signals := none
  opVal1 := none
  opVal2 := none
  aluResult := none
  isZero := none
  memoryDatum := none
  decoded := false
  stallPending := false

/-- The control signal generator (R120): a function of the opcode alone, one row of the table each. -/
def controlSignals : Opcode → ControlSignals
  | .add => ⟨.dest, true, true, false, false, .alu, false⟩
  | .sub => ⟨.dest, true, true, false, false, .alu, false⟩
  | .load => ⟨.second, true, false, false, true, .memory, false⟩
  | .store => ⟨.na, false, false, true, false, .na, false⟩
  | .branchNotZero => ⟨.na, false, false, false, false, .na, true⟩

/-- The literal override (R121), applied after the table. -/
def literalOverride (c : ControlSignals) : ControlSignals := { c with aluOperandIsRegister := false }

/-- The control signals of an instruction (R120, R121). -/
def signalsOf : Instr → ControlSignals
  | .addLit _ _ _ => literalOverride (controlSignals .add)
  | .subLit _ _ _ => literalOverride (controlSignals .sub)
  | .addReg _ _ _ => controlSignals .add
  | .subReg _ _ _ => controlSignals .sub
  | .load _ _ _ => controlSignals .load
  | .store _ _ _ => controlSignals .store
  | .branchNotZero _ _ => controlSignals .branchNotZero

/-- `readReg1` (R117). -/
def readReg1Of : Instr → RegIdx
  | .addReg _ rs _ => rs
  | .addLit _ rs _ => rs
  | .subReg _ rs _ => rs
  | .subLit _ rs _ => rs
  | .load _ rs _ => rs
  | .store _ rs _ => rs
  | .branchNotZero rs _ => rs

/-- `readReg2` (R117): a LOAD does not read its `rt`. -/
def readReg2Of : Instr → Option RegIdx
  | .addReg _ _ rt => some rt
  | .addLit _ _ _ => none
  | .subReg _ _ rt => some rt
  | .subLit _ _ _ => none
  | .load _ _ _ => none
  | .store rt _ _ => some rt
  | .branchNotZero _ _ => none

/-- The destination selector (R119) applied to an instruction record. -/
def selectDest (d : DestSelect) (r : Record) : Option RegIdx :=
  match d with
  | .dest => r.destReg
  | .second => r.sourceReg2
  | .na => none

/-- `writeReg` (R117, R119). -/
def writeRegOf (i : Instr) : Option RegIdx :=
  selectDest (signalsOf i).destRegisterIsSecondSource i.toRecord

/-- `immediate` (R117): the sign-extended `imm` where the form has one. -/
def immediateOf (i : Instr) : Option Word := i.toRecord.immediate.map sext32

/-- `branchTargetAddress` (R118): the slot's own `pc` plus the immediate where there is one. -/
def branchTargetOf (i : Instr) (pc : Word) : Option Word := (immediateOf i).map (pc + ·)

/-- `decode(s)` (R115, R117) for a slot whose word is legal and stands for `i`. -/
def decodeSlot (i : Instr) (q : Slot) : Slot :=
  { q with
    opcode := some i.opcode
    readReg1 := some (readReg1Of i)
    readReg2 := readReg2Of i
    writeReg := writeRegOf i
    immediate := immediateOf i
    branchTargetAddress := branchTargetOf i q.pc
    signals := some (signalsOf i)
    decoded := true }

/-! The signals as the later phases read them (R124). A slot without signals has not been decoded and enables
nothing (log 10). -/

/-- `registerWriteEnabled` of a slot (R82, R106). -/
def Slot.registerWriteEnabled (q : Slot) : Bool := q.signals.any (·.registerWriteEnabled)
/-- `aluOperandIsRegister` of a slot (R88). -/
def Slot.aluOperandIsRegister (q : Slot) : Bool := q.signals.any (·.aluOperandIsRegister)
/-- `memoryReadEnabled` of a slot (R84). -/
def Slot.memoryReadEnabled (q : Slot) : Bool := q.signals.any (·.memoryReadEnabled)
/-- `memoryWriteEnabled` of a slot (R84). -/
def Slot.memoryWriteEnabled (q : Slot) : Bool := q.signals.any (·.memoryWriteEnabled)
/-- `branchEnabled` of a slot (R91). -/
def Slot.branchEnabled (q : Slot) : Bool := q.signals.any (·.branchEnabled)
/-- The slot's writeback source is memory (R82). -/
def Slot.writebackFromMemory (q : Slot) : Bool := q.signals.any (·.writebackSourceIsMemory == .memory)

end Sys2Proof.Machine
end

