-- ==== Sys2Proof/Machine/Operands.lean ====
section
/-! DEFINITION. The Hazard and Forwarding Unit and the operand forms (41_hazard_forwarding R100 to R112,
40_pipeline_engine R87, R88): the stall check, the forwarding mux, the second ALU operand, and the operands of the
sequential level. All are pure functions. -/

namespace Sys2Proof.Machine

/-- `r ∈ reads(s)` (R101): `r` is one of the slot's present read registers. -/
def reads (q : Slot) (r : RegIdx) : Bool := q.readReg1 == some r || q.readReg2 == some r

/-- One comparator group of the stall check (R102, R112): `p` is a LOAD whose destination is read by `q`. -/
def loadFeeds (p : Option Slot) (q : Slot) : Bool :=
  match p with
  | none => false
  | some l =>
    match l.opcode, l.writeReg with
    | some .load, some r => reads q r
    | _, _ => false

/-- The hazard check `hazard(s, e, m1)` (R102): `e` the slot in EX, `m1` the slot in MEM1 of this cycle. -/
def hazard (q : Slot) (e m1 : Option Slot) : Bool := loadFeeds e q || loadFeeds m1 q

/-- The stages the forwarding scan visits (R106), nearest to execute first. -/
inductive ScanStage where
  | mem1 | mem2 | mem3
  deriving DecidableEq, Repr

/-- `ready(q, stage)` (R106): an arithmetic result from MEM1 on, a loaded datum from MEM2 on. -/
def ready (op : Opcode) (st : ScanStage) : Bool :=
  match op with
  | .add => true
  | .sub => true
  | .load => st != .mem1
  | .store => false
  | .branchNotZero => false

/-- `qualifies(p, stage, r)` (R106) for an occupied stage. -/
def qualifies (q : Slot) (st : ScanStage) (r : RegIdx) : Bool :=
  q.registerWriteEnabled && q.writeReg == some r && q.opcode.any (ready · st)

/-- `value(q)` (R106) of a qualifying producer. -/
def producedValue (q : Slot) : Option Word :=
  match q.opcode with
  | some .load => q.memoryDatum
  | _ => q.aluResult

/-- What the forwarding mux delivers: a value, the finding that the register is absent (R154), or a producer
whose value has not been computed, which R39(e) and R39(f) exclude (log 9). -/
inductive Fetched where
  | value (v : Word)
  | absent
  | notComputed
  deriving DecidableEq, Repr

/-- One input of the priority mux (R112): the producer's value where it qualifies, else the next input. -/
def scanStage (p : Option Slot) (st : ScanStage) (r : RegIdx) (next : Fetched) : Fetched :=
  match p with
  | none => next
  | some q =>
    if qualifies q st r then
      match producedValue q with
      | some v => .value v
      | none => .notComputed
    else next

/-- The register-file input of the mux, the last one (R106, R109). -/
def fetchFromFile (s : State) (r : RegIdx) : Fetched :=
  match readReg s r with
  | some v => .value v
  | none => .absent

/-- `Fwd(r)` (R106): evaluated in the EX phase, when `lat.mem1`, `lat.mem2`, `lat.mem3` hold the slots in MEM1,
MEM2 and MEM3 of this cycle and `rf` is as the WB phase of this cycle left it (R109). A LOAD still in MEM1 is
passed over (R107). -/
def fwd (s : State) (r : RegIdx) : Fetched :=
  scanStage s.lat.mem1 .mem1 r
    (scanStage s.lat.mem2 .mem2 r
      (scanStage s.lat.mem3 .mem3 r (fetchFromFile s r)))

/-- The second ALU operand (R88): register value or immediate, per control signal. -/
def aluSecond (q : Slot) : Option Word := if q.aluOperandIsRegister then q.opVal2 else q.immediate

/-- Operand resolution continued: `opVal2` when `readReg2` is present (R87), then `k`. -/
def resolveSecond (q : Slot) (s : State) (k : Slot → Result State) : Result State :=
  match q.readReg2 with
  | none => k q
  | some r2 =>
    match fwd s r2 with
    | .value v => k { q with opVal2 := some v }
    | .absent => raise (.registerAbsent r2) s
    | .notComputed => .fault .slotFieldAbsent

/-- Operand resolution (R87): `opVal1`, then `opVal2` (the order R154 fixes), then `k` on the slot. -/
def resolveOperands (q : Slot) (s : State) (k : Slot → Result State) : Result State :=
  match q.readReg1 with
  | none => .fault .slotFieldAbsent
  | some r1 =>
    match fwd s r1 with
    | .value v => resolveSecond { q with opVal1 := some v } s k
    | .absent => raise (.registerAbsent r1) s
    | .notComputed => .fault .slotFieldAbsent

/-- `x[i]` at the sequential level (R13): the value, or `RegisterAbsent(i)`. -/
def withReg (i : RegIdx) (s : State) (k : Word → Result State) : Result State :=
  match readReg s i with
  | some v => k v
  | none => raise (.registerAbsent i) s

/-- `MemRead(a, 1)` (R42): the value, or `MemoryAbsent(a)`. -/
def withCell (a : Word) (s : State) (k : Word → Result State) : Result State :=
  match readCell s a with
  | some v => k v
  | none => raise (.memoryAbsent a) s

end Sys2Proof.Machine
end

