-- ==== Sys2Proof/Machine/Flags.lean ====
section
/-! DEFINITION. The ALU dispatch of the EX phase (40_pipeline_engine R88) and the one predicate of the engine,
`isZero` (43_branch_resolution R131). There are no architectural flags (10_state R25). -/

namespace Sys2Proof.Machine

/-- `a = 0` over all `XLEN` bits (R131). -/
def isZeroWord (a : Word) : Bool := a == 0

/-- ADD, LOAD and STORE in EX (R88): `aluResult <- a + b`. -/
def aluAdd (q : Slot) : Option Slot :=
  match q.opVal1, aluSecond q with
  | some a, some b => some { q with aluResult := some (a + b) }
  | _, _ => none

/-- SUB in EX (R88): `aluResult <- a - b`, first source minus second (R142). -/
def aluSub (q : Slot) : Option Slot :=
  match q.opVal1, aluSecond q with
  | some a, some b => some { q with aluResult := some (a - b) }
  | _, _ => none

/-- BRANCH_NOT_ZERO in EX (R88, R131): `isZero <- (a = 0)` from the first operand only; `aluResult` stays
absent. -/
def aluTestZero (q : Slot) : Option Slot :=
  match q.opVal1 with
  | some a => some { q with isZero := some (isZeroWord a) }
  | none => none

/-- The slot resolves a taken branch (R91, R131). -/
def takenBranch (q : Slot) : Bool := q.branchEnabled && q.isZero == some false

end Sys2Proof.Machine
end

