-- ==== Sys2Proof/Machine/Phases.lean ====
section
/-! DEFINITION. What each phase of the cycle does to the slot in its stage (40_pipeline_engine R82 to R94). The
phases run from the most advanced to the least advanced (R80), so one set of latches serves: a phase takes its
slot from the latch behind its stage and leaves it in the latch of its stage, and when a phase runs, the latches
ahead of it hold the slots of this cycle and those behind it the slots of the last (log 12). -/

namespace Sys2Proof.Machine

/-- WB phase (R82): write the result when `registerWriteEnabled`, then retire the slot. -/
def writeBack (s : State) : Result State :=
  match s.lat.mem3 with
  | none => .next s
  | some q =>
    let retired : State := { s with lat := { s.lat with mem3 := none } }
    if q.registerWriteEnabled then
      match q.writeReg, (if q.writebackFromMemory then q.memoryDatum else q.aluResult) with
      | some r, some v => .next (writeReg retired r v)
      | _, _ => .fault .slotFieldAbsent
    else .next retired

/-- MEM3 and MEM2 phases (R83): two pass-through moves, no work. -/
def passMemory (s : State) : State :=
  { s with lat := { s.lat with mem3 := s.lat.mem2, mem2 := s.lat.mem1, mem1 := none } }

/-- The slot `q` leaves the MEM1 phase. -/
def leaveMem1 (q : Slot) (s : State) : State :=
  { s with lat := { s.lat with mem1 := some q, ex := none } }

/-- MEM1 phase, the write (R84): `MemWrite(aluResult, 1, opVal2)` when enabled. -/
def storePart (q : Slot) (s : State) : Result State :=
  if q.memoryWriteEnabled then
    match q.aluResult, q.opVal2 with
    | some a, some v => .next (leaveMem1 q (writeCell s a v))
    | _, _ => .fault .slotFieldAbsent
  else .next (leaveMem1 q s)

/-- MEM1 phase (R84): `memoryDatum <- MemRead(aluResult, 1)` when enabled, then the write. -/
def accessMemory (s : State) : Result State :=
  match s.lat.ex with
  | none => .next s
  | some q =>
    if q.memoryReadEnabled then
      match q.aluResult with
      | some a => withCell a s fun v => storePart { q with memoryDatum := some v } s
      | none => .fault .slotFieldAbsent
    else storePart q s

/-- The slot `q` leaves the EX phase. -/
def leaveEx (q : Slot) (s : State) : State :=
  { s with lat := { s.lat with ex := some q, id := none } }

/-- EX phase of a slot that does not stall (R85, R87, R88): operands through `Fwd`, then the ALU dispatch
`alu` of its opcode. -/
def executeWith (alu : Slot → Option Slot) (s : State) : Result State :=
  match s.lat.id with
  | none => .next s
  | some q =>
    resolveOperands q s fun q1 =>
      match alu q1 with
      | some q2 => .next (leaveEx q2 s)
      | none => .fault .slotFieldAbsent

/-- ID phase (R89) for a slot whose word stands for `i`: decode (R117), then the hazard check (R102) against the
slots in EX and MEM1 of this cycle. -/
def decodeInto (i : Instr) (s : State) : Result State :=
  match s.lat.if2 with
  | none => .next s
  | some q =>
    let d := decodeSlot i q
    let d' : Slot := { d with stallPending := hazard d s.lat.ex s.lat.mem1 }
    .next { s with lat := { s.lat with id := some d', if2 := none } }

/-- IF2 phase (R90): a move, no work. -/
def passFetch (s : State) : State :=
  { s with lat := { s.lat with if2 := s.lat.if1, if1 := none } }

/-- Squash (R133): the slots in ID and IF2 of this cycle are destroyed. -/
def squash (s : State) : State := { s with lat := { s.lat with id := none, if2 := none } }

/-- IF1 phase, step one (R91, R132 to R134): the slot in EX, when it resolves a taken branch, squashes and
redirects `fetchPtr`; otherwise nothing. -/
def resolveBranch (s : State) : Result State :=
  match s.lat.ex with
  | none => .next s
  | some q =>
    if takenBranch q then
      match q.branchTargetAddress with
      | some t => .next { squash s with fetchPtr := t }
      | none => .fault .slotFieldAbsent
    else .next s

/-- IF1 phase, step two (R92, R94): fetch at `fetchPtr`, or find the end of the program, or raise
`FetchOutOfRange` (R156). -/
def fetch (s : State) : Result State :=
  if s.fetchPtr.toInt < 0 then raise (.fetchOutOfRange s.fetchPtr) s
  else
    match s.img[s.fetchPtr.toNat]? with
    | some word =>
      .next { s with
        lat := { s.lat with if1 := some (newSlot word s.fetchPtr s.seqNext) }
        seqNext := s.seqNext + 1
        fetchPtr := s.fetchPtr + 1
        eop := false }
    | none => .next { s with lat := { s.lat with if1 := none }, eop := true }

/-- What an instruction does in `s`. Between cycles: its architectural effect `whole` (the sequential level, R8).
In a phase of the cycle: the work of that phase for the slot in its stage, with the word's instruction `i` for the
decode and `alu` for the ALU dispatch (the "Pipeline behaviour" of its rule; R138). -/
def inPhase (i : Instr) (alu : Slot → Option Slot) (whole : State → Result State) (s : State) : Result State :=
  match s.phase with
  | .atRest => whole s
  | .wb => writeBack s
  | .mem1 => accessMemory s
  | .ex => executeWith alu s
  | .id => decodeInto i s
  | .if1 => resolveBranch s

/-- `pc <- pc + 1` at the sequential level (R13, R138). -/
def nextPc (s : State) : State := { s with fetchPtr := s.fetchPtr + 1 }

end Sys2Proof.Machine
end

