-- ==== Sys2Proof/Machine/Arithmetic.lean ====
section
/-! DEFINITION. ADD and SUB in their register and literal forms (44_arithmetic R139 to R143). -/

namespace Sys2Proof.Machine

/-- `x[rd] <- op x[rs] x[rt]`, `pc <- pc + 1`; sources read in the order of R154. -/
def arithRegister (op : Word → Word → Word) (rd rs rt : RegIdx) (s : State) : Result State :=
  withReg rs s fun a => withReg rt s fun b => .next (nextPc (writeReg s rd (op a b)))

/-- `x[rd] <- op x[rs] (sext_32(imm))`, `pc <- pc + 1`. -/
def arithLiteral (op : Word → Word → Word) (rd rs : RegIdx) (imm : Imm) (s : State) : Result State :=
  withReg rs s fun a => .next (nextPc (writeReg s rd (op a (sext32 imm))))

/-- ADD, register form (R140). -/
def execAddReg (rd rs rt : RegIdx) (s : State) : Result State :=
  inPhase (.addReg rd rs rt) aluAdd (arithRegister (· + ·) rd rs rt) s

/-- ADD, literal form (R141). -/
def execAddLit (rd rs : RegIdx) (imm : Imm) (s : State) : Result State :=
  inPhase (.addLit rd rs imm) aluAdd (arithLiteral (· + ·) rd rs imm) s

/-- SUB, register form (R142). -/
def execSubReg (rd rs rt : RegIdx) (s : State) : Result State :=
  inPhase (.subReg rd rs rt) aluSub (arithRegister (· - ·) rd rs rt) s

/-- SUB, literal form (R143). -/
def execSubLit (rd rs : RegIdx) (imm : Imm) (s : State) : Result State :=
  inPhase (.subLit rd rs imm) aluSub (arithLiteral (· - ·) rd rs imm) s

end Sys2Proof.Machine
end

