-- ==== Sys2Proof/Machine/Branch.lean ====
section
/-! DEFINITION. BRANCH_NOT_ZERO (46_branch_instruction R147). -/

namespace Sys2Proof.Machine

/-- BRANCH_NOT_ZERO as a whole (R147): `pc <- pc + sext_32(imm)` when `x[rs] != 0`, else `pc <- pc + 1`. -/
def branchWhole (rs : RegIdx) (imm : Imm) (s : State) : Result State :=
  withReg rs s fun a =>
    if isZeroWord a then .next (nextPc s)
    else .next { s with fetchPtr := s.fetchPtr + sext32 imm }

/-- BRANCH_NOT_ZERO (R147). -/
def execBranchNotZero (rs : RegIdx) (imm : Imm) (s : State) : Result State :=
  inPhase (.branchNotZero rs imm) aluTestZero (branchWhole rs imm) s

end Sys2Proof.Machine
end

