-- ==== Sys2Proof/Machine/LoadStore.lean ====
section
/-! DEFINITION. LOAD and STORE (45_load_store R144 to R146). -/

namespace Sys2Proof.Machine

/-- The effective address (R60, R146(a)): base plus offset, modulo `2^XLEN`. -/
def effectiveAddress (base : Word) (imm : Imm) : Word := base + sext32 imm

/-- LOAD as a whole (R144): `a <- x[rs] + sext_32(imm); x[rt] <- MemRead(a, 1); pc <- pc + 1`. -/
def loadWhole (rt rs : RegIdx) (imm : Imm) (s : State) : Result State :=
  withReg rs s fun base =>
    withCell (effectiveAddress base imm) s fun v => .next (nextPc (writeReg s rt v))

/-- STORE as a whole (R145): `a <- x[rs] + sext_32(imm); MemWrite(a, 1, x[rt]); pc <- pc + 1`. -/
def storeWhole (rt rs : RegIdx) (imm : Imm) (s : State) : Result State :=
  withReg rs s fun base =>
    withReg rt s fun v => .next (nextPc (writeCell s (effectiveAddress base imm) v))

/-- LOAD (R144). -/
def execLoad (rt rs : RegIdx) (imm : Imm) (s : State) : Result State :=
  inPhase (.load rt rs imm) aluAdd (loadWhole rt rs imm) s

/-- STORE (R145). -/
def execStore (rt rs : RegIdx) (imm : Imm) (s : State) : Result State :=
  inPhase (.store rt rs imm) aluAdd (storeWhole rt rs imm) s

end Sys2Proof.Machine
end

