-- ==== Sys2Proof/Machine/Dispatch.lean ====
section
/-! DEFINITION. `exec`: one arm for each word form of 30_encoding R58, exhaustive (00_scope R10). -/

namespace Sys2Proof.Machine

def exec (i : Instr) (s : State) : Host.Outcome State Fault Refusal :=
  match i with
  | .addReg rd rs rt => Sys2Proof.Machine.execAddReg rd rs rt s
  | .addLit rd rs imm => Sys2Proof.Machine.execAddLit rd rs imm s
  | .subReg rd rs rt => Sys2Proof.Machine.execSubReg rd rs rt s
  | .subLit rd rs imm => Sys2Proof.Machine.execSubLit rd rs imm s
  | .load rt rs imm => Sys2Proof.Machine.execLoad rt rs imm s
  | .store rt rs imm => Sys2Proof.Machine.execStore rt rs imm s
  | .branchNotZero rs imm => Sys2Proof.Machine.execBranchNotZero rs imm s

end Sys2Proof.Machine
end

