-- ==== Sys2Proof/Machine/Cycle.lean ====
section
/-! DEFINITION. One clock cycle (40_pipeline_engine R80 to R99): the phases in order, each running `exec` of the
instruction its slot carries, the stall cycle, the stage report and the end of the cycle. -/

namespace Sys2Proof.Machine

/-- The work of phase `p` for the slot `q` in its stage: `exec` of the instruction `q`'s word stands for. A slot
past ID always has a legal word (R39(c), R116; log 9). -/
def runSlot (p : Phase) (q : Slot) (s : State) : Result State :=
  match decode q.instr with
  | .ok i => exec i { s with phase := p }
  | .error _ => .fault .slotNotDecodable

/-- WB phase (R82). -/
def wbPhase (s : State) : Result State :=
  match s.lat.mem3 with
  | none => .next s
  | some q => runSlot .wb q s

/-- MEM1 phase (R84). -/
def mem1Phase (s : State) : Result State :=
  match s.lat.ex with
  | none => .next s
  | some q => runSlot .mem1 q s

/-- EX phase of a cycle that is not a stall cycle (R85). -/
def exPhase (s : State) : Result State :=
  match s.lat.id with
  | none => .next s
  | some q => runSlot .ex q s

/-- ID phase (R89): a legal word is decoded, an illegal one raises `IllegalInstruction` (R116, R153). -/
def idPhase (s : State) : Result State :=
  match s.lat.if2 with
  | none => .next s
  | some q =>
    match decode q.instr with
    | .ok i => exec i { s with phase := .id }
    | .error _ => raise (.illegalInstruction q.pc q.instr) s

/-- IF1 phase, step one (R91): the branch evaluation of the slot in EX. -/
def branchPhase (s : State) : Result State :=
  match s.lat.ex with
  | none => .next s
  | some q => runSlot .if1 q s

/-- The slot about to execute has its stall pending (R85): the cycle is a stall cycle. -/
def stalled (s : State) : Bool := s.lat.id.any (·.stallPending)

/-- The stall cycle's EX phase (R86(b) to (e)): the stalled slot stays in ID with `stallPending` cleared, a bubble
enters EX, and nothing younger moves. -/
def holdStalled (s : State) : State :=
  { s with lat := { s.lat with id := s.lat.id.map fun q => { q with stallPending := false }, ex := none } }

/-- The phases WB, MEM3, MEM2, MEM1, which every cycle runs (R82 to R84, R86(f)). -/
def backPhases (s : State) : Result State :=
  andThen (wbPhase s) fun s1 => mem1Phase (passMemory s1)

/-- The phases ID, IF2, IF1 of a cycle that is not a stall cycle (R89 to R92, R94). -/
def frontPhases (s : State) : Result State :=
  andThen (idPhase s) fun s1 => andThen (branchPhase (passFetch s1)) fetch

/-- One entry of the report for an occupied stage, none for an empty one (R97). -/
def entry (t : StageToken) (p : Option Slot) : List ReportEntry :=
  match p with
  | none => []
  | some q => [⟨q.seq, t⟩]

/-- The stage report (R97), least advanced first: `lat` as the cycle leaves it, `w` the slot that was in WB. In a
stall cycle the slot held in ID reports `stall`, and EX is empty. -/
def stageReport (isStall : Bool) (lat : Latches) (w : Option Slot) : List ReportEntry :=
  entry .IF1 lat.if1 ++ entry .IF2 lat.if2
    ++ entry (if isStall then .stall else .ID) lat.id
    ++ entry .EX lat.ex ++ entry .MEM1 lat.mem1 ++ entry .MEM2 lat.mem2 ++ entry .MEM3 lat.mem3
    ++ entry .WB w

/-- All seven latches are empty (R98). -/
def drained (lat : Latches) : Bool := lat == Latches.empty

/-- End of the cycle (R95, R96, R98): the report, `cycle`, `finished`. -/
def endOfCycle (isStall : Bool) (w : Option Slot) (s : State) : State :=
  { s with
    report := stageReport isStall s.lat w
    cycle := s.cycle + 1
    finished := s.eop && drained s.lat }

/-- The phases of one cycle and its end (R95). -/
def cyclePhases (s : State) : Result State :=
  andThen (backPhases s) fun s1 =>
    if stalled s1 then .next (endOfCycle true s.lat.mem3 (holdStalled s1))
    else
      andThen (exPhase s1) fun s2 =>
        andThen (frontPhases s2) fun s3 => .next (endOfCycle false s.lat.mem3 s3)

/-- What a cycle that began in `s` leaves. After a fatal condition the latches are not advanced: they keep their
contents of the start of the cycle (R150, R151). -/
def settle (s : State) (r : Result State) : Result State :=
  match r with
  | .next t =>
    if t.fault.isSome then .next { t with lat := s.lat, phase := .atRest }
    else .next { t with phase := .atRest }
  | .fault e => .fault e
  | .refused e => .refused e

/-- One clock edge (R95, R99): a cycle, or, in a terminal state, nothing (R166 "it holds its state until reset";
log 4). -/
def clock (s : State) : Result State :=
  if terminal s then .next s else settle s (cyclePhases s)

/-- The number of the cycle that starts in `s` (R26, R96). -/
def cycleNumber (s : State) : Nat := s.cycle + Config.cycleBase

end Sys2Proof.Machine
end

