-- ==== Sys2Proof/Machine/Frontend.lean ====
section
/-! DEFINITION. How a word is set where the next cycle runs it (log 7): the engine does not simply fetch at a
program counter, its fetch and decode take three cycles (R81), so the word is put where those cycles would have
brought it. -/

namespace Sys2Proof.Machine

/-- `img` with `word` at index `n`, padded with zero words where it is shorter. -/
def placeWord : List InstrWord → Nat → InstrWord → List InstrWord
  | [], 0, word => [word]
  | [], n + 1, word => 0 :: placeWord [] n word
  | _ :: img, 0, word => word :: img
  | w :: img, n + 1, word => w :: placeWord img n word

/-- The front end with the slot of `word` just past it. A legal word has been decoded and stands in `lat.id`, so
that the next cycle executes it, after its one stall cycle if a LOAD ahead of it feeds it (R102). An illegal word
stands in `lat.if2`, so that the next cycle decodes it and raises `IllegalInstruction`. -/
def frontOf (word : InstrWord) (s : State) : Latches :=
  let q := newSlot word s.fetchPtr s.seqNext
  match decode word with
  | .ok i =>
    let d := decodeSlot i q
    { s.lat with if1 := none, if2 := none, id := some { d with stallPending := hazard d s.lat.ex s.lat.mem1 } }
  | .error _ => { s.lat with if1 := none, if2 := some q, id := none }

/-- `s` with `word` fetched at `fetchPtr` and brought through the front end, in a machine that runs. -/
def placeAtFront (word : InstrWord) (s : State) : State :=
  { s with
    img := placeWord s.img s.fetchPtr.toNat word
    lat := frontOf word s
    fetchPtr := s.fetchPtr + 1
    seqNext := s.seqNext + 1
    finished := false
    fault := none }

end Sys2Proof.Machine
end

