-- ==== Sys2Proof/Machine/Ports.lean ====
section
/-! DEFINITION. The ports of the block (70_reset_and_hazards R177) as functions of the state in which a cycle
starts. `clk` is `step`, `reset` is `applyReset`, `report`, `finished` and `fault` are fields of the state. -/

namespace Sys2Proof.Machine

/-- The slot in MEM1 in the cycle that starts in `s` (R81). In a terminal state no cycle starts (R99) and R177 does
not say what the data port shows: DESIGN CHOICE, the slot kept in `lat[EX]` is still shown, so after a fatal
condition the enables, the address and the data below are that slot's (log 20). -/
def slotInMem1 (s : State) : Option Slot := s.lat.ex

/-- `dmem_addr`: `aluResult` of the slot in MEM1. Where there is none, MEM1 holding a bubble or a
BRANCH_NOT_ZERO, R177 does not say what the port shows: DESIGN CHOICE, no value (log 18). -/
def dmemAddr (s : State) : Option Word := (slotInMem1 s).bind (·.aluResult)

/-- `dmem_re`: 0 when MEM1 holds a bubble. -/
def dmemReadEnable (s : State) : Bool := (slotInMem1 s).any (·.memoryReadEnabled)

/-- `dmem_we`: 0 when MEM1 holds a bubble. -/
def dmemWriteEnable (s : State) : Bool := (slotInMem1 s).any (·.memoryWriteEnabled)

/-- `dmem_wdata`: `opVal2` of the slot in MEM1. Where there is none R177 does not say what the port shows: DESIGN
CHOICE, no value (log 18). -/
def dmemWriteData (s : State) : Option Word := (slotInMem1 s).bind (·.opVal2)

/-- `dmem_rdata`: `MEM[dmem_addr]`, delivered in the same cycle. Where `dmem_addr` has no value or names no cell R177
does not say what the port carries: DESIGN CHOICE, no value (log 18). -/
def dmemReadData (s : State) : Option Word := (dmemAddr s).bind (readCell s)

/-- `dmem_present`: 0 when `MEM[dmem_addr] = none`. Where `dmem_addr` has no value, MEM1 holding a bubble or a
BRANCH_NOT_ZERO, R177 does not say what the port carries: DESIGN CHOICE, 0 (log 18). -/
def dmemPresent (s : State) : Bool := (dmemReadData s).isSome

/-- The state the fetch of this cycle starts from, after the squash and redirect of the same cycle; none where no
fetch takes place: in a stall cycle, when an earlier phase raises a fatal condition (DESIGN CHOICE, log 18), and in a
terminal state (DESIGN CHOICE, log 20). -/
def beforeFetch (s : State) : Option State :=
  if terminal s then none
  else
    match backPhases s with
    | .next s1 =>
      if s1.fault.isSome || stalled s1 then none
      else
        match andThen (exPhase s1) fun s2 => andThen (idPhase s2) fun s3 => branchPhase (passFetch s3) with
        | .next t => if t.fault.isSome then none else some t
        | _ => none
    | _ => none

/-- `imem_addr`: `fetchPtr` as used by this cycle's fetch. In a cycle without a fetch R177 does not say what the port
shows: DESIGN CHOICE, no value (log 18, log 20). -/
def imemAddr (s : State) : Option Word := (beforeFetch s).map (·.fetchPtr)

/-- `imem_valid`: 1 when `0 <= signed(imem_addr) < N`. Where `imem_addr` has no value, in a stall cycle, after an
earlier phase's fatal condition and in a terminal state, R177 does not say what the port carries: DESIGN CHOICE, 0
(log 18, log 20). -/
def imemValid (s : State) : Bool := ((imemAddr s).bind (imageAt s)).isSome

/-- `imem_data`: `IMG[imem_addr]` when valid. Where it is not R177 gives the port nothing: DESIGN CHOICE, no value
(log 18, log 20). -/
def imemData (s : State) : Option InstrWord := (imemAddr s).bind (imageAt s)

/-- `fault` port: the code and the recorded value are in the field itself (R152). -/
def faultCode (s : State) : Option Nat := s.fault.map FatalCondition.code

end Sys2Proof.Machine
end

