-- ==== Sys2Proof/Machine/Sequential.lean ====
section
/-! DEFINITION. The sequential level (00_scope R8, 70_reset_and_hazards R186): one instruction at a time, in
program order, with `fetchPtr` as `pc`. It runs the same `exec`, at rest. -/

namespace Sys2Proof.Machine

/-- One instruction of the sequential level (R186): while `0 <= signed(pc) < N` the architectural effect of
`IMG[pc]`; the end at `signed(pc) >= N`; below zero `FetchOutOfRange` (R156); an illegal word
`IllegalInstruction` (R153). `eop` and `finished` mark the end as at the pipeline level; latches, `seqNext`,
`cycle` and `report` stay (log 15). -/
def seqStep (s : State) : Result State :=
  if terminal s then .next s
  else if s.fetchPtr.toInt < 0 then raise (.fetchOutOfRange s.fetchPtr) s
  else
    match s.img[s.fetchPtr.toNat]? with
    | none => .next { s with eop := true, finished := true }
    | some word =>
      match decode word with
      | .ok i => exec i { s with phase := .atRest }
      | .error _ => raise (.illegalInstruction s.fetchPtr word) s

/-- `k` steps of the sequential level. -/
def seqRun : Nat → State → Result State
  | 0, s => .next s
  | k + 1, s =>
    match seqStep s with
    | .next s' => seqRun k s'
    | .fault e => .fault e
    | .refused e => .refused e

end Sys2Proof.Machine
end

