-- ==== Sys2Proof/Machine/Step.lean ====
section
/-! DEFINITION. The step of the machine: one clock cycle (00_scope R7, 40_pipeline_engine R95). -/

namespace Sys2Proof.Machine

/-- One step is one clock cycle (R7, R95). -/
def step (s : State) : Host.Outcome State Fault Refusal := clock s

/-- `s` with the table's instruction of `nbits` bits and value `w` placed so that the very next step runs it
(log 7). -/
def State.withFetchWord (s : State) (nbits w : Nat) : State := placeAtFront (tableWord nbits w) s

end Sys2Proof.Machine
end

