-- ==== Sys2Proof/Machine/Pseudocode.lean ====
section
/-! DEFINITION. The pseudocode of 40_pipeline_engine R95 transcribed line by line, with its local copies `w`, `m3`,
`m2`, `m1`, `e`, `d`, `f2`, `f1` instead of `exec` and the shared latches of `clock`. `clock` is the machine; this
text is what a statement compares it with (log 12). A field that R39 says is present is read with `getD`. -/

namespace Sys2Proof.Machine

/-- WB phase of R95: the register file after it. -/
def r95WriteBack (rf : RegFile) (w : Option Slot) : RegFile :=
  match w with
  | none => rf
  | some q =>
    if q.registerWriteEnabled then
      mapSet rf (q.writeReg.getD 0).toNat ((if q.writebackFromMemory then q.memoryDatum else q.aluResult).getD 0)
    else rf

/-- MEM1 phase of R95: the slot and the memory after it, or the condition raised. -/
def r95Access (mem : Memory) (q : Slot) : Except FatalCondition (Slot × Memory) :=
  let a := q.aluResult.getD 0
  let write (q' : Slot) : Slot × Memory :=
    (q', if q.memoryWriteEnabled then mapSet mem a.toNat (q.opVal2.getD 0) else mem)
  if q.memoryReadEnabled then
    match mapGet mem a.toNat with
    | none => .error (.memoryAbsent a)
    | some v => .ok (write { q with memoryDatum := some v })
  else .ok (write q)

/-- `Fwd(r)` of R106 over the local copies. -/
def r95Fwd (rf : RegFile) (m1 m2 m3 : Option Slot) (r : RegIdx) : Except FatalCondition Word :=
  if m1.any (qualifies · .mem1 r) then .ok ((m1.bind producedValue).getD 0)
  else if m2.any (qualifies · .mem2 r) then .ok ((m2.bind producedValue).getD 0)
  else if m3.any (qualifies · .mem3 r) then .ok ((m3.bind producedValue).getD 0)
  else
    match mapGet rf r.toNat with
    | some v => .ok v
    | none => .error (.registerAbsent r)

/-- `alu(s)` of R88. -/
def r95Alu (q : Slot) : Slot :=
  let a := q.opVal1.getD 0
  let b := (if q.aluOperandIsRegister then q.opVal2 else q.immediate).getD 0
  match q.opcode with
  | some .add => { q with aluResult := some (a + b) }
  | some .sub => { q with aluResult := some (a - b) }
  | some .load => { q with aluResult := some (a + b) }
  | some .store => { q with aluResult := some (a + b) }
  | some .branchNotZero => { q with isZero := some (a == 0) }
  | none => q

/-- EX phase of R95 for an occupied stage, or the condition raised. -/
def r95Execute (rf : RegFile) (m1 m2 m3 : Option Slot) (q : Slot) : Except FatalCondition Slot :=
  match r95Fwd rf m1 m2 m3 (q.readReg1.getD 0) with
  | .error f => .error f
  | .ok v1 =>
    match q.readReg2 with
    | none => .ok (r95Alu { q with opVal1 := some v1 })
    | some r2 =>
      match r95Fwd rf m1 m2 m3 r2 with
      | .error f => .error f
      | .ok v2 => .ok (r95Alu { q with opVal1 := some v1, opVal2 := some v2 })

/-- ID phase of R95 for an occupied stage, or the condition raised. -/
def r95Decode (e m1 : Option Slot) (q : Slot) : Except FatalCondition Slot :=
  match decode q.instr with
  | .error _ => .error (.illegalInstruction q.pc q.instr)
  | .ok i => .ok { decodeSlot i q with stallPending := hazard (decodeSlot i q) e m1 }

/-- A phase over an optional slot. -/
def overSlot (p : Option Slot) (f : Slot → Except FatalCondition Slot) : Except FatalCondition (Option Slot) :=
  match p with
  | none => .ok none
  | some q =>
    match f q with
    | .error e => .error e
    | .ok q' => .ok (some q')

/-- The end of the cycle in R95: latches, `cycle`, `finished`, report. -/
def r95End (s : State) (lat : Latches) (report : List ReportEntry) : State :=
  { s with
    lat := lat
    cycle := s.cycle + 1
    finished := s.eop && drained lat
    report := report }

/-- The IF1 phase of R95 and the end of the cycle. `s` holds what the earlier phases wrote at once. -/
def r95Fetch (s : State) (w m3 m2 m1 e d f2 : Option Slot) : State :=
  let taken := e.any takenBranch
  let d' := if taken then none else d
  let f2' := if taken then none else f2
  let ptr := if taken then (e.bind (·.branchTargetAddress)).getD 0 else s.fetchPtr
  if ptr.toInt < 0 then { s with fetchPtr := ptr, fault := some (.fetchOutOfRange ptr) }
  else if ptr.toInt < imageLength s then
    let f1 := some (newSlot ((imageAt s ptr).getD 0) ptr s.seqNext)
    r95End { s with fetchPtr := ptr + 1, seqNext := s.seqNext + 1, eop := false }
      ⟨f1, f2', d', e, m1, m2, m3⟩
      (entry .IF1 f1 ++ entry .IF2 f2' ++ entry .ID d' ++ entry .EX e ++ entry .MEM1 m1 ++ entry .MEM2 m2
        ++ entry .MEM3 m3 ++ entry .WB w)
  else
    r95End { s with fetchPtr := ptr, eop := true }
      ⟨none, f2', d', e, m1, m2, m3⟩
      (entry .IF2 f2' ++ entry .ID d' ++ entry .EX e ++ entry .MEM1 m1 ++ entry .MEM2 m2
        ++ entry .MEM3 m3 ++ entry .WB w)

/-- The part of R95 after the MEM1 phase. -/
def r95Young (s : State) (w m3 m2 m1 : Option Slot) : State :=
  let e := s.lat.id
  if e.any (·.stallPending) then
    let e' := e.map fun q => { q with stallPending := false }
    r95End s ⟨s.lat.if1, s.lat.if2, e', none, m1, m2, m3⟩
      (entry .IF1 s.lat.if1 ++ entry .IF2 s.lat.if2 ++ entry .stall e' ++ entry .MEM1 m1 ++ entry .MEM2 m2
        ++ entry .MEM3 m3 ++ entry .WB w)
  else
    match overSlot e (r95Execute s.rf m1 m2 m3) with
    | .error f => { s with fault := some f }
    | .ok e' =>
      match overSlot s.lat.if2 (r95Decode e' m1) with
      | .error f => { s with fault := some f }
      | .ok d => r95Fetch s w m3 m2 m1 e' d s.lat.if1

/-- The cycle step of R95, behind its guard (R99). -/
def r95Step (s : State) : State :=
  if terminal s then s
  else
    let w := s.lat.mem3
    let s1 := { s with rf := r95WriteBack s.rf w }
    match s.lat.ex with
    | none => r95Young s1 w s.lat.mem2 s.lat.mem1 none
    | some q =>
      match r95Access s.mem q with
      | .error f => { s1 with fault := some f }
      | .ok (q', mem') => r95Young { s1 with mem := mem' } w s.lat.mem2 s.lat.mem1 (some q')

end Sys2Proof.Machine
end

