-- ==== Sys2Proof/Safety.lean ====
section
/-! DEFINITION. The terms the statements use: runs, the end of a run, the invariants of the state (10_state R39,
41_hazard_forwarding R105, 10_state R24). -/

namespace Sys2Proof.Machine

/-- `k` clock cycles. -/
def runFor : Nat → State → Result State
  | 0, s => .next s
  | k + 1, s =>
    match step s with
    | .next s' => runFor k s'
    | .fault e => .fault e
    | .refused e => .refused e

/-- The normal end of a run (R99, R176). -/
def completed (s : State) : Bool := s.finished && s.fault.isNone

/-- What a run of clock cycles is counted by (70_reset_and_hazards R185(d)): slots retired, stall cycles, and taken
branches whose target lies inside the image. -/
structure Tally where
  executed : Nat
  stalls   : Nat
  taken    : Nat
  deriving DecidableEq, Repr

/-- The report has an entry with token `t`. -/
def reports (s : State) (t : StageToken) : Bool := s.report.any (·.token == t)

/-- The slot the cycle that led to `s` executed resolved a taken branch to an index of the image (R132). -/
def tookInsideBranch (s : State) : Bool :=
  s.lat.ex.any fun q => takenBranch q && (q.branchTargetAddress.bind (imageAt s)).isSome

/-- The counts of `k` clock cycles from `s`; a cycle counts only where one runs (R99). -/
def tally : Nat → State → Tally
  | 0, _ => ⟨0, 0, 0⟩
  | k + 1, s =>
    if terminal s then ⟨0, 0, 0⟩
    else
      match step s with
      | .next t =>
        let r := tally k t
        ⟨r.executed + (reports t .WB).toNat, r.stalls + (reports t .stall).toNat,
          r.taken + (tookInsideBranch t).toNat⟩
      | _ => ⟨0, 0, 0⟩

/-- The slots retired by `k` clock cycles from `s`, in order of retirement, by `pc` and word (R186). A cycle that
raises a fatal condition retires none (R151). -/
def retiredBy : Nat → State → List (Word × InstrWord)
  | 0, _ => []
  | k + 1, s =>
    if terminal s then []
    else
      match step s with
      | .next t =>
        (if t.fault.isSome then [] else (s.lat.mem3.map fun q => (q.pc, q.instr)).toList) ++ retiredBy k t
      | _ => []

/-- The instructions `k` steps of the sequential level execute from `s`, in order, by `pc` and word (R186). -/
def executedBy : Nat → State → List (Word × InstrWord)
  | 0, _ => []
  | k + 1, s =>
    if terminal s then []
    else
      match seqStep s with
      | .next t =>
        (if t.fault.isSome then [] else ((imageAt s s.fetchPtr).map fun w => (s.fetchPtr, w)).toList)
          ++ executedBy k t
      | _ => []

/-- Every word of the image is legal (R66). -/
def allLegal (img : List InstrWord) : Bool :=
  img.all fun w =>
    match decode w with
    | .ok _ => true
    | .error _ => false

/-- The frame of an instruction taken as a whole that writes register `rd` (R140 to R144): register `rd` may
change, `fetchPtr` becomes `pc + 1`, every other register, every memory cell and every other field is as before. -/
def writesOnlyRegister (s t : State) (rd : RegIdx) : Prop :=
  (∀ r, r ≠ rd → readReg t r = readReg s r) ∧ (∀ a, readCell t a = readCell s a) ∧
  t = { s with rf := t.rf, fetchPtr := s.fetchPtr + 1 }

/-- The frame of an instruction taken as a whole that stores to cell `a` (R145): cell `a` may change, `fetchPtr`
becomes `pc + 1`, every other cell, every register and every other field is as before. -/
def writesOnlyCell (s t : State) (a : Word) : Prop :=
  (∀ b, b ≠ a → readCell t b = readCell s b) ∧ (∀ r, readReg t r = readReg s r) ∧
  t = { s with mem := t.mem, fetchPtr := s.fetchPtr + 1 }

/-- The slot `q` was decoded from instruction `i` (R28, R31, R117): its decode-derived fields are `i`'s. -/
def decodedFrom (i : Instr) (q : Slot) : Prop :=
  q.opcode = some i.opcode ∧ q.readReg1 = some (readReg1Of i) ∧ q.readReg2 = readReg2Of i ∧
  q.writeReg = writeRegOf i ∧ q.immediate = immediateOf i ∧ q.branchTargetAddress = branchTargetOf i q.pc ∧
  q.signals = some (signalsOf i) ∧ q.decoded = true

/-- The row of the table of 30_encoding R58 an instruction belongs to. -/
def formName : Instr → String
  | .addReg _ _ _ => "ADD register"
  | .addLit _ _ _ => "ADD literal"
  | .subReg _ _ _ => "SUB register"
  | .subLit _ _ _ => "SUB literal"
  | .load _ _ _ => "LOAD"
  | .store _ _ _ => "STORE"
  | .branchNotZero _ _ => "BRANCH_NOT_ZERO"

/-- The slot still is as the IF1 phase created it, from the image (R34, R39(c), R92). -/
def asFetched (img : List InstrWord) (q : Slot) : Bool :=
  q == newSlot q.instr q.pc q.seq && img[q.pc.toNat]? == some q.instr

/-- The slot with its execute-derived and memory-derived fields and `stallPending` cleared. -/
def decodePart (q : Slot) : Slot :=
  { q with opVal1 := none, opVal2 := none, aluResult := none, isZero := none, memoryDatum := none,
           stallPending := false }

/-- The slot's word is legal and its decode-derived fields and signals are those of the word (R28, R31, R39(c),
R117, R123). -/
def asDecoded (img : List InstrWord) (q : Slot) : Bool :=
  match decode q.instr with
  | .error _ => false
  | .ok i => decodePart q == decodeSlot i (newSlot q.instr q.pc q.seq) && img[q.pc.toNat]? == some q.instr

/-- A slot in `lat.id`: decoded, not executed (R33). -/
def inDecode (img : List InstrWord) (q : Slot) : Bool :=
  asDecoded img q && { q with stallPending := false } == decodePart q

/-- R39(d) and R39(e) for a slot in `lat.ex` or beyond. -/
def asExecuted (img : List InstrWord) (q : Slot) : Bool :=
  asDecoded img q && !q.stallPending && q.opVal1.isSome && (q.readReg2.isNone || q.opVal2.isSome)
    && (if q.opcode == some .branchNotZero then q.isZero.isSome else q.aluResult.isSome)

/-- R39(f) for a slot in `lat.mem1` or beyond. -/
def asAccessed (img : List InstrWord) (q : Slot) : Bool :=
  asExecuted img q && (q.opcode != some .load || q.memoryDatum.isSome)

/-- R39(b): the occupied positions of a list, from the youngest, have strictly decreasing sequence numbers, all
below `bound` and none below `SEQ_BASE`. -/
def seqsDescend : Nat → List (Option Slot) → Bool
  | _, [] => true
  | bound, none :: rest => seqsDescend bound rest
  | bound, some q :: rest => decide (q.seq < bound) && decide (Config.seqBase ≤ q.seq) && seqsDescend q.seq rest

/-- The latches from the least to the most advanced. -/
def Latches.toList (lat : Latches) : List (Option Slot) :=
  [lat.if1, lat.if2, lat.id, lat.ex, lat.mem1, lat.mem2, lat.mem3]

/-- The invariants of the state between cycles: R39, with the canonical forms of the maps, the limit on the image
(R6), the range of `fetchPtr` (R24) and what makes the stall policy sufficient (R105). -/
structure Inv (s : State) : Prop where
  /-- Between cycles. -/
  atRest : s.phase = .atRest
  /-- R21. -/
  rfCanonical : RegFile.wf s.rf = true
  /-- R40. -/
  memCanonical : Memory.wf s.mem = true
  /-- R6, R24. -/
  imageLimit : imageWellFormed s.img = true
  /-- R39(c), the fetch latches. -/
  fetched1 : s.lat.if1.all (asFetched s.img) = true
  fetched2 : s.lat.if2.all (asFetched s.img) = true
  /-- R39(c), `lat[ID]`. -/
  decodedId : s.lat.id.all (inDecode s.img) = true
  /-- R39(d), R39(e). -/
  executedEx : s.lat.ex.all (asExecuted s.img) = true
  /-- R39(f). -/
  accessed1 : s.lat.mem1.all (asAccessed s.img) = true
  accessed2 : s.lat.mem2.all (asAccessed s.img) = true
  accessed3 : s.lat.mem3.all (asAccessed s.img) = true
  /-- R39(b), R39(a), R39(g). -/
  ordered : seqsDescend s.seqNext s.lat.toList = true
  seqStart : Config.seqBase ≤ s.seqNext
  /-- R105: a slot that will execute in the next cycle reads no register of the LOAD that will be in MEM1. -/
  stallSound : s.lat.id.all (fun q => q.stallPending || !loadFeeds s.lat.ex q) = true
  /-- R39(h), R98. -/
  finishedEmpty : s.finished = true → s.lat = Latches.empty ∧ s.eop = true
  /-- R150: after a fatal condition `finished` stays 0. -/
  oneEnd : s.fault.isSome = true → s.finished = false
  /-- R24: without a fatal condition `signed(fetchPtr)` is not negative. -/
  pointer : s.fault = none → 0 ≤ s.fetchPtr.toInt

end Sys2Proof.Machine
end

