-- ==== Sys2Proof/Certificates/Slice0/Obligations.lean ====
section
/-! DEFINITION. The statements. Each docstring says which rule of spec/ it formalises; OBLIGATIONS.json holds the
titles, tiers and quotes. -/

open Sys2Proof Sys2Proof.Machine

/-! ### Encoding -/

/-- Decode and encode agree on every instruction, with every operand at every value (R58, R59). -/
def Obligations.DecodeOfEncodeIsIdentity : Prop :=
  ∀ i : Instr, decode (encode i) = .ok i ∧ decodeTableWord 64 (encode i).toNat = some i

/-- R59: word to record, field by field, and the bijection between legal words, instructions and well-formed
records. -/
def Obligations.LegalWordsAndRecordsCorrespond : Prop :=
  (∀ (w : InstrWord) (i : Instr), decode w = .ok i →
    opcodeOfNumber (fieldOp w) = some i.opcode ∧
    i.toRecord.destReg = (if i.opcode = .add ∨ i.opcode = .sub then some (fieldRd w) else none) ∧
    i.toRecord.sourceReg1 = some (fieldRs w) ∧
    i.toRecord.sourceReg2 =
      (if ((i.opcode = .add ∨ i.opcode = .sub) ∧ fieldL w = 0) ∨ i.opcode = .load ∨ i.opcode = .store
       then some (fieldRt w) else none) ∧
    immediateOf i =
      (if ((i.opcode = .add ∨ i.opcode = .sub) ∧ fieldL w = 1) ∨ i.opcode = .load ∨ i.opcode = .store ∨
          i.opcode = .branchNotZero
       then some (sext32 (fieldImm w)) else none)) ∧
  (∀ (w : InstrWord) (i : Instr), decode w = .ok i ↔ encode i = w) ∧
  (∀ r : Record, r.wellFormed = true ↔ ∃ i : Instr, i.toRecord = r) ∧
  (∀ i j : Instr, i.toRecord = j.toRecord → i = j)

/-- R58: the legal words are those of exactly one of the seven forms of its table, and the decoder reads from a
word the instruction of its form. -/
def Obligations.LegalWordsAreOfExactlyOneForm : Prop :=
  ∀ w : InstrWord,
    ((∃ i, decode w = .ok i) ↔ ∃ f ∈ wordForms, f.accepts w = true) ∧
    (∀ f ∈ wordForms, ∀ g ∈ wordForms, f.accepts w = true → g.accepts w = true → f = g) ∧
    (∀ i, decode w = .ok i → ∀ f ∈ wordForms, f.accepts w = true → f.name = formName i)

/-- R66: the four kinds of illegal word are refused, and no other word is. -/
def Obligations.IllegalWordsHaveNoInstruction : Prop :=
  ∀ w : InstrWord,
    (∃ e, decode w = .error e) ↔
      (5 ≤ (fieldOp w).toNat ∨
       fieldZero w ≠ 0 ∨
       (fieldL w = 1 ∧ 2 ≤ (fieldOp w).toNat ∧ (fieldOp w).toNat ≤ 4) ∨
       ((fieldOp w).toNat ≤ 1 ∧ fieldL w = 0 ∧ fieldImm w ≠ 0) ∨
       ((fieldOp w).toNat ≤ 1 ∧ fieldL w = 1 ∧ fieldRt w ≠ 0) ∨
       (2 ≤ (fieldOp w).toNat ∧ fieldRd w ≠ 0) ∨
       ((fieldOp w).toNat = 4 ∧ fieldRt w ≠ 0))

/-- The words 95_test_vectors V20 writes out, one of each form, and the extremes of the fields. -/
def Obligations.WrittenOutWordsDecode : Prop :=
  decode 0x0001020300000000#64 = .ok (.addReg 1 2 3) ∧
  decode 0x0801000000000005#64 = .ok (.addLit 1 0 5) ∧
  decode 0x1004010500000000#64 = .ok (.subReg 4 1 5) ∧
  decode 0x18010100FFFFFFF6#64 = .ok (.subLit 1 1 (-10)) ∧
  decode 0x2000000200000064#64 = .ok (.load 2 0 100) ∧
  decode 0x3000000200000068#64 = .ok (.store 2 0 104) ∧
  decode 0x40000100FFFFFFFE#64 = .ok (.branchNotZero 1 (-2)) ∧
  decode 0x00FFFFFF00000000#64 = .ok (.addReg 255 255 255) ∧
  decode 0x0000000000000000#64 = .ok (.addReg 0 0 0)

/-- R64, R118: the immediate the host computes for a branch brings the branch's own `pc` to its label. -/
def Obligations.LabelDistanceReachesTheLabel : Prop :=
  ∀ branch target : Nat, branch < Config.imageLimit → target < Config.imageLimit →
    branchTargetOf (.branchNotZero 0 (labelDistance target branch)) (BitVec.ofNat 32 branch)
      = some (BitVec.ofNat 32 target)

/-! ### Reset and loading -/

/-- R38: the state after reset with a host's image. -/
def Obligations.StateAfterReset : Prop :=
  ∀ (regs : List (RegIdx × Word)) (cells : List (Word × Word)) (img : List InstrWord) (s : State),
    boot regs cells img = some s →
      (∀ i v, readReg s i = some v ↔ (i, v) ∈ regs) ∧
      (∀ i, readReg s i = none ↔ ∀ v, (i, v) ∉ regs) ∧
      (∀ a v, readCell s a = some v ↔ (a, v) ∈ cells) ∧
      (∀ a, readCell s a = none ↔ ∀ v, (a, v) ∉ cells) ∧
      s.img = img ∧
      s.lat.if1 = none ∧ s.lat.if2 = none ∧ s.lat.id = none ∧ s.lat.ex = none ∧ s.lat.mem1 = none ∧
      s.lat.mem2 = none ∧ s.lat.mem3 = none ∧
      s.fetchPtr = 0 ∧ s.seqNext = 1 ∧ s.cycle = 0 ∧ s.eop = false ∧ s.finished = false ∧ s.fault = none

/-- R174(c), R174(d), U10: an image is refused exactly when a register or an address appears twice or it has too
many words. That the refusal is an empty answer of `boot` is the model's form (log 11). -/
def Obligations.BootRefusesDuplicatesAndLongImages : Prop :=
  ∀ (regs : List (RegIdx × Word)) (cells : List (Word × Word)) (img : List InstrWord),
    boot regs cells img = none ↔
      (¬ (regs.map (·.1)).Nodup ∨ ¬ (cells.map (·.1)).Nodup ∨ 2 ^ 31 ≤ img.length)

/-- R170: reset in any state. The terminal states are left by it and by nothing else. -/
def Obligations.ResetKeepsWhatTheHostLoaded : Prop :=
  ∀ s : State,
    (applyReset s).rf = s.rf ∧ (applyReset s).mem = s.mem ∧ (applyReset s).img = s.img ∧
    (applyReset s).lat = Latches.empty ∧ (applyReset s).fetchPtr = 0 ∧ (applyReset s).seqNext = Config.seqBase ∧
    (applyReset s).cycle = 0 ∧ (applyReset s).eop = false ∧ (applyReset s).finished = false ∧
    (applyReset s).fault = none ∧ cycleNumber (applyReset s) = 1 ∧
    ((s.finished = true ∨ s.fault ≠ none) → ∀ k, runFor k s = .next s)

/-- R171, R39: the invariants hold right after reset with nothing loaded. -/
def Obligations.InvariantHoldsAtReset : Prop := Inv State.reset

/-- R39: the invariants hold right after reset with any image the host may load. -/
def Obligations.InvariantHoldsAfterBoot : Prop :=
  ∀ (regs : List (RegIdx × Word)) (cells : List (Word × Word)) (img : List InstrWord) (s : State),
    boot regs cells img = some s → Inv s

/-- R172, R98: the empty program takes one cycle and reports nothing. -/
def Obligations.EmptyProgramTakesOneCycle : Prop :=
  ∀ (regs : List (RegIdx × Word)) (cells : List (Word × Word)) (s : State),
    boot regs cells [] = some s →
      step s = .next { s with eop := true, finished := true, cycle := 1 }

/-! ### The whole machine -/

/-- R39 (b) to (f), (h), with R24, R105 and the canonical forms: every step keeps the invariants, from every state
that satisfies them. -/
def Obligations.StepKeepsTheInvariant : Prop :=
  ∀ s t : State, Inv s → step s = .next t → Inv t

/-- From every state that satisfies the invariants a step answers a next state: the model's own stops (log 9)
never arise. -/
def Obligations.StepAlwaysAnswers : Prop :=
  ∀ s : State, Inv s → ∃ t, step s = .next t

/-- R95: a clock cycle computes exactly what the spec's pseudocode of the step says. -/
def Obligations.CycleIsThePseudocode : Prop :=
  ∀ s : State, Inv s → step s = .next (r95Step s)

/-- R186, first half: a run of the pipeline level that ends without a fault leaves the registers and the memory the
sequential level leaves, and retires what it executes, in the same order. -/
def Obligations.PipelineAgreesWithSequentialLevel : Prop :=
  ∀ (regs : List (RegIdx × Word)) (cells : List (Word × Word)) (img : List InstrWord) (s t : State) (k : Nat),
    boot regs cells img = some s → runFor k s = .next t → completed t = true →
      ∃ n u, seqRun n s = .next u ∧ completed u = true ∧ u.rf = t.rf ∧ u.mem = t.mem ∧
        executedBy n s = retiredBy k s

/-- R186, second half: when every word of the image is legal, the two levels report the same fatal condition or
none. -/
def Obligations.LevelsAgreeOnTheFault : Prop :=
  ∀ (regs : List (RegIdx × Word)) (cells : List (Word × Word)) (img : List InstrWord) (s : State)
    (f : FatalCondition),
    boot regs cells img = some s → allLegal img = true →
      ((∃ k t, runFor k s = .next t ∧ t.fault = some f) ↔
       (∃ n u, seqRun n s = .next u ∧ u.fault = some f))

/-- R185(d): the number of cycles of a run without a fault that executes at least one instruction. -/
def Obligations.CycleCountFormula : Prop :=
  ∀ (regs : List (RegIdx × Word)) (cells : List (Word × Word)) (img : List InstrWord) (s t : State) (k : Nat),
    boot regs cells img = some s → runFor k s = .next t → completed t = true → 1 ≤ (tally k s).executed →
      t.cycle = (tally k s).executed + (tally k s).stalls + 2 * (tally k s).taken + 7

/-- R138, R140 to R147: an instruction alone in the image, which as a whole raises nothing and goes to an index past
it, takes eight cycles and leaves exactly its architectural effect. -/
def Obligations.LoneInstructionHasItsWholeEffect : Prop :=
  ∀ (i : Instr) (regs : List (RegIdx × Word)) (cells : List (Word × Word)) (s t : State),
    boot regs cells [encode i] = some s → exec i s = .next t → t.fault = none → 1 ≤ t.fetchPtr.toInt →
      ∃ u, runFor 8 s = .next u ∧ completed u = true ∧ u.cycle = 8 ∧ u.rf = t.rf ∧ u.mem = t.mem

/-- A step runs the decoded instruction: in each phase of a cycle in which an instruction has work, what runs is
`exec` of the instruction the slot's word decodes to; around it stand the other phases of R95. -/
def Obligations.StepRunsTheDecodedInstruction : Prop :=
  ∀ (s : State) (q : Slot) (i : Instr), decode q.instr = .ok i →
    (terminal s = false → s.lat.id = some q → q.stallPending = false →
      step s = settle s (andThen (backPhases s) fun s1 =>
        andThen (exec i { s1 with phase := .ex }) fun s2 =>
          andThen (frontPhases s2) fun s3 => .next (endOfCycle false s.lat.mem3 s3))) ∧
    (s.lat.mem3 = some q → wbPhase s = exec i { s with phase := .wb }) ∧
    (s.lat.ex = some q → mem1Phase s = exec i { s with phase := .mem1 }) ∧
    (s.lat.if2 = some q → idPhase s = exec i { s with phase := .id }) ∧
    (s.lat.ex = some q → branchPhase s = exec i { s with phase := .if1 })

/-- The sequential level runs the decoded instruction (R186): the word at `fetchPtr`, as a whole. -/
def Obligations.SequentialStepRunsTheDecodedInstruction : Prop :=
  ∀ (s : State) (w : InstrWord) (i : Instr),
    terminal s = false → imageAt s s.fetchPtr = some w → decode w = .ok i →
      seqStep s = exec i { s with phase := .atRest }

/-- The model's choice (log 7): a word placed by `withFetchWord` into a machine with nothing ahead of it is executed
by the very next step. -/
def Obligations.PlacedWordRunsInTheNextStep : Prop :=
  ∀ (s : State) (w : Nat) (i : Instr), drained s.lat = true → decodeTableWord 64 w = some i →
    step (s.withFetchWord 64 w) =
      settle (s.withFetchWord 64 w)
        (andThen (exec i { s.withFetchWord 64 w with phase := .ex }) fun s2 =>
          andThen (frontPhases s2) fun s3 => .next (endOfCycle false none s3))

/-- R34, R52: no cycle changes the program image. -/
def Obligations.ImageIsImmutable : Prop :=
  ∀ s t : State, step s = .next t → t.img = s.img

/-- R23, R41: a cycle changes a register only by the write-back of the slot in WB to that slot's `writeReg`, and a
memory cell only by the store of the slot in MEM1 to that slot's effective address. -/
def Obligations.OnlyWritebackAndMem1Write : Prop :=
  ∀ s t : State, step s = .next t →
    (∀ r, readReg t r ≠ readReg s r →
      ∃ q, s.lat.mem3 = some q ∧ q.registerWriteEnabled = true ∧ q.writeReg = some r) ∧
    (∀ a, readCell t a ≠ readCell s a →
      ∃ q, s.lat.ex = some q ∧ q.memoryWriteEnabled = true ∧ q.aluResult = some a)

/-- R96, R98: the end of a cycle that raises nothing. -/
def Obligations.EndOfCycleCountsAndFinishes : Prop :=
  ∀ s t : State, terminal s = false → step s = .next t → t.fault = none →
    t.cycle = s.cycle + 1 ∧
    (t.finished = true ↔ (t.eop = true ∧ t.lat.if1 = none ∧ t.lat.if2 = none ∧ t.lat.id = none ∧
      t.lat.ex = none ∧ t.lat.mem1 = none ∧ t.lat.mem2 = none ∧ t.lat.mem3 = none))

/-- R97: the stage report of a cycle that raises nothing, least advanced stage first. -/
def Obligations.ReportListsTheOccupiedStages : Prop :=
  ∀ s t : State, terminal s = false → step s = .next t → t.fault = none →
    t.report =
      ([(StageToken.IF1, t.lat.if1), (StageToken.IF2, t.lat.if2),
        (if s.lat.id.any (·.stallPending) then StageToken.stall else StageToken.ID, t.lat.id),
        (StageToken.EX, t.lat.ex), (StageToken.MEM1, t.lat.mem1), (StageToken.MEM2, t.lat.mem2),
        (StageToken.MEM3, t.lat.mem3), (StageToken.WB, s.lat.mem3)]).filterMap
        fun p => p.2.map fun q => ReportEntry.mk q.seq p.1

/-- R150, R151: a cycle that raises a fatal condition leaves the latches, `seqNext`, `eop`, `cycle` and `finished`
as it found them, and no later cycle changes anything. -/
def Obligations.FatalConditionStopsTheEngine : Prop :=
  ∀ s t : State, terminal s = false → step s = .next t → t.fault ≠ none →
    t.lat = s.lat ∧ t.seqNext = s.seqNext ∧ t.eop = s.eop ∧ t.cycle = s.cycle ∧ t.finished = false ∧
    ∀ k, runFor k t = .next t

/-! ### Instructions as a whole: the architectural effects -/

/-- R140, R141, R139: ADD as a whole, both forms: `rd` holds the sum modulo `2^32`, nothing else but the pc
changes. -/
def Obligations.AddWholeEffect : Prop :=
  ∀ (s : State) (rd rs rt : RegIdx) (imm : Imm) (a b : Word), s.phase = .atRest → readReg s rs = some a →
    (readReg s rt = some b →
      ∃ t v, exec (.addReg rd rs rt) s = .next t ∧ readReg t rd = some v ∧
        v.toNat = (a.toNat + b.toNat) % 2 ^ 32 ∧ writesOnlyRegister s t rd) ∧
    (∃ t v, exec (.addLit rd rs imm) s = .next t ∧ readReg t rd = some v ∧
        (v.toNat : Int) = ((a.toNat : Int) + imm.toInt) % 2 ^ 32 ∧ writesOnlyRegister s t rd)

/-- R142, R143, R139: SUB as a whole, both forms: `rd` holds first source minus second, modulo `2^32`, nothing else
but the pc changes. -/
def Obligations.SubWholeEffect : Prop :=
  ∀ (s : State) (rd rs rt : RegIdx) (imm : Imm) (a b : Word), s.phase = .atRest → readReg s rs = some a →
    (readReg s rt = some b →
      ∃ t v, exec (.subReg rd rs rt) s = .next t ∧ readReg t rd = some v ∧
        (v.toNat : Int) = ((a.toNat : Int) - (b.toNat : Int)) % 2 ^ 32 ∧ writesOnlyRegister s t rd) ∧
    (∃ t v, exec (.subLit rd rs imm) s = .next t ∧ readReg t rd = some v ∧
        (v.toNat : Int) = ((a.toNat : Int) - imm.toInt) % 2 ^ 32 ∧ writesOnlyRegister s t rd)

/-- R144, R42: LOAD as a whole: `rt` holds the cell at base plus offset modulo `2^32`, or `MemoryAbsent` is raised
when there is none and nothing else changes. -/
def Obligations.LoadWholeEffect : Prop :=
  ∀ (s : State) (rt rs : RegIdx) (imm : Imm) (base a : Word), s.phase = .atRest → readReg s rs = some base →
    (a.toNat : Int) = ((base.toNat : Int) + imm.toInt) % 2 ^ 32 →
    (∀ v, readCell s a = some v →
      ∃ t, exec (.load rt rs imm) s = .next t ∧ readReg t rt = some v ∧ writesOnlyRegister s t rt) ∧
    (readCell s a = none →
      exec (.load rt rs imm) s = .next { s with fault := some (.memoryAbsent a) })

/-- R145, R43: STORE as a whole: the cell at base plus offset modulo `2^32` holds the whole word of `rt`, whether or
not it was present before, and nothing else but the pc changes. -/
def Obligations.StoreWholeEffect : Prop :=
  ∀ (s : State) (rt rs : RegIdx) (imm : Imm) (base v : Word), s.phase = .atRest → readReg s rs = some base →
    readReg s rt = some v →
      ∃ t, exec (.store rt rs imm) s = .next t ∧
        ∀ a, a = effectiveAddress base imm →
          (a.toNat : Int) = ((base.toNat : Int) + imm.toInt) % 2 ^ 32 ∧
          readCell t a = some v ∧ writesOnlyCell s t a

/-- R147: BRANCH_NOT_ZERO as a whole: relative to its own index when any bit of the register is set, else on to the
next instruction; nothing else changes. -/
def Obligations.BranchWholeEffect : Prop :=
  ∀ (s : State) (rs : RegIdx) (imm : Imm) (a : Word), s.phase = .atRest → readReg s rs = some a →
    ∃ t, exec (.branchNotZero rs imm) s = .next t ∧ t = { s with fetchPtr := t.fetchPtr } ∧
      (∀ r, readReg t r = readReg s r) ∧ (∀ x, readCell t x = readCell s x) ∧
      (a.toNat = 0 → (t.fetchPtr.toNat : Int) = ((s.fetchPtr.toNat : Int) + 1) % 2 ^ 32) ∧
      (a.toNat ≠ 0 → (t.fetchPtr.toNat : Int) = ((s.fetchPtr.toNat : Int) + imm.toInt) % 2 ^ 32)

/-- R140 to R147, R154: an instruction taken as a whole that reads an absent register raises `RegisterAbsent` for it,
`readReg1` before `readReg2`, and changes nothing else. -/
def Obligations.AbsentRegisterRaisesAsAWhole : Prop :=
  ∀ (s : State) (i : Instr), s.phase = .atRest →
    (readReg s (readReg1Of i) = none →
      exec i s = .next { s with fault := some (.registerAbsent (readReg1Of i)) }) ∧
    (∀ a r, readReg s (readReg1Of i) = some a → readReg2Of i = some r → readReg s r = none →
      exec i s = .next { s with fault := some (.registerAbsent r) })

/-! ### Instructions in the phases of the cycle -/

/-- R117 to R121: the ID phase fills the slot as the tables say, for every form, and changes nothing else. -/
def Obligations.DecodePhaseFillsTheSlot : Prop :=
  ∀ (i : Instr) (s : State) (q : Slot), s.phase = .id → s.lat.if2 = some q →
    ∃ d : Slot,
      exec i s = .next { s with lat := { s.lat with id := some d, if2 := none } } ∧
      d.instr = q.instr ∧ d.seq = q.seq ∧ d.pc = q.pc ∧ d.opVal1 = q.opVal1 ∧ d.opVal2 = q.opVal2 ∧
      d.aluResult = q.aluResult ∧ d.isZero = q.isZero ∧ d.memoryDatum = q.memoryDatum ∧ d.decoded = true ∧
      d.branchTargetAddress = d.immediate.map (q.pc + ·) ∧
      d.stallPending = hazard d s.lat.ex s.lat.mem1 ∧
      (match i with
        | .addReg rd rs rt =>
          d.opcode = some .add ∧ d.readReg1 = some rs ∧ d.readReg2 = some rt ∧ d.writeReg = some rd ∧
          d.immediate = none ∧ d.signals = some ⟨.dest, true, true, false, false, .alu, false⟩
        | .addLit rd rs imm =>
          d.opcode = some .add ∧ d.readReg1 = some rs ∧ d.readReg2 = none ∧ d.writeReg = some rd ∧
          d.immediate = some (sext32 imm) ∧ d.signals = some ⟨.dest, true, false, false, false, .alu, false⟩
        | .subReg rd rs rt =>
          d.opcode = some .sub ∧ d.readReg1 = some rs ∧ d.readReg2 = some rt ∧ d.writeReg = some rd ∧
          d.immediate = none ∧ d.signals = some ⟨.dest, true, true, false, false, .alu, false⟩
        | .subLit rd rs imm =>
          d.opcode = some .sub ∧ d.readReg1 = some rs ∧ d.readReg2 = none ∧ d.writeReg = some rd ∧
          d.immediate = some (sext32 imm) ∧ d.signals = some ⟨.dest, true, false, false, false, .alu, false⟩
        | .load rt rs imm =>
          d.opcode = some .load ∧ d.readReg1 = some rs ∧ d.readReg2 = none ∧ d.writeReg = some rt ∧
          d.immediate = some (sext32 imm) ∧ d.signals = some ⟨.second, true, false, false, true, .memory, false⟩
        | .store rt rs imm =>
          d.opcode = some .store ∧ d.readReg1 = some rs ∧ d.readReg2 = some rt ∧ d.writeReg = none ∧
          d.immediate = some (sext32 imm) ∧ d.signals = some ⟨.na, false, false, true, false, .na, false⟩
        | .branchNotZero rs imm =>
          d.opcode = some .branchNotZero ∧ d.readReg1 = some rs ∧ d.readReg2 = none ∧ d.writeReg = none ∧
          d.immediate = some (sext32 imm) ∧ d.signals = some ⟨.na, false, false, false, false, .na, true⟩)

/-- R119: the destination selector, its value for each opcode, and what it picks. -/
def Obligations.DestinationSelectorPicksWriteReg : Prop :=
  ∀ i : Instr,
    ((signalsOf i).destRegisterIsSecondSource = .dest → writeRegOf i = i.toRecord.destReg) ∧
    ((signalsOf i).destRegisterIsSecondSource = .second → writeRegOf i = i.toRecord.sourceReg2) ∧
    ((signalsOf i).destRegisterIsSecondSource = .na → writeRegOf i = none) ∧
    ((signalsOf i).registerWriteEnabled = (writeRegOf i).isSome) ∧
    (match i with
      | .addReg rd _ _ => (signalsOf i).destRegisterIsSecondSource = .dest ∧ writeRegOf i = some rd
      | .addLit rd _ _ => (signalsOf i).destRegisterIsSecondSource = .dest ∧ writeRegOf i = some rd
      | .subReg rd _ _ => (signalsOf i).destRegisterIsSecondSource = .dest ∧ writeRegOf i = some rd
      | .subLit rd _ _ => (signalsOf i).destRegisterIsSecondSource = .dest ∧ writeRegOf i = some rd
      | .load rt _ _ => (signalsOf i).destRegisterIsSecondSource = .second ∧ writeRegOf i = some rt
      | .store _ _ _ => (signalsOf i).destRegisterIsSecondSource = .na ∧ writeRegOf i = none
      | .branchNotZero _ _ => (signalsOf i).destRegisterIsSecondSource = .na ∧ writeRegOf i = none)

/-- R87, R88, R131: the EX phase of a slot whose operands the forwarding unit delivers: the operands are latched, the
result of the opcode is computed, the slot moves to `lat[EX]`, and nothing else changes. -/
def Obligations.ExecutePhaseComputes : Prop :=
  ∀ (i : Instr) (s : State) (q : Slot) (a b : Word), s.phase = .ex → s.lat.id = some q → decodedFrom i q →
    fwd s (readReg1Of i) = .value a → (∀ r, readReg2Of i = some r → fwd s r = .value b) →
    ∃ q' : Slot,
      exec i s = .next { s with lat := { s.lat with ex := some q', id := none } } ∧
      q' = { q with opVal1 := q'.opVal1, opVal2 := q'.opVal2, aluResult := q'.aluResult, isZero := q'.isZero } ∧
      q'.opVal1 = some a ∧
      q'.opVal2 = (if (readReg2Of i).isSome then some b else q.opVal2) ∧
      (match i with
        | .addReg _ _ _ => q'.aluResult = some (a + b) ∧ q'.isZero = q.isZero
        | .addLit _ _ imm => q'.aluResult = some (a + sext32 imm) ∧ q'.isZero = q.isZero
        | .subReg _ _ _ => q'.aluResult = some (a - b) ∧ q'.isZero = q.isZero
        | .subLit _ _ imm => q'.aluResult = some (a - sext32 imm) ∧ q'.isZero = q.isZero
        | .load _ _ imm => q'.aluResult = some (a + sext32 imm) ∧ q'.isZero = q.isZero
        | .store _ _ imm => q'.aluResult = some (a + sext32 imm) ∧ q'.isZero = q.isZero
        | .branchNotZero _ _ => q'.isZero = some (decide (a.toNat = 0)) ∧ q'.aluResult = q.aluResult)

/-- R154: the EX phase raises `RegisterAbsent` for an operand that neither a producer nor the register file supplies,
`readReg1` before `readReg2`, for every instruction. -/
def Obligations.ExecutePhaseRaisesRegisterAbsent : Prop :=
  ∀ (i : Instr) (s : State) (q : Slot), s.phase = .ex → s.lat.id = some q → decodedFrom i q →
    (fwd s (readReg1Of i) = .absent →
      exec i s = .next { s with fault := some (.registerAbsent (readReg1Of i)) }) ∧
    (∀ a r, fwd s (readReg1Of i) = .value a → readReg2Of i = some r → fwd s r = .absent →
      exec i s = .next { s with fault := some (.registerAbsent r) })

/-- R84, R42, R43, R155: the MEM1 phase: a LOAD reads its cell or raises `MemoryAbsent`, a STORE writes its cell,
the others do nothing; the slot moves to `lat[MEM1]`; every other cell and every other field is as before. -/
def Obligations.Mem1PhaseAccessesMemory : Prop :=
  ∀ (i : Instr) (s : State) (q : Slot), s.phase = .mem1 → s.lat.ex = some q → decodedFrom i q →
    (match i with
      | .load _ _ _ =>
        ∀ a, q.aluResult = some a →
          (∀ v, readCell s a = some v →
            exec i s = .next
              { s with lat := { s.lat with mem1 := some { q with memoryDatum := some v }, ex := none } }) ∧
          (readCell s a = none → exec i s = .next { s with fault := some (.memoryAbsent a) })
      | .store _ _ _ =>
        ∀ a v, q.aluResult = some a → q.opVal2 = some v →
          ∃ t, exec i s = .next t ∧ readCell t a = some v ∧ (∀ x, x ≠ a → readCell t x = readCell s x) ∧
            t = { s with mem := t.mem, lat := { s.lat with mem1 := some q, ex := none } }
      | _ => exec i s = .next { s with lat := { s.lat with mem1 := some q, ex := none } })

/-- R82: the WB phase: ADD, SUB and LOAD write their result to their destination register, STORE and
BRANCH_NOT_ZERO write nothing; the slot is retired; every other register and every other field is as before. -/
def Obligations.WritebackPhaseWritesTheResult : Prop :=
  ∀ (i : Instr) (s : State) (q : Slot) (v : Word), s.phase = .wb → s.lat.mem3 = some q → decodedFrom i q →
    (if i.opcode = .load then q.memoryDatum else q.aluResult) = some v →
    ∃ t, exec i s = .next t ∧ (∀ x, readCell t x = readCell s x) ∧
      t = { s with rf := t.rf, lat := { s.lat with mem3 := none } } ∧
      (match i with
        | .addReg rd _ _ => readReg t rd = some v ∧ ∀ r, r ≠ rd → readReg t r = readReg s r
        | .addLit rd _ _ => readReg t rd = some v ∧ ∀ r, r ≠ rd → readReg t r = readReg s r
        | .subReg rd _ _ => readReg t rd = some v ∧ ∀ r, r ≠ rd → readReg t r = readReg s r
        | .subLit rd _ _ => readReg t rd = some v ∧ ∀ r, r ≠ rd → readReg t r = readReg s r
        | .load rt _ _ => readReg t rt = some v ∧ ∀ r, r ≠ rt → readReg t r = readReg s r
        | .store _ _ _ => ∀ r, readReg t r = readReg s r
        | .branchNotZero _ _ => ∀ r, readReg t r = readReg s r)

/-- R82: a STORE or a BRANCH_NOT_ZERO is retired whatever its result fields hold. -/
def Obligations.WritebackPhaseRetiresWithoutResult : Prop :=
  ∀ (i : Instr) (s : State) (q : Slot), s.phase = .wb → s.lat.mem3 = some q → decodedFrom i q →
    (i.opcode = .store ∨ i.opcode = .branchNotZero) →
    exec i s = .next { s with lat := { s.lat with mem3 := none } }

/-- R91, R131 to R134: the branch evaluation of the IF1 phase: a BRANCH_NOT_ZERO whose operand was not zero empties
ID and IF2 and redirects the fetch pointer to its own `pc` plus its immediate; every other slot changes nothing. -/
def Obligations.BranchEvaluationSquashesAndRedirects : Prop :=
  ∀ (i : Instr) (s : State) (q : Slot), s.phase = .if1 → s.lat.ex = some q → decodedFrom i q →
    (match i with
      | .branchNotZero _ imm =>
        (q.isZero = some false →
          exec i s = .next { s with
            fetchPtr := q.pc + sext32 imm, lat := { s.lat with id := none, if2 := none } }) ∧
        (q.isZero = some true → exec i s = .next s)
      | _ => exec i s = .next s)

/-! ### Fetch, hazards, forwarding, stalls, faults -/

/-- R92, R94, R156: the fetch of the IF1 phase in its three cases. -/
def Obligations.FetchPhaseCases : Prop :=
  ∀ s : State,
    (s.fetchPtr.toInt < 0 → fetch s = .next { s with fault := some (.fetchOutOfRange s.fetchPtr) }) ∧
    (0 ≤ s.fetchPtr.toInt → s.fetchPtr.toInt < (imageLength s : Int) →
      ∃ w, imageAt s s.fetchPtr = some w ∧
        ∃ q : Slot, q = ⟨w, s.seqNext, s.fetchPtr, none, none, none, none, none, none, none, none, none, none, none, none,
            false, false⟩ ∧
          fetch s = .next { s with lat := { s.lat with if1 := some q }, seqNext := s.seqNext + 1,
                                   fetchPtr := s.fetchPtr + 1, eop := false }) ∧
    ((imageLength s : Int) ≤ s.fetchPtr.toInt →
      fetch s = .next { s with lat := { s.lat with if1 := none }, eop := true })

/-- R102, R101: the hazard check sees exactly a LOAD in EX or MEM1 whose destination is a present read register, and
the ID phase leaves its finding in `stallPending`. -/
def Obligations.HazardCheckFindsLoadsInExAndMem1 : Prop :=
  ∀ (q : Slot) (e m1 : Option Slot),
    (hazard q e m1 = true ↔
      ∃ p r, (e = some p ∨ m1 = some p) ∧ p.opcode = some .load ∧ p.writeReg = some r ∧
        (q.readReg1 = some r ∨ q.readReg2 = some r)) ∧
    ∀ (i : Instr) (s : State), s.phase = .id → s.lat.if2 = some q → s.lat.ex = e → s.lat.mem1 = m1 →
      ∃ t, exec i s = .next t ∧
        t.lat.id.map (·.stallPending) = some (hazard (decodeSlot i q) e m1)

/-- R106, R108: the forwarding mux: the nearest qualifying producer wins, else the register file. -/
def Obligations.NearestProducerWins : Prop :=
  ∀ (s : State) (r : RegIdx) (v : Word),
    let arith (p : Option Slot) (v : Word) : Prop :=
      ∃ q, p = some q ∧ q.registerWriteEnabled = true ∧ q.writeReg = some r ∧
        (q.opcode = some .add ∨ q.opcode = some .sub) ∧ q.aluResult = some v
    let loaded (p : Option Slot) (v : Word) : Prop :=
      ∃ q, p = some q ∧ q.registerWriteEnabled = true ∧ q.writeReg = some r ∧
        q.opcode = some .load ∧ q.memoryDatum = some v
    let silent (p : Option Slot) (loadsToo : Bool) : Prop :=
      ∀ q, p = some q → q.registerWriteEnabled = true → q.writeReg = some r →
        q.opcode ≠ some .add ∧ q.opcode ≠ some .sub ∧ (loadsToo = true → q.opcode ≠ some .load)
    (arith s.lat.mem1 v → fwd s r = .value v) ∧
    (silent s.lat.mem1 false → (arith s.lat.mem2 v ∨ loaded s.lat.mem2 v) → fwd s r = .value v) ∧
    (silent s.lat.mem1 false → silent s.lat.mem2 true → (arith s.lat.mem3 v ∨ loaded s.lat.mem3 v) →
      fwd s r = .value v) ∧
    (silent s.lat.mem1 false → silent s.lat.mem2 true → silent s.lat.mem3 true →
      fwd s r = match readReg s r with
        | some x => .value x
        | none => .absent)

/-- R105: when a slot executes, no LOAD in MEM1 of that cycle writes a register it reads, and every LOAD in MEM2 or
MEM3 has its datum. -/
def Obligations.StallPolicySuffices : Prop :=
  ∀ (s s1 : State) (q : Slot), Inv s → terminal s = false → backPhases s = .next s1 →
    s1.lat.id = some q → q.stallPending = false →
      (∀ p r, s1.lat.mem1 = some p → p.opcode = some .load → p.writeReg = some r →
        q.readReg1 ≠ some r ∧ q.readReg2 ≠ some r) ∧
      (∀ p, (s1.lat.mem2 = some p ∨ s1.lat.mem3 = some p) → p.opcode = some .load → p.memoryDatum.isSome = true)

/-- R86, R93: the stall cycle. -/
def Obligations.StallCycleFreezesTheFront : Prop :=
  ∀ (s t : State) (q : Slot), Inv s → terminal s = false → s.lat.id = some q → q.stallPending = true →
    step s = .next t → t.fault = none →
      t.lat.id = some { q with stallPending := false } ∧ t.lat.ex = none ∧
      t.lat.if2 = s.lat.if2 ∧ t.lat.if1 = s.lat.if1 ∧
      t.fetchPtr = s.fetchPtr ∧ t.seqNext = s.seqNext ∧ t.eop = s.eop ∧
      t.lat.mem3 = s.lat.mem2 ∧ t.lat.mem2 = s.lat.mem1 ∧
      t.lat.mem1.map (·.seq) = s.lat.ex.map (·.seq) ∧
      ReportEntry.mk q.seq .stall ∈ t.report

/-- R81, R83: in a cycle that is not a stall cycle and raises nothing every slot moves one stage on, but for the two
a taken branch squashes. -/
def Obligations.SlotsMoveOneStageOn : Prop :=
  ∀ s t : State, Inv s → terminal s = false → s.lat.id.any (·.stallPending) = false → step s = .next t →
    t.fault = none →
      t.lat.mem3 = s.lat.mem2 ∧ t.lat.mem2 = s.lat.mem1 ∧
      t.lat.mem1.map (·.seq) = s.lat.ex.map (·.seq) ∧
      t.lat.ex.map (·.seq) = s.lat.id.map (·.seq) ∧
      (if t.lat.ex.any takenBranch then t.lat.id = none ∧ t.lat.if2 = none
       else t.lat.id.map (·.seq) = s.lat.if2.map (·.seq) ∧ t.lat.if2 = s.lat.if1)

/-- R132, R133, R134, R94: a cycle that executes a taken branch and raises nothing leaves ID and IF2 empty, and
fetches at the branch's target or finds the end there; any other cycle that is no stall cycle goes on at
`fetchPtr`. -/
def Obligations.TakenBranchFetchesItsTarget : Prop :=
  ∀ s t : State, Inv s → terminal s = false → s.lat.id.any (·.stallPending) = false → step s = .next t →
    t.fault = none →
      ∃ target, target = (if t.lat.ex.any takenBranch then
          (t.lat.ex.bind fun q => q.immediate.map (q.pc + ·)).getD 0 else s.fetchPtr) ∧
        (match imageAt s target with
          | some w => t.lat.if1 = some (newSlot w target s.seqNext) ∧ t.fetchPtr = target + 1 ∧
              t.seqNext = s.seqNext + 1 ∧ t.eop = false
          | none => t.lat.if1 = none ∧ t.fetchPtr = target ∧ t.seqNext = s.seqNext ∧ t.eop = true) ∧
        (t.lat.ex.any takenBranch = true → t.lat.id = none ∧ t.lat.if2 = none)

/-- R155, R158, R177: a LOAD in MEM1 whose cell is absent raises `MemoryAbsent`, whatever the younger slots hold;
the ports show it. -/
def Obligations.AbsentCellRaisesBeforeAnythingYounger : Prop :=
  ∀ (s : State) (a : Word), Inv s → terminal s = false → dmemReadEnable s = true → dmemAddr s = some a →
    dmemPresent s = false →
      ∃ t, step s = .next t ∧ t.fault = some (.memoryAbsent a) ∧ t.mem = s.mem

/-- R154, R158: when the phases WB to MEM1 raise nothing, an absent operand of the executing slot, the first or, when
the first has a value, the second, raises `RegisterAbsent` for it, whatever word is being decoded or fetched. -/
def Obligations.AbsentRegisterRaisesBeforeAnythingYounger : Prop :=
  ∀ (s s1 : State) (q : Slot), Inv s → terminal s = false → backPhases s = .next s1 →
    s1.fault = none → s1.lat.id = some q → q.stallPending = false →
      (∀ r, q.readReg1 = some r → fwd s1 r = .absent →
        ∃ t, step s = .next t ∧ t.fault = some (.registerAbsent r)) ∧
      (∀ r1 a r2, q.readReg1 = some r1 → fwd s1 r1 = .value a → q.readReg2 = some r2 → fwd s1 r2 = .absent →
        ∃ t, step s = .next t ∧ t.fault = some (.registerAbsent r2))

/-- R116, R153, R158: when the older phases raise nothing, an illegal word that enters ID raises
`IllegalInstruction` with its `pc`, also in the cycle in which a taken branch would have squashed it. -/
def Obligations.IllegalWordRaisesWhenDecoded : Prop :=
  ∀ (s s1 s2 : State) (q : Slot) (e : DecodeError), Inv s → terminal s = false → backPhases s = .next s1 →
    s1.fault = none → s.lat.id.any (·.stallPending) = false → exPhase s1 = .next s2 → s2.fault = none →
    s.lat.if2 = some q → decode q.instr = .error e →
      ∃ t, step s = .next t ∧ t.fault = some (.illegalInstruction q.pc q.instr)

/-- R153: a fatal condition for a word is raised only for an illegal word that is in `lat[IF2]` when the cycle
starts; a word in `lat[IF1]` is harmless. -/
def Obligations.IllegalInstructionOnlyFromDecode : Prop :=
  ∀ (s t : State) (p : Word) (w : InstrWord), terminal s = false → step s = .next t →
    t.fault = some (.illegalInstruction p w) →
      (∃ q, s.lat.if2 = some q ∧ q.pc = p ∧ q.instr = w ∧ ∃ e, decode w = .error e) ∧
      s.lat.id.any (·.stallPending) = false

/-- R156: from a state that satisfies the invariants `FetchOutOfRange` is raised only by a taken branch to a
negative index, after its redirect. -/
def Obligations.FetchOutOfRangeOnlyFromTakenBranch : Prop :=
  ∀ (s t : State) (p : Word), Inv s → terminal s = false → step s = .next t →
    t.fault = some (.fetchOutOfRange p) →
      p.toInt < 0 ∧ t.fetchPtr = p ∧
      ∃ q imm, s.lat.id = some q ∧ q.branchEnabled = true ∧ q.immediate = some imm ∧ p = q.pc + imm

/-- R165, R176, R54: the final dump lists every present cell once, by ascending signed address, every present
register once, by ascending index, and has no other entry. -/
def Obligations.DumpIsCompleteAndAscending : Prop :=
  ∀ s : State,
    (Memory.wf s.mem = true →
      (dumpMemory s).Pairwise (fun x y => x.1 < y.1) ∧
      (∀ (a v : Word), readCell s a = some v ↔ (a.toInt, v) ∈ dumpMemory s) ∧
      (∀ e ∈ dumpMemory s, ∃ a v : Word, e = (a.toInt, v) ∧ readCell s a = some v)) ∧
    (RegFile.wf s.rf = true →
      (dumpRegisters s).Pairwise (fun x y => x.1 < y.1) ∧
      (∀ (i : RegIdx) (v : Word), readReg s i = some v ↔ (i.toNat, v) ∈ dumpRegisters s) ∧
      (∀ e ∈ dumpRegisters s, ∃ (i : RegIdx) (v : Word), e = (i.toNat, v) ∧ readReg s i = some v))
end

