-- ==== Sys2Proof/Laws/Maps.lean ====
section
/-! SUPPORT. The partial maps of the register file and the memory: reading after writing, and the canonical form,
which every operation keeps. -/

namespace Sys2Proof.Laws

open Sys2Proof Sys2Proof.Machine

@[simp] theorem mapGet_nil (k : Nat) : mapGet [] k = none := rfl

theorem mapGet_mapSet_self (m : List (Nat × Word)) (k : Nat) (v : Word) :
    mapGet (mapSet m k v) k = some v := by
  induction m with
  | nil => simp [mapSet, mapGet]
  | cons c m ih =>
    obtain ⟨k', v'⟩ := c
    unfold mapSet
    split
    · simp [mapGet]
    · split
      · simp [mapGet]
      · rename_i hne
        simp [mapGet, hne, ih]

theorem mapGet_mapSet_of_ne (m : List (Nat × Word)) {k j : Nat} (v : Word) (h : j ≠ k) :
    mapGet (mapSet m k v) j = mapGet m j := by
  induction m with
  | nil => simp [mapSet, mapGet, Ne.symm h]
  | cons c m ih =>
    obtain ⟨k', v'⟩ := c
    unfold mapSet
    split
    · simp [mapGet, Ne.symm h]
    · split
      · rename_i heq
        subst heq
        simp [mapGet, Ne.symm h]
      · simp only [mapGet, ih]

theorem mapWfFrom_mono {bound lo lo' : Nat} {m : List (Nat × Word)} (h : mapWfFrom bound lo m = true)
    (hlo : lo' ≤ lo) : mapWfFrom bound lo' m = true := by
  cases m with
  | nil => rfl
  | cons c m =>
    obtain ⟨k, v⟩ := c
    simp only [mapWfFrom, Bool.and_eq_true, decide_eq_true_eq] at h ⊢
    exact ⟨⟨by omega, h.1.2⟩, h.2⟩

theorem mapSet_wfFrom {bound lo k : Nat} {m : List (Nat × Word)} (v : Word)
    (h : mapWfFrom bound lo m = true) (hlo : lo ≤ k) (hk : k < bound) :
    mapWfFrom bound lo (mapSet m k v) = true := by
  induction m generalizing lo with
  | nil => simp [mapSet, mapWfFrom, hlo, hk]
  | cons c m ih =>
    obtain ⟨k', v'⟩ := c
    simp only [mapWfFrom, Bool.and_eq_true, decide_eq_true_eq] at h
    unfold mapSet
    split
    · simp only [mapWfFrom, Bool.and_eq_true, decide_eq_true_eq]
      exact ⟨⟨hlo, hk⟩, ⟨⟨by omega, h.1.2⟩, h.2⟩⟩
    · split
      · rename_i heq
        subst heq
        simp only [mapWfFrom, Bool.and_eq_true, decide_eq_true_eq]
        exact h
      · simp only [mapWfFrom, Bool.and_eq_true, decide_eq_true_eq]
        exact ⟨h.1, ih h.2 (by omega)⟩

/-- An index below the first key is absent. -/
theorem mapGet_eq_none_of_lt {bound lo k : Nat} {m : List (Nat × Word)} (h : mapWfFrom bound lo m = true)
    (hk : k < lo) : mapGet m k = none := by
  induction m generalizing lo with
  | nil => rfl
  | cons c m ih =>
    obtain ⟨k', v'⟩ := c
    simp only [mapWfFrom, Bool.and_eq_true, decide_eq_true_eq] at h
    have : k' ≠ k := by omega
    simp only [mapGet, this, if_false]
    exact ih h.2 (by omega)

/-- In canonical form, an entry is listed exactly when it is what its key reads as. -/
theorem mem_iff_mapGet {bound lo : Nat} {m : List (Nat × Word)} (h : mapWfFrom bound lo m = true)
    (k : Nat) (v : Word) : (k, v) ∈ m ↔ mapGet m k = some v := by
  induction m generalizing lo with
  | nil => simp
  | cons c m ih =>
    obtain ⟨k', v'⟩ := c
    simp only [mapWfFrom, Bool.and_eq_true, decide_eq_true_eq] at h
    by_cases hk : k' = k
    · subst hk
      have hno : mapGet m k' = none := mapGet_eq_none_of_lt h.2 (by omega)
      simp only [List.mem_cons, Prod.mk.injEq, mapGet, if_true, Option.some.injEq, true_and]
      constructor
      · rintro (rfl | hm)
        · rfl
        · rw [ih h.2, hno] at hm
          exact absurd hm (by simp)
      · rintro rfl
        exact Or.inl rfl
    · have hk' : k ≠ k' := fun e => hk e.symm
      simp only [List.mem_cons, Prod.mk.injEq, hk', false_and, false_or, mapGet, hk, if_false]
      exact ih h.2

theorem loadSection_wf {bound : Nat} (lines : List (Nat × Word)) (h : ∀ l ∈ lines, l.1 < bound) :
    mapWfFrom bound 0 (loadSection lines) = true := by
  unfold loadSection
  induction lines with
  | nil => rfl
  | cons l ls ih =>
    simp only [List.foldr_cons]
    exact mapSet_wfFrom l.2 (ih fun x hx => h x (List.mem_cons_of_mem _ hx)) (Nat.zero_le _)
      (h l List.mem_cons_self)

@[simp] theorem readReg_writeReg_self (s : State) (i : RegIdx) (v : Word) :
    readReg (writeReg s i v) i = some v := mapGet_mapSet_self _ _ _

theorem readReg_writeReg_of_ne (s : State) {i j : RegIdx} (v : Word) (h : j ≠ i) :
    readReg (writeReg s i v) j = readReg s j :=
  mapGet_mapSet_of_ne _ _ fun e => h (BitVec.eq_of_toNat_eq e)

@[simp] theorem readCell_writeCell_self (s : State) (a v : Word) :
    readCell (writeCell s a v) a = some v := mapGet_mapSet_self _ _ _

theorem readCell_writeCell_of_ne (s : State) {a b : Word} (v : Word) (h : b ≠ a) :
    readCell (writeCell s a v) b = readCell s b :=
  mapGet_mapSet_of_ne _ _ fun e => h (BitVec.eq_of_toNat_eq e)

theorem writeReg_keeps_wf {s : State} (i : RegIdx) (v : Word) (h : RegFile.wf s.rf = true) :
    RegFile.wf (writeReg s i v).rf = true :=
  mapSet_wfFrom v h (Nat.zero_le _) i.isLt

theorem writeCell_keeps_wf {s : State} (a v : Word) (h : Memory.wf s.mem = true) :
    Memory.wf (writeCell s a v).mem = true :=
  mapSet_wfFrom v h (Nat.zero_le _) a.isLt

theorem reset_memory_wf : Memory.wf State.reset.mem = true := rfl

theorem reset_registers_wf : RegFile.wf State.reset.rf = true := rfl

/-- What the host loads is in canonical form. -/
theorem boot_wf {regs : List (RegIdx × Word)} {cells : List (Word × Word)} {img : List InstrWord} {s : State}
    (h : boot regs cells img = some s) : RegFile.wf s.rf = true ∧ Memory.wf s.mem = true := by
  unfold boot at h
  split at h
  · obtain rfl := Option.some.inj h
    constructor
    · apply loadSection_wf
      intro l hl
      simp only [registerLines, List.mem_map] at hl
      obtain ⟨x, -, rfl⟩ := hl
      exact x.1.isLt
    · apply loadSection_wf
      intro l hl
      simp only [memoryLines, List.mem_map] at hl
      obtain ⟨x, -, rfl⟩ := hl
      exact x.1.isLt
  · exact absurd h (by simp)

end Sys2Proof.Laws
end

