-- ==== Sys2Proof/Laws/State.lean ====
section
/-! SUPPORT. One lemma for each field of the state under each named update. -/

namespace Sys2Proof.Laws

open Sys2Proof Sys2Proof.Machine

/-! `writeReg` -/

@[simp] theorem writeReg_rf (s : State) (i : RegIdx) (v : Word) : (writeReg s i v).rf = mapSet s.rf i.toNat v := rfl
@[simp] theorem writeReg_mem (s : State) (i : RegIdx) (v : Word) : (writeReg s i v).mem = s.mem := rfl
@[simp] theorem writeReg_img (s : State) (i : RegIdx) (v : Word) : (writeReg s i v).img = s.img := rfl
@[simp] theorem writeReg_lat (s : State) (i : RegIdx) (v : Word) : (writeReg s i v).lat = s.lat := rfl
@[simp] theorem writeReg_fetchPtr (s : State) (i : RegIdx) (v : Word) : (writeReg s i v).fetchPtr = s.fetchPtr := rfl
@[simp] theorem writeReg_seqNext (s : State) (i : RegIdx) (v : Word) : (writeReg s i v).seqNext = s.seqNext := rfl
@[simp] theorem writeReg_cycle (s : State) (i : RegIdx) (v : Word) : (writeReg s i v).cycle = s.cycle := rfl
@[simp] theorem writeReg_eop (s : State) (i : RegIdx) (v : Word) : (writeReg s i v).eop = s.eop := rfl
@[simp] theorem writeReg_finished (s : State) (i : RegIdx) (v : Word) : (writeReg s i v).finished = s.finished := rfl
@[simp] theorem writeReg_fault (s : State) (i : RegIdx) (v : Word) : (writeReg s i v).fault = s.fault := rfl
@[simp] theorem writeReg_report (s : State) (i : RegIdx) (v : Word) : (writeReg s i v).report = s.report := rfl
@[simp] theorem writeReg_phase (s : State) (i : RegIdx) (v : Word) : (writeReg s i v).phase = s.phase := rfl

/-! `writeCell` -/

@[simp] theorem writeCell_rf (s : State) (a v : Word) : (writeCell s a v).rf = s.rf := rfl
@[simp] theorem writeCell_mem (s : State) (a v : Word) : (writeCell s a v).mem = mapSet s.mem a.toNat v := rfl
@[simp] theorem writeCell_img (s : State) (a v : Word) : (writeCell s a v).img = s.img := rfl
@[simp] theorem writeCell_lat (s : State) (a v : Word) : (writeCell s a v).lat = s.lat := rfl
@[simp] theorem writeCell_fetchPtr (s : State) (a v : Word) : (writeCell s a v).fetchPtr = s.fetchPtr := rfl
@[simp] theorem writeCell_seqNext (s : State) (a v : Word) : (writeCell s a v).seqNext = s.seqNext := rfl
@[simp] theorem writeCell_cycle (s : State) (a v : Word) : (writeCell s a v).cycle = s.cycle := rfl
@[simp] theorem writeCell_eop (s : State) (a v : Word) : (writeCell s a v).eop = s.eop := rfl
@[simp] theorem writeCell_finished (s : State) (a v : Word) : (writeCell s a v).finished = s.finished := rfl
@[simp] theorem writeCell_fault (s : State) (a v : Word) : (writeCell s a v).fault = s.fault := rfl
@[simp] theorem writeCell_report (s : State) (a v : Word) : (writeCell s a v).report = s.report := rfl
@[simp] theorem writeCell_phase (s : State) (a v : Word) : (writeCell s a v).phase = s.phase := rfl

/-! `nextPc` -/

@[simp] theorem nextPc_rf (s : State) : (nextPc s).rf = s.rf := rfl
@[simp] theorem nextPc_mem (s : State) : (nextPc s).mem = s.mem := rfl
@[simp] theorem nextPc_img (s : State) : (nextPc s).img = s.img := rfl
@[simp] theorem nextPc_lat (s : State) : (nextPc s).lat = s.lat := rfl
@[simp] theorem nextPc_fetchPtr (s : State) : (nextPc s).fetchPtr = s.fetchPtr + 1 := rfl
@[simp] theorem nextPc_seqNext (s : State) : (nextPc s).seqNext = s.seqNext := rfl
@[simp] theorem nextPc_cycle (s : State) : (nextPc s).cycle = s.cycle := rfl
@[simp] theorem nextPc_eop (s : State) : (nextPc s).eop = s.eop := rfl
@[simp] theorem nextPc_finished (s : State) : (nextPc s).finished = s.finished := rfl
@[simp] theorem nextPc_fault (s : State) : (nextPc s).fault = s.fault := rfl
@[simp] theorem nextPc_report (s : State) : (nextPc s).report = s.report := rfl
@[simp] theorem nextPc_phase (s : State) : (nextPc s).phase = s.phase := rfl

/-! `applyReset` -/

@[simp] theorem applyReset_rf (s : State) : (applyReset s).rf = s.rf := rfl
@[simp] theorem applyReset_mem (s : State) : (applyReset s).mem = s.mem := rfl
@[simp] theorem applyReset_img (s : State) : (applyReset s).img = s.img := rfl
@[simp] theorem applyReset_lat (s : State) : (applyReset s).lat = Latches.empty := rfl
@[simp] theorem applyReset_fetchPtr (s : State) : (applyReset s).fetchPtr = 0 := rfl
@[simp] theorem applyReset_seqNext (s : State) : (applyReset s).seqNext = Config.seqBase := rfl
@[simp] theorem applyReset_cycle (s : State) : (applyReset s).cycle = 0 := rfl
@[simp] theorem applyReset_eop (s : State) : (applyReset s).eop = false := rfl
@[simp] theorem applyReset_finished (s : State) : (applyReset s).finished = false := rfl
@[simp] theorem applyReset_fault (s : State) : (applyReset s).fault = none := rfl
@[simp] theorem applyReset_report (s : State) : (applyReset s).report = [] := rfl
@[simp] theorem applyReset_phase (s : State) : (applyReset s).phase = .atRest := rfl

/-! `endOfCycle` -/

@[simp] theorem endOfCycle_rf (b : Bool) (w : Option Slot) (s : State) : (endOfCycle b w s).rf = s.rf := rfl
@[simp] theorem endOfCycle_mem (b : Bool) (w : Option Slot) (s : State) : (endOfCycle b w s).mem = s.mem := rfl
@[simp] theorem endOfCycle_img (b : Bool) (w : Option Slot) (s : State) : (endOfCycle b w s).img = s.img := rfl
@[simp] theorem endOfCycle_lat (b : Bool) (w : Option Slot) (s : State) : (endOfCycle b w s).lat = s.lat := rfl
@[simp] theorem endOfCycle_fetchPtr (b : Bool) (w : Option Slot) (s : State) : (endOfCycle b w s).fetchPtr = s.fetchPtr := rfl
@[simp] theorem endOfCycle_seqNext (b : Bool) (w : Option Slot) (s : State) : (endOfCycle b w s).seqNext = s.seqNext := rfl
@[simp] theorem endOfCycle_cycle (b : Bool) (w : Option Slot) (s : State) : (endOfCycle b w s).cycle = s.cycle + 1 := rfl
@[simp] theorem endOfCycle_eop (b : Bool) (w : Option Slot) (s : State) : (endOfCycle b w s).eop = s.eop := rfl
@[simp] theorem endOfCycle_finished (b : Bool) (w : Option Slot) (s : State) : (endOfCycle b w s).finished = (s.eop && drained s.lat) := rfl
@[simp] theorem endOfCycle_fault (b : Bool) (w : Option Slot) (s : State) : (endOfCycle b w s).fault = s.fault := rfl
@[simp] theorem endOfCycle_report (b : Bool) (w : Option Slot) (s : State) : (endOfCycle b w s).report = stageReport b s.lat w := rfl
@[simp] theorem endOfCycle_phase (b : Bool) (w : Option Slot) (s : State) : (endOfCycle b w s).phase = s.phase := rfl

/-! `passMemory` -/

@[simp] theorem passMemory_rf (s : State) : (passMemory s).rf = s.rf := rfl
@[simp] theorem passMemory_mem (s : State) : (passMemory s).mem = s.mem := rfl
@[simp] theorem passMemory_img (s : State) : (passMemory s).img = s.img := rfl
@[simp] theorem passMemory_fetchPtr (s : State) : (passMemory s).fetchPtr = s.fetchPtr := rfl
@[simp] theorem passMemory_seqNext (s : State) : (passMemory s).seqNext = s.seqNext := rfl
@[simp] theorem passMemory_cycle (s : State) : (passMemory s).cycle = s.cycle := rfl
@[simp] theorem passMemory_eop (s : State) : (passMemory s).eop = s.eop := rfl
@[simp] theorem passMemory_finished (s : State) : (passMemory s).finished = s.finished := rfl
@[simp] theorem passMemory_fault (s : State) : (passMemory s).fault = s.fault := rfl
@[simp] theorem passMemory_report (s : State) : (passMemory s).report = s.report := rfl
@[simp] theorem passMemory_phase (s : State) : (passMemory s).phase = s.phase := rfl
@[simp] theorem passMemory_lat_if1 (s : State) : (passMemory s).lat.if1 = s.lat.if1 := rfl
@[simp] theorem passMemory_lat_if2 (s : State) : (passMemory s).lat.if2 = s.lat.if2 := rfl
@[simp] theorem passMemory_lat_id (s : State) : (passMemory s).lat.id = s.lat.id := rfl
@[simp] theorem passMemory_lat_ex (s : State) : (passMemory s).lat.ex = s.lat.ex := rfl
@[simp] theorem passMemory_lat_mem1 (s : State) : (passMemory s).lat.mem1 = none := rfl
@[simp] theorem passMemory_lat_mem2 (s : State) : (passMemory s).lat.mem2 = s.lat.mem1 := rfl
@[simp] theorem passMemory_lat_mem3 (s : State) : (passMemory s).lat.mem3 = s.lat.mem2 := rfl

/-! `leaveMem1` -/

@[simp] theorem leaveMem1_rf (q : Slot) (s : State) : (leaveMem1 q s).rf = s.rf := rfl
@[simp] theorem leaveMem1_mem (q : Slot) (s : State) : (leaveMem1 q s).mem = s.mem := rfl
@[simp] theorem leaveMem1_img (q : Slot) (s : State) : (leaveMem1 q s).img = s.img := rfl
@[simp] theorem leaveMem1_fetchPtr (q : Slot) (s : State) : (leaveMem1 q s).fetchPtr = s.fetchPtr := rfl
@[simp] theorem leaveMem1_seqNext (q : Slot) (s : State) : (leaveMem1 q s).seqNext = s.seqNext := rfl
@[simp] theorem leaveMem1_cycle (q : Slot) (s : State) : (leaveMem1 q s).cycle = s.cycle := rfl
@[simp] theorem leaveMem1_eop (q : Slot) (s : State) : (leaveMem1 q s).eop = s.eop := rfl
@[simp] theorem leaveMem1_finished (q : Slot) (s : State) : (leaveMem1 q s).finished = s.finished := rfl
@[simp] theorem leaveMem1_fault (q : Slot) (s : State) : (leaveMem1 q s).fault = s.fault := rfl
@[simp] theorem leaveMem1_report (q : Slot) (s : State) : (leaveMem1 q s).report = s.report := rfl
@[simp] theorem leaveMem1_phase (q : Slot) (s : State) : (leaveMem1 q s).phase = s.phase := rfl
@[simp] theorem leaveMem1_lat_if1 (q : Slot) (s : State) : (leaveMem1 q s).lat.if1 = s.lat.if1 := rfl
@[simp] theorem leaveMem1_lat_if2 (q : Slot) (s : State) : (leaveMem1 q s).lat.if2 = s.lat.if2 := rfl
@[simp] theorem leaveMem1_lat_id (q : Slot) (s : State) : (leaveMem1 q s).lat.id = s.lat.id := rfl
@[simp] theorem leaveMem1_lat_ex (q : Slot) (s : State) : (leaveMem1 q s).lat.ex = none := rfl
@[simp] theorem leaveMem1_lat_mem1 (q : Slot) (s : State) : (leaveMem1 q s).lat.mem1 = some q := rfl
@[simp] theorem leaveMem1_lat_mem2 (q : Slot) (s : State) : (leaveMem1 q s).lat.mem2 = s.lat.mem2 := rfl
@[simp] theorem leaveMem1_lat_mem3 (q : Slot) (s : State) : (leaveMem1 q s).lat.mem3 = s.lat.mem3 := rfl

/-! `leaveEx` -/

@[simp] theorem leaveEx_rf (q : Slot) (s : State) : (leaveEx q s).rf = s.rf := rfl
@[simp] theorem leaveEx_mem (q : Slot) (s : State) : (leaveEx q s).mem = s.mem := rfl
@[simp] theorem leaveEx_img (q : Slot) (s : State) : (leaveEx q s).img = s.img := rfl
@[simp] theorem leaveEx_fetchPtr (q : Slot) (s : State) : (leaveEx q s).fetchPtr = s.fetchPtr := rfl
@[simp] theorem leaveEx_seqNext (q : Slot) (s : State) : (leaveEx q s).seqNext = s.seqNext := rfl
@[simp] theorem leaveEx_cycle (q : Slot) (s : State) : (leaveEx q s).cycle = s.cycle := rfl
@[simp] theorem leaveEx_eop (q : Slot) (s : State) : (leaveEx q s).eop = s.eop := rfl
@[simp] theorem leaveEx_finished (q : Slot) (s : State) : (leaveEx q s).finished = s.finished := rfl
@[simp] theorem leaveEx_fault (q : Slot) (s : State) : (leaveEx q s).fault = s.fault := rfl
@[simp] theorem leaveEx_report (q : Slot) (s : State) : (leaveEx q s).report = s.report := rfl
@[simp] theorem leaveEx_phase (q : Slot) (s : State) : (leaveEx q s).phase = s.phase := rfl
@[simp] theorem leaveEx_lat_if1 (q : Slot) (s : State) : (leaveEx q s).lat.if1 = s.lat.if1 := rfl
@[simp] theorem leaveEx_lat_if2 (q : Slot) (s : State) : (leaveEx q s).lat.if2 = s.lat.if2 := rfl
@[simp] theorem leaveEx_lat_id (q : Slot) (s : State) : (leaveEx q s).lat.id = none := rfl
@[simp] theorem leaveEx_lat_ex (q : Slot) (s : State) : (leaveEx q s).lat.ex = some q := rfl
@[simp] theorem leaveEx_lat_mem1 (q : Slot) (s : State) : (leaveEx q s).lat.mem1 = s.lat.mem1 := rfl
@[simp] theorem leaveEx_lat_mem2 (q : Slot) (s : State) : (leaveEx q s).lat.mem2 = s.lat.mem2 := rfl
@[simp] theorem leaveEx_lat_mem3 (q : Slot) (s : State) : (leaveEx q s).lat.mem3 = s.lat.mem3 := rfl

/-! `passFetch` -/

@[simp] theorem passFetch_rf (s : State) : (passFetch s).rf = s.rf := rfl
@[simp] theorem passFetch_mem (s : State) : (passFetch s).mem = s.mem := rfl
@[simp] theorem passFetch_img (s : State) : (passFetch s).img = s.img := rfl
@[simp] theorem passFetch_fetchPtr (s : State) : (passFetch s).fetchPtr = s.fetchPtr := rfl
@[simp] theorem passFetch_seqNext (s : State) : (passFetch s).seqNext = s.seqNext := rfl
@[simp] theorem passFetch_cycle (s : State) : (passFetch s).cycle = s.cycle := rfl
@[simp] theorem passFetch_eop (s : State) : (passFetch s).eop = s.eop := rfl
@[simp] theorem passFetch_finished (s : State) : (passFetch s).finished = s.finished := rfl
@[simp] theorem passFetch_fault (s : State) : (passFetch s).fault = s.fault := rfl
@[simp] theorem passFetch_report (s : State) : (passFetch s).report = s.report := rfl
@[simp] theorem passFetch_phase (s : State) : (passFetch s).phase = s.phase := rfl
@[simp] theorem passFetch_lat_if1 (s : State) : (passFetch s).lat.if1 = none := rfl
@[simp] theorem passFetch_lat_if2 (s : State) : (passFetch s).lat.if2 = s.lat.if1 := rfl
@[simp] theorem passFetch_lat_id (s : State) : (passFetch s).lat.id = s.lat.id := rfl
@[simp] theorem passFetch_lat_ex (s : State) : (passFetch s).lat.ex = s.lat.ex := rfl
@[simp] theorem passFetch_lat_mem1 (s : State) : (passFetch s).lat.mem1 = s.lat.mem1 := rfl
@[simp] theorem passFetch_lat_mem2 (s : State) : (passFetch s).lat.mem2 = s.lat.mem2 := rfl
@[simp] theorem passFetch_lat_mem3 (s : State) : (passFetch s).lat.mem3 = s.lat.mem3 := rfl

/-! `squash` -/

@[simp] theorem squash_rf (s : State) : (squash s).rf = s.rf := rfl
@[simp] theorem squash_mem (s : State) : (squash s).mem = s.mem := rfl
@[simp] theorem squash_img (s : State) : (squash s).img = s.img := rfl
@[simp] theorem squash_fetchPtr (s : State) : (squash s).fetchPtr = s.fetchPtr := rfl
@[simp] theorem squash_seqNext (s : State) : (squash s).seqNext = s.seqNext := rfl
@[simp] theorem squash_cycle (s : State) : (squash s).cycle = s.cycle := rfl
@[simp] theorem squash_eop (s : State) : (squash s).eop = s.eop := rfl
@[simp] theorem squash_finished (s : State) : (squash s).finished = s.finished := rfl
@[simp] theorem squash_fault (s : State) : (squash s).fault = s.fault := rfl
@[simp] theorem squash_report (s : State) : (squash s).report = s.report := rfl
@[simp] theorem squash_phase (s : State) : (squash s).phase = s.phase := rfl
@[simp] theorem squash_lat_if1 (s : State) : (squash s).lat.if1 = s.lat.if1 := rfl
@[simp] theorem squash_lat_if2 (s : State) : (squash s).lat.if2 = none := rfl
@[simp] theorem squash_lat_id (s : State) : (squash s).lat.id = none := rfl
@[simp] theorem squash_lat_ex (s : State) : (squash s).lat.ex = s.lat.ex := rfl
@[simp] theorem squash_lat_mem1 (s : State) : (squash s).lat.mem1 = s.lat.mem1 := rfl
@[simp] theorem squash_lat_mem2 (s : State) : (squash s).lat.mem2 = s.lat.mem2 := rfl
@[simp] theorem squash_lat_mem3 (s : State) : (squash s).lat.mem3 = s.lat.mem3 := rfl

/-! `holdStalled` -/

@[simp] theorem holdStalled_rf (s : State) : (holdStalled s).rf = s.rf := rfl
@[simp] theorem holdStalled_mem (s : State) : (holdStalled s).mem = s.mem := rfl
@[simp] theorem holdStalled_img (s : State) : (holdStalled s).img = s.img := rfl
@[simp] theorem holdStalled_fetchPtr (s : State) : (holdStalled s).fetchPtr = s.fetchPtr := rfl
@[simp] theorem holdStalled_seqNext (s : State) : (holdStalled s).seqNext = s.seqNext := rfl
@[simp] theorem holdStalled_cycle (s : State) : (holdStalled s).cycle = s.cycle := rfl
@[simp] theorem holdStalled_eop (s : State) : (holdStalled s).eop = s.eop := rfl
@[simp] theorem holdStalled_finished (s : State) : (holdStalled s).finished = s.finished := rfl
@[simp] theorem holdStalled_fault (s : State) : (holdStalled s).fault = s.fault := rfl
@[simp] theorem holdStalled_report (s : State) : (holdStalled s).report = s.report := rfl
@[simp] theorem holdStalled_phase (s : State) : (holdStalled s).phase = s.phase := rfl
@[simp] theorem holdStalled_lat_if1 (s : State) : (holdStalled s).lat.if1 = s.lat.if1 := rfl
@[simp] theorem holdStalled_lat_if2 (s : State) : (holdStalled s).lat.if2 = s.lat.if2 := rfl
@[simp] theorem holdStalled_lat_id (s : State) : (holdStalled s).lat.id = s.lat.id.map fun q => { q with stallPending := false } := rfl
@[simp] theorem holdStalled_lat_ex (s : State) : (holdStalled s).lat.ex = none := rfl
@[simp] theorem holdStalled_lat_mem1 (s : State) : (holdStalled s).lat.mem1 = s.lat.mem1 := rfl
@[simp] theorem holdStalled_lat_mem2 (s : State) : (holdStalled s).lat.mem2 = s.lat.mem2 := rfl
@[simp] theorem holdStalled_lat_mem3 (s : State) : (holdStalled s).lat.mem3 = s.lat.mem3 := rfl

/-! `decodeSlot` -/

@[simp] theorem decodeSlot_instr (i : Instr) (q : Slot) : (decodeSlot i q).instr = q.instr := rfl
@[simp] theorem decodeSlot_seq (i : Instr) (q : Slot) : (decodeSlot i q).seq = q.seq := rfl
@[simp] theorem decodeSlot_pc (i : Instr) (q : Slot) : (decodeSlot i q).pc = q.pc := rfl
@[simp] theorem decodeSlot_opcode (i : Instr) (q : Slot) : (decodeSlot i q).opcode = some i.opcode := rfl
@[simp] theorem decodeSlot_readReg1 (i : Instr) (q : Slot) : (decodeSlot i q).readReg1 = some (readReg1Of i) := rfl
@[simp] theorem decodeSlot_readReg2 (i : Instr) (q : Slot) : (decodeSlot i q).readReg2 = readReg2Of i := rfl
@[simp] theorem decodeSlot_writeReg (i : Instr) (q : Slot) : (decodeSlot i q).writeReg = writeRegOf i := rfl
@[simp] theorem decodeSlot_immediate (i : Instr) (q : Slot) : (decodeSlot i q).immediate = immediateOf i := rfl
@[simp] theorem decodeSlot_branchTargetAddress (i : Instr) (q : Slot) : (decodeSlot i q).branchTargetAddress = branchTargetOf i q.pc := rfl
@[simp] theorem decodeSlot_signals (i : Instr) (q : Slot) : (decodeSlot i q).signals = some (signalsOf i) := rfl
@[simp] theorem decodeSlot_opVal1 (i : Instr) (q : Slot) : (decodeSlot i q).opVal1 = q.opVal1 := rfl
@[simp] theorem decodeSlot_opVal2 (i : Instr) (q : Slot) : (decodeSlot i q).opVal2 = q.opVal2 := rfl
@[simp] theorem decodeSlot_aluResult (i : Instr) (q : Slot) : (decodeSlot i q).aluResult = q.aluResult := rfl
@[simp] theorem decodeSlot_isZero (i : Instr) (q : Slot) : (decodeSlot i q).isZero = q.isZero := rfl
@[simp] theorem decodeSlot_memoryDatum (i : Instr) (q : Slot) : (decodeSlot i q).memoryDatum = q.memoryDatum := rfl
@[simp] theorem decodeSlot_decoded (i : Instr) (q : Slot) : (decodeSlot i q).decoded = true := rfl
@[simp] theorem decodeSlot_stallPending (i : Instr) (q : Slot) : (decodeSlot i q).stallPending = q.stallPending := rfl

end Sys2Proof.Laws
end

