-- ==== Sys2Proof/Laws/Phases.lean ====
section
/-! SUPPORT. For each shared operation, once, everything it can do when it answers a next state; and what `exec`
is in each phase. -/

namespace Sys2Proof.Laws

open Sys2Proof Sys2Proof.Machine

/-- The value a slot writes back (R82). -/
def resultOf (q : Slot) : Option Word := if q.writebackFromMemory then q.memoryDatum else q.aluResult

/-- `s` with the slot in `lat[MEM3]` retired. -/
def retireSlot (s : State) : State := { s with lat := { s.lat with mem3 := none } }

theorem andThen_next {r : Result State} {k : State → Result State} {t : State} (h : andThen r k = .next t) :
    (∃ s, r = .next s ∧ s.fault.isSome = true ∧ t = s) ∨
    (∃ s, r = .next s ∧ s.fault.isSome = false ∧ k s = .next t) := by
  unfold andThen at h
  split at h
  · rename_i s
    split at h
    · rename_i hf
      exact .inl ⟨s, rfl, hf, by simpa using h.symm⟩
    · rename_i hf
      exact .inr ⟨s, rfl, by simpa using hf, h⟩
  · exact absurd h (by simp)
  · exact absurd h (by simp)

theorem andThen_of_fault {s : State} {k : State → Result State} (h : s.fault.isSome = true) :
    andThen (.next s) k = .next s := by simp [andThen, h]

theorem andThen_of_noFault {s : State} {k : State → Result State} (h : s.fault = none) :
    andThen (.next s) k = k s := by simp [andThen, h]

theorem settle_next {s t : State} {r : Result State} (h : settle s r = .next t) :
    ∃ u, r = .next u ∧
      ((u.fault.isSome = true ∧ t = { u with lat := s.lat, phase := .atRest }) ∨
       (u.fault.isSome = false ∧ t = { u with phase := .atRest })) := by
  unfold settle at h
  split at h
  · rename_i u
    split at h
    · rename_i hf
      exact ⟨u, rfl, .inl ⟨hf, by simpa using h.symm⟩⟩
    · rename_i hf
      exact ⟨u, rfl, .inr ⟨by simpa using hf, by simpa using h.symm⟩⟩
  · exact absurd h (by simp)
  · exact absurd h (by simp)

theorem writeBack_next {s t : State} (h : writeBack s = .next t) :
    (s.lat.mem3 = none ∧ t = s) ∨
    (∃ q, s.lat.mem3 = some q ∧ q.registerWriteEnabled = false ∧ t = retireSlot s) ∨
    (∃ q r v, s.lat.mem3 = some q ∧ q.registerWriteEnabled = true ∧ q.writeReg = some r ∧ resultOf q = some v ∧
      t = writeReg (retireSlot s) r v) := by
  unfold writeBack at h
  split at h
  · rename_i hm
    exact .inl ⟨hm, by simpa using h.symm⟩
  · rename_i q hm
    dsimp only at h
    split at h
    · rename_i he
      split at h
      · rename_i r v hr hv
        exact .inr (.inr ⟨q, r, v, hm, he, hr, hv, by simpa [retireSlot] using h.symm⟩)
      · exact absurd h (by simp)
    · rename_i he
      exact .inr (.inl ⟨q, hm, by simpa using he, by simpa [retireSlot] using h.symm⟩)

theorem withReg_next {i : RegIdx} {s t : State} {k : Word → Result State} (h : withReg i s k = .next t) :
    (∃ v, readReg s i = some v ∧ k v = .next t) ∨
    (readReg s i = none ∧ t = { s with fault := some (.registerAbsent i) }) := by
  unfold withReg at h
  split at h
  · rename_i v hv
    exact .inl ⟨v, hv, h⟩
  · rename_i hv
    exact .inr ⟨hv, by simpa [raise] using h.symm⟩

theorem withCell_next {a : Word} {s t : State} {k : Word → Result State} (h : withCell a s k = .next t) :
    (∃ v, readCell s a = some v ∧ k v = .next t) ∨
    (readCell s a = none ∧ t = { s with fault := some (.memoryAbsent a) }) := by
  unfold withCell at h
  split at h
  · rename_i v hv
    exact .inl ⟨v, hv, h⟩
  · rename_i hv
    exact .inr ⟨hv, by simpa [raise] using h.symm⟩

theorem storePart_next {q : Slot} {s t : State} (h : storePart q s = .next t) :
    (q.memoryWriteEnabled = false ∧ t = leaveMem1 q s) ∨
    (∃ a v, q.memoryWriteEnabled = true ∧ q.aluResult = some a ∧ q.opVal2 = some v ∧
      t = leaveMem1 q (writeCell s a v)) := by
  unfold storePart at h
  split at h
  · rename_i he
    split at h
    · rename_i a v ha hv
      exact .inr ⟨a, v, he, ha, hv, by simpa using h.symm⟩
    · exact absurd h (by simp)
  · rename_i he
    exact .inl ⟨by simpa using he, by simpa using h.symm⟩

theorem accessMemory_next {s t : State} (h : accessMemory s = .next t) :
    (s.lat.ex = none ∧ t = s) ∨
    (∃ q, s.lat.ex = some q ∧ q.memoryReadEnabled = false ∧ storePart q s = .next t) ∨
    (∃ q a v, s.lat.ex = some q ∧ q.memoryReadEnabled = true ∧ q.aluResult = some a ∧ readCell s a = some v ∧
      storePart { q with memoryDatum := some v } s = .next t) ∨
    (∃ q a, s.lat.ex = some q ∧ q.memoryReadEnabled = true ∧ q.aluResult = some a ∧ readCell s a = none ∧
      t = { s with fault := some (.memoryAbsent a) }) := by
  unfold accessMemory at h
  split at h
  · rename_i he
    exact .inl ⟨he, by simpa using h.symm⟩
  · rename_i q he
    split at h
    · rename_i hr
      split at h
      · rename_i a ha
        rcases withCell_next h with ⟨v, hv, hk⟩ | ⟨hv, rfl⟩
        · exact .inr (.inr (.inl ⟨q, a, v, he, hr, ha, hv, hk⟩))
        · exact .inr (.inr (.inr ⟨q, a, he, hr, ha, hv, rfl⟩))
      · exact absurd h (by simp)
    · rename_i hr
      exact .inr (.inl ⟨q, he, by simpa using hr, h⟩)

theorem resolveSecond_next {q : Slot} {s t : State} {k : Slot → Result State}
    (h : resolveSecond q s k = .next t) :
    (q.readReg2 = none ∧ k q = .next t) ∨
    (∃ r v, q.readReg2 = some r ∧ fwd s r = .value v ∧ k { q with opVal2 := some v } = .next t) ∨
    (∃ r, q.readReg2 = some r ∧ fwd s r = .absent ∧ t = { s with fault := some (.registerAbsent r) }) := by
  unfold resolveSecond at h
  split at h
  · rename_i hr
    exact .inl ⟨hr, h⟩
  · rename_i r hr
    split at h
    · rename_i v hv
      exact .inr (.inl ⟨r, v, hr, hv, h⟩)
    · rename_i hv
      exact .inr (.inr ⟨r, hr, hv, by simpa [raise] using h.symm⟩)
    · exact absurd h (by simp)

theorem resolveOperands_next {q : Slot} {s t : State} {k : Slot → Result State}
    (h : resolveOperands q s k = .next t) :
    (∃ r v, q.readReg1 = some r ∧ fwd s r = .value v ∧ resolveSecond { q with opVal1 := some v } s k = .next t) ∨
    (∃ r, q.readReg1 = some r ∧ fwd s r = .absent ∧ t = { s with fault := some (.registerAbsent r) }) := by
  unfold resolveOperands at h
  split at h
  · exact absurd h (by simp)
  · rename_i r hr
    split at h
    · rename_i v hv
      exact .inl ⟨r, v, hr, hv, h⟩
    · rename_i hv
      exact .inr ⟨r, hr, hv, by simpa [raise] using h.symm⟩
    · exact absurd h (by simp)

/-- The EX phase either leaves the executed slot in `lat[EX]` or raises `RegisterAbsent`. -/
theorem executeWith_next {alu : Slot → Option Slot} {s t : State} (h : executeWith alu s = .next t) :
    (s.lat.id = none ∧ t = s) ∨
    (∃ q q1 q2, s.lat.id = some q ∧ alu q1 = some q2 ∧ t = leaveEx q2 s ∧
      ((∃ r v, q.readReg1 = some r ∧ fwd s r = .value v ∧ q.readReg2 = none ∧ q1 = { q with opVal1 := some v }) ∨
       (∃ r v r' v', q.readReg1 = some r ∧ fwd s r = .value v ∧ q.readReg2 = some r' ∧ fwd s r' = .value v' ∧
          q1 = { q with opVal1 := some v, opVal2 := some v' }))) ∨
    (∃ q r, s.lat.id = some q ∧ (q.readReg1 = some r ∨ q.readReg2 = some r) ∧ fwd s r = .absent ∧
      t = { s with fault := some (.registerAbsent r) }) := by
  unfold executeWith at h
  split at h
  · rename_i hid
    exact .inl ⟨hid, by simpa using h.symm⟩
  · rename_i q hid
    rcases resolveOperands_next h with ⟨r, v, hr, hv, h2⟩ | ⟨r, hr, hv, rfl⟩
    · rcases resolveSecond_next h2 with ⟨hr2, hk⟩ | ⟨r', v', hr2, hv2, hk⟩ | ⟨r', hr2, hv2, rfl⟩
      · split at hk
        · rename_i q2 ha
          exact .inr (.inl ⟨q, _, q2, hid, ha, by simpa using hk.symm, .inl ⟨r, v, hr, hv, hr2, rfl⟩⟩)
        · exact absurd hk (by simp)
      · split at hk
        · rename_i q2 ha
          exact .inr (.inl ⟨q, _, q2, hid, ha, by simpa using hk.symm,
            .inr ⟨r, v, r', v', hr, hv, hr2, hv2, rfl⟩⟩)
        · exact absurd hk (by simp)
      · exact .inr (.inr ⟨q, r', hid, .inr hr2, hv2, rfl⟩)
    · exact .inr (.inr ⟨q, r, hid, .inl hr, hv, rfl⟩)

theorem decodeInto_next {i : Instr} {s t : State} (h : decodeInto i s = .next t) :
    (s.lat.if2 = none ∧ t = s) ∨
    (∃ q, s.lat.if2 = some q ∧
      t = { s with lat := { s.lat with
        id := some { decodeSlot i q with stallPending := hazard (decodeSlot i q) s.lat.ex s.lat.mem1 }
        if2 := none } }) := by
  unfold decodeInto at h
  split at h
  · rename_i hq
    exact .inl ⟨hq, by simpa using h.symm⟩
  · rename_i q hq
    exact .inr ⟨q, hq, by simpa using h.symm⟩

theorem resolveBranch_next {s t : State} (h : resolveBranch s = .next t) :
    (t = s ∧ s.lat.ex.any takenBranch = false) ∨
    (∃ q a, s.lat.ex = some q ∧ takenBranch q = true ∧ q.branchTargetAddress = some a ∧
      t = { squash s with fetchPtr := a }) := by
  unfold resolveBranch at h
  split at h
  · rename_i hq
    exact .inl ⟨by simpa using h.symm, by simp [hq]⟩
  · rename_i q hq
    split at h
    · rename_i ht
      split at h
      · rename_i a ha
        exact .inr ⟨q, a, hq, ht, ha, by simpa using h.symm⟩
      · exact absurd h (by simp)
    · rename_i ht
      exact .inl ⟨by simpa using h.symm, by simpa [hq] using ht⟩

theorem fetch_next {s t : State} (h : fetch s = .next t) :
    (s.fetchPtr.toInt < 0 ∧ t = { s with fault := some (.fetchOutOfRange s.fetchPtr) }) ∨
    (0 ≤ s.fetchPtr.toInt ∧ ∃ word, s.img[s.fetchPtr.toNat]? = some word ∧
      t = { s with
        lat := { s.lat with if1 := some (newSlot word s.fetchPtr s.seqNext) }
        seqNext := s.seqNext + 1
        fetchPtr := s.fetchPtr + 1
        eop := false }) ∨
    (0 ≤ s.fetchPtr.toInt ∧ s.img[s.fetchPtr.toNat]? = none ∧
      t = { s with lat := { s.lat with if1 := none }, eop := true }) := by
  unfold fetch at h
  split at h
  · rename_i hn
    exact .inl ⟨hn, by simpa [raise] using h.symm⟩
  · rename_i hn
    have hn' : 0 ≤ s.fetchPtr.toInt := by omega
    split at h
    · rename_i word hw
      exact .inr (.inl ⟨hn', word, hw, by simpa using h.symm⟩)
    · rename_i hw
      exact .inr (.inr ⟨hn', hw, by simpa using h.symm⟩)

/-- Fetching never stops the model. -/
theorem fetch_isNext (s : State) : ∃ t, fetch s = .next t := by
  unfold fetch
  split
  · exact ⟨_, rfl⟩
  · split <;> exact ⟨_, rfl⟩

/-! `exec` in each phase -/

/-- The ALU dispatch of the EX phase (R88), by instruction. -/
def aluOf : Instr → Slot → Option Slot
  | .addReg _ _ _ => aluAdd
  | .addLit _ _ _ => aluAdd
  | .subReg _ _ _ => aluSub
  | .subLit _ _ _ => aluSub
  | .load _ _ _ => aluAdd
  | .store _ _ _ => aluAdd
  | .branchNotZero _ _ => aluTestZero

theorem exec_wb {i : Instr} {s : State} (h : s.phase = .wb) : exec i s = writeBack s := by
  cases i <;> simp only [exec, execAddReg, execAddLit, execSubReg, execSubLit, execLoad, execStore,
    execBranchNotZero, inPhase, h]

theorem exec_mem1 {i : Instr} {s : State} (h : s.phase = .mem1) : exec i s = accessMemory s := by
  cases i <;> simp only [exec, execAddReg, execAddLit, execSubReg, execSubLit, execLoad, execStore,
    execBranchNotZero, inPhase, h]

theorem exec_ex {i : Instr} {s : State} (h : s.phase = .ex) : exec i s = executeWith (aluOf i) s := by
  cases i <;> simp only [exec, execAddReg, execAddLit, execSubReg, execSubLit, execLoad, execStore,
    execBranchNotZero, inPhase, h, aluOf]

theorem exec_id {i : Instr} {s : State} (h : s.phase = .id) : exec i s = decodeInto i s := by
  cases i <;> simp only [exec, execAddReg, execAddLit, execSubReg, execSubLit, execLoad, execStore,
    execBranchNotZero, inPhase, h]

theorem exec_if1 {i : Instr} {s : State} (h : s.phase = .if1) : exec i s = resolveBranch s := by
  cases i <;> simp only [exec, execAddReg, execAddLit, execSubReg, execSubLit, execLoad, execStore,
    execBranchNotZero, inPhase, h]

end Sys2Proof.Laws
end

