-- ==== Sys2Proof/Laws/Cycle.lean ====
section
/-! SUPPORT. What each phase of the cycle, and the cycle itself, can do when it answers a next state: the phases run
`exec` of a decoded slot, which `Laws.Phases` says what it is. -/

namespace Sys2Proof.Laws

open Sys2Proof Sys2Proof.Machine

theorem runSlot_next {p : Phase} {q : Slot} {s t : State} (h : runSlot p q s = .next t) :
    ∃ i, decode q.instr = .ok i ∧ exec i { s with phase := p } = .next t := by
  unfold runSlot at h
  split at h
  · rename_i i hi
    exact ⟨i, hi, h⟩
  · exact absurd h (by simp)

/-- The WB phase writes at most the register file and empties `lat[MEM3]`. -/
theorem wbPhase_next {s t : State} (h : wbPhase s = .next t) :
    t = { s with rf := t.rf, lat := { s.lat with mem3 := none }, phase := t.phase } ∧
    ((s.lat.mem3 = none ∧ t.rf = s.rf) ∨
     (∃ q, s.lat.mem3 = some q ∧ q.registerWriteEnabled = false ∧ t.rf = s.rf) ∨
     (∃ q r v, s.lat.mem3 = some q ∧ q.registerWriteEnabled = true ∧ q.writeReg = some r ∧ resultOf q = some v ∧
        t.rf = mapSet s.rf r.toNat v)) := by
  unfold wbPhase at h
  split at h
  · rename_i hm
    obtain rfl : s = t := by simpa using h
    refine ⟨?_, .inl ⟨hm, rfl⟩⟩
    cases s
    rename_i lat _ _ _ _ _ _ _ _
    cases lat
    simp_all
  · rename_i q hm
    obtain ⟨i, -, he⟩ := runSlot_next h
    rw [exec_wb rfl] at he
    rcases writeBack_next he with ⟨hn, -⟩ | ⟨q', hq, hen, rfl⟩ | ⟨q', r, v, hq, hen, hr, hv, rfl⟩
    · simp [hm] at hn
    · exact ⟨rfl, .inr (.inl ⟨q', hq, hen, rfl⟩)⟩
    · exact ⟨rfl, .inr (.inr ⟨q', r, v, hq, hen, hr, hv, rfl⟩)⟩

/-- The MEM1 phase either moves its slot to `lat[MEM1]`, having read or written at most one cell, or raises
`MemoryAbsent`. -/
theorem mem1Phase_next {s t : State} (h : mem1Phase s = .next t) :
    (s.lat.ex = none ∧ t = s) ∨
    (∃ q a, s.lat.ex = some q ∧ q.memoryReadEnabled = true ∧ q.aluResult = some a ∧ readCell s a = none ∧
      t = { s with fault := some (.memoryAbsent a), phase := .mem1 }) ∨
    (∃ q q', s.lat.ex = some q ∧
      t = { s with mem := t.mem, lat := { s.lat with mem1 := some q', ex := none }, phase := .mem1 } ∧
      ((q.memoryReadEnabled = false ∧ q' = q) ∨
       (∃ a v, q.memoryReadEnabled = true ∧ q.aluResult = some a ∧ readCell s a = some v ∧
          q' = { q with memoryDatum := some v })) ∧
      ((q.memoryWriteEnabled = false ∧ t.mem = s.mem) ∨
       (∃ a v, q.memoryWriteEnabled = true ∧ q.aluResult = some a ∧ q.opVal2 = some v ∧
          t.mem = mapSet s.mem a.toNat v))) := by
  unfold mem1Phase at h
  split at h
  · rename_i he
    exact .inl ⟨he, by simpa using h.symm⟩
  · rename_i q hq
    obtain ⟨i, -, he⟩ := runSlot_next h
    rw [exec_mem1 rfl] at he
    rcases accessMemory_next he with ⟨hn, -⟩ | ⟨q', hq', hr, hs⟩ | ⟨q', a, v, hq', hr, ha, hv, hs⟩ |
      ⟨q', a, hq', hr, ha, hv, rfl⟩
    · simp [hq] at hn
    · rcases storePart_next hs with ⟨hw, rfl⟩ | ⟨a, v, hw, ha, hv, rfl⟩
      · exact .inr (.inr ⟨q', q', hq', rfl, .inl ⟨hr, rfl⟩, .inl ⟨hw, rfl⟩⟩)
      · exact .inr (.inr ⟨q', q', hq', rfl, .inl ⟨hr, rfl⟩, .inr ⟨a, v, hw, ha, hv, rfl⟩⟩)
    · rcases storePart_next hs with ⟨hw, rfl⟩ | ⟨a', v', hw, ha', hv', rfl⟩
      · exact .inr (.inr ⟨q', _, hq', rfl, .inr ⟨a, v, hr, ha, hv, rfl⟩, .inl ⟨hw, rfl⟩⟩)
      · exact .inr (.inr ⟨q', _, hq', rfl, .inr ⟨a, v, hr, ha, hv, rfl⟩, .inr ⟨a', v', hw, ha', hv', rfl⟩⟩)
    · exact .inr (.inl ⟨q', a, hq', hr, ha, hv, rfl⟩)

/-- The EX phase either moves the executed slot to `lat[EX]` or raises `RegisterAbsent`. -/
theorem exPhase_next {s t : State} (h : exPhase s = .next t) :
    (s.lat.id = none ∧ t = s) ∨
    (∃ q i q1 q2, s.lat.id = some q ∧ decode q.instr = .ok i ∧ aluOf i q1 = some q2 ∧
      t = { s with lat := { s.lat with ex := some q2, id := none }, phase := .ex } ∧
      ((∃ r v, q.readReg1 = some r ∧ fwd s r = .value v ∧ q.readReg2 = none ∧ q1 = { q with opVal1 := some v }) ∨
       (∃ r v r' v', q.readReg1 = some r ∧ fwd s r = .value v ∧ q.readReg2 = some r' ∧ fwd s r' = .value v' ∧
          q1 = { q with opVal1 := some v, opVal2 := some v' }))) ∨
    (∃ q r, s.lat.id = some q ∧ (q.readReg1 = some r ∨ q.readReg2 = some r) ∧ fwd s r = .absent ∧
      t = { s with fault := some (.registerAbsent r), phase := .ex }) := by
  unfold exPhase at h
  split at h
  · rename_i he
    exact .inl ⟨he, by simpa using h.symm⟩
  · rename_i q hq
    obtain ⟨i, hi, he⟩ := runSlot_next h
    rw [exec_ex rfl] at he
    rcases executeWith_next he with ⟨hn, -⟩ | ⟨q', q1, q2, hq', ha, rfl, hops⟩ | ⟨q', r, hq', hr, hf, rfl⟩
    · simp [hq] at hn
    · obtain rfl : q = q' := by simpa [hq] using hq'
      exact .inr (.inl ⟨q, i, q1, q2, hq, hi, ha, rfl, hops⟩)
    · exact .inr (.inr ⟨q', r, hq', hr, hf, rfl⟩)

/-- The ID phase decodes its slot or raises `IllegalInstruction`. -/
theorem idPhase_next {s t : State} (h : idPhase s = .next t) :
    (s.lat.if2 = none ∧ t = s) ∨
    (∃ q i, s.lat.if2 = some q ∧ decode q.instr = .ok i ∧
      t = { s with phase := .id, lat := { s.lat with
        id := some { decodeSlot i q with stallPending := hazard (decodeSlot i q) s.lat.ex s.lat.mem1 }
        if2 := none } }) ∨
    (∃ q e, s.lat.if2 = some q ∧ decode q.instr = .error e ∧
      t = { s with fault := some (.illegalInstruction q.pc q.instr) }) := by
  unfold idPhase at h
  split at h
  · rename_i he
    exact .inl ⟨he, by simpa using h.symm⟩
  · rename_i q hq
    split at h
    · rename_i i hi
      rw [exec_id rfl] at h
      rcases decodeInto_next h with ⟨hn, -⟩ | ⟨q', hq', rfl⟩
      · simp [hq] at hn
      · obtain rfl : q = q' := by simpa [hq] using hq'
        exact .inr (.inl ⟨q, i, hq, hi, rfl⟩)
    · rename_i e he
      exact .inr (.inr ⟨q, e, hq, he, by simpa [raise] using h.symm⟩)

/-- The branch evaluation squashes and redirects for a taken branch and does nothing else. -/
theorem branchPhase_next {s t : State} (h : branchPhase s = .next t) :
    (s.lat.ex.any takenBranch = false ∧ t = { s with phase := t.phase }) ∨
    (∃ q a, s.lat.ex = some q ∧ takenBranch q = true ∧ q.branchTargetAddress = some a ∧
      t = { s with fetchPtr := a, lat := { s.lat with id := none, if2 := none }, phase := .if1 }) := by
  unfold branchPhase at h
  split at h
  · rename_i he
    obtain rfl : s = t := by simpa using h
    exact .inl ⟨by simp [he], rfl⟩
  · rename_i q hq
    obtain ⟨i, -, he⟩ := runSlot_next h
    rw [exec_if1 rfl] at he
    rcases resolveBranch_next he with ⟨rfl, hn⟩ | ⟨q', a, hq', ht, ha, rfl⟩
    · exact .inl ⟨hn, rfl⟩
    · exact .inr ⟨q', a, hq', ht, ha, rfl⟩

/-- The phases WB to MEM1, which every cycle runs, leave the front of the pipeline alone. -/
theorem backPhases_front {s t : State} (h : backPhases s = .next t) :
    t.lat.if1 = s.lat.if1 ∧ t.lat.if2 = s.lat.if2 ∧ t.lat.id = s.lat.id ∧ t.img = s.img ∧
    t.fetchPtr = s.fetchPtr ∧ t.seqNext = s.seqNext ∧ t.cycle = s.cycle ∧ t.eop = s.eop ∧
    t.finished = s.finished ∧ t.report = s.report := by
  unfold backPhases at h
  rcases andThen_next h with ⟨u, hu, -, rfl⟩ | ⟨u, hu, -, hm⟩
  · obtain ⟨ht, -⟩ := wbPhase_next hu
    rw [ht]
    simp
  · obtain ⟨ht, -⟩ := wbPhase_next hu
    rcases mem1Phase_next hm with ⟨-, rfl⟩ | ⟨q, a, -, -, -, -, rfl⟩ | ⟨q, q', -, ht', -, -⟩
    · rw [ht]; simp
    · rw [ht]; simp
    · rw [ht', ht]; simp

/-- A step in a state that is not terminal is a settled cycle. -/
theorem step_of_running {s : State} (h : terminal s = false) : step s = settle s (cyclePhases s) := by
  simp [step, clock, h]

/-- A step in a terminal state holds it (R99, R166). -/
theorem step_of_terminal {s : State} (h : terminal s = true) : step s = .next s := by
  simp [step, clock, h]

/-- What a cycle does when it answers a next state: it raised in the back, EX or front phases, or it is a stall
cycle, or it ran all its phases. -/
theorem cyclePhases_next {s t : State} (h : cyclePhases s = .next t) :
    (backPhases s = .next t ∧ t.fault.isSome = true) ∨
    (∃ s1, backPhases s = .next s1 ∧ s1.fault = none ∧
      ((stalled s1 = true ∧ t = endOfCycle true s.lat.mem3 (holdStalled s1)) ∨
       (stalled s1 = false ∧
        ((exPhase s1 = .next t ∧ t.fault.isSome = true) ∨
         (∃ s2, exPhase s1 = .next s2 ∧ s2.fault = none ∧
          ((frontPhases s2 = .next t ∧ t.fault.isSome = true) ∨
           (∃ s3, frontPhases s2 = .next s3 ∧ s3.fault = none ∧
              t = endOfCycle false s.lat.mem3 s3))))))) := by
  unfold cyclePhases at h
  rcases andThen_next h with ⟨u, hu, hf, rfl⟩ | ⟨s1, hb, hf, h1⟩
  · exact .inl ⟨hu, hf⟩
  · refine .inr ⟨s1, hb, by simpa using hf, ?_⟩
    split at h1
    · rename_i hs
      exact .inl ⟨hs, by simpa using h1.symm⟩
    · rename_i hs
      refine .inr ⟨by simpa using hs, ?_⟩
      rcases andThen_next h1 with ⟨u, hu, hf1, rfl⟩ | ⟨s2, he, hf1, h2⟩
      · exact .inl ⟨hu, hf1⟩
      · refine .inr ⟨s2, he, by simpa using hf1, ?_⟩
        rcases andThen_next h2 with ⟨u, hu, hf2, rfl⟩ | ⟨s3, hfr, hf2, h3⟩
        · exact .inl ⟨hu, hf2⟩
        · exact .inr ⟨s3, hfr, by simpa using hf2, by simpa using h3.symm⟩

/-- What the front phases do when they answer a next state. -/
theorem frontPhases_next {s t : State} (h : frontPhases s = .next t) :
    (idPhase s = .next t ∧ t.fault.isSome = true) ∨
    (∃ s1 s2, idPhase s = .next s1 ∧ s1.fault = none ∧ branchPhase (passFetch s1) = .next s2 ∧
      s2.fault = none ∧ fetch s2 = .next t) := by
  unfold frontPhases at h
  rcases andThen_next h with ⟨u, hu, hf, rfl⟩ | ⟨s1, hi, hf, h1⟩
  · exact .inl ⟨hu, hf⟩
  · have hf' : s1.fault = none := by simpa using hf
    rcases andThen_next h1 with ⟨u, hu, hf1, rfl⟩ | ⟨s2, hb, hf1, h2⟩
    · exfalso
      rcases branchPhase_next hu with ⟨-, ht⟩ | ⟨q, a, -, -, -, rfl⟩
      · rw [ht] at hf1
        simp [hf'] at hf1
      · simp [hf'] at hf1
    · exact .inr ⟨s1, s2, hi, hf', hb, by simpa using hf1, h2⟩

end Sys2Proof.Laws
end

