-- ==== Sys2Proof/Laws/PerInstr.lean ====
section
/-! SUPPORT. The families of statements made per instruction (LAWS.json). -/

namespace Sys2Proof.Laws

/-- The record of every instruction has the shape its opcode asks for (30_encoding R55). -/
def RecordShape.Statement (i : Instr) : Prop := i.wellFormed = true

theorem RecordShape.addReg (rd rs rt : RegIdx) : RecordShape.Statement (.addReg rd rs rt) := rfl
theorem RecordShape.addLit (rd rs : RegIdx) (imm : Imm) : RecordShape.Statement (.addLit rd rs imm) := rfl
theorem RecordShape.subReg (rd rs rt : RegIdx) : RecordShape.Statement (.subReg rd rs rt) := rfl
theorem RecordShape.subLit (rd rs : RegIdx) (imm : Imm) : RecordShape.Statement (.subLit rd rs imm) := rfl
theorem RecordShape.load (rt rs : RegIdx) (imm : Imm) : RecordShape.Statement (.load rt rs imm) := rfl
theorem RecordShape.store (rt rs : RegIdx) (imm : Imm) : RecordShape.Statement (.store rt rs imm) := rfl
theorem RecordShape.branchNotZero (rs : RegIdx) (imm : Imm) :
    RecordShape.Statement (.branchNotZero rs imm) := rfl

end Sys2Proof.Laws
end

