-- ==== Sys2Proof/Laws/Slots.lean ====
section
/-! SUPPORT. What the slot checks of the invariants say, and that the phases need nothing more: under them no phase
finds a field missing. -/

namespace Sys2Proof.Laws

open Sys2Proof Sys2Proof.Machine

theorem asDecoded_iff {img : List InstrWord} {q : Slot} :
    asDecoded img q = true ↔
      ∃ i, decode q.instr = .ok i ∧ decodedFrom i q ∧ img[q.pc.toNat]? = some q.instr := by
  unfold asDecoded
  constructor
  · intro h
    split at h
    · exact absurd h (by simp)
    · rename_i i hi
      simp only [Bool.and_eq_true, beq_iff_eq] at h
      refine ⟨i, hi, ?_, h.2⟩
      have e := h.1
      cases q
      simp only [decodePart, decodeSlot, newSlot, Slot.mk.injEq, true_and] at e
      simp only [decodedFrom]
      simp_all
  · rintro ⟨i, hi, hd, himg⟩
    rw [hi]
    simp only [Bool.and_eq_true, beq_iff_eq]
    refine ⟨?_, himg⟩
    cases q
    simp only [decodedFrom] at hd
    simp [decodePart, decodeSlot, newSlot, hd]

theorem asFetched_iff {img : List InstrWord} {q : Slot} :
    asFetched img q = true ↔ q = newSlot q.instr q.pc q.seq ∧ img[q.pc.toNat]? = some q.instr := by
  simp [asFetched]

/-- A freshly fetched slot decodes to a slot of its instruction. -/
theorem decodedFrom_decodeSlot (i : Instr) (q : Slot) (b : Bool) :
    decodedFrom i { decodeSlot i q with stallPending := b } :=
  ⟨rfl, rfl, rfl, rfl, rfl, rfl, rfl, rfl⟩

/-- What `asExecuted` says of a slot (R39(d), R39(e)). -/
theorem asExecuted_iff {img : List InstrWord} {q : Slot} :
    asExecuted img q = true ↔
      ∃ i, decode q.instr = .ok i ∧ decodedFrom i q ∧ img[q.pc.toNat]? = some q.instr ∧
        q.stallPending = false ∧ q.opVal1.isSome = true ∧
        ((readReg2Of i).isSome = true → q.opVal2.isSome = true) ∧
        (i.opcode = .branchNotZero → q.isZero.isSome = true) ∧
        (i.opcode ≠ .branchNotZero → q.aluResult.isSome = true) := by
  unfold asExecuted
  simp only [Bool.and_eq_true, asDecoded_iff]
  constructor
  · rintro ⟨⟨⟨⟨⟨i, hi, hd, himg⟩, hs⟩, h1⟩, h2⟩, h3⟩
    refine ⟨i, hi, hd, himg, by simpa using hs, h1, ?_, ?_, ?_⟩
    · intro hr
      rw [hd.2.2.1] at h2
      simpa [Option.isNone_iff_eq_none, Option.ne_none_iff_isSome.mpr hr] using h2
    · intro ho
      rw [hd.1, ho] at h3
      simpa using h3
    · intro ho
      rw [hd.1] at h3
      simpa [ho] using h3
  · rintro ⟨i, hi, hd, himg, hs, h1, h2, h3, h4⟩
    refine ⟨⟨⟨⟨⟨i, hi, hd, himg⟩, by simpa using hs⟩, h1⟩, ?_⟩, ?_⟩
    · rw [hd.2.2.1]
      cases hr : readReg2Of i with
      | none => simp
      | some r => simpa using h2 (by simp [hr])
    · rw [hd.1]
      by_cases ho : i.opcode = .branchNotZero
      · simpa [ho] using h3 ho
      · simpa [ho] using h4 ho

/-- What `asAccessed` adds (R39(f)). -/
theorem asAccessed_iff {img : List InstrWord} {q : Slot} :
    asAccessed img q = true ↔
      asExecuted img q = true ∧ (q.opcode = some .load → q.memoryDatum.isSome = true) := by
  unfold asAccessed
  simp only [Bool.and_eq_true, Bool.or_eq_true, bne_iff_ne]
  constructor
  · rintro ⟨h, h'⟩
    exact ⟨h, fun ho => h'.resolve_left (fun hn => hn ho)⟩
  · rintro ⟨h, h'⟩
    refine ⟨h, ?_⟩
    by_cases ho : q.opcode = some .load
    · exact .inr (h' ho)
    · exact .inl ho

/-- An accessed slot that writes a register has the register and the value (R82). -/
theorem writeback_ready {img : List InstrWord} {q : Slot} (h : asAccessed img q = true)
    (hw : q.registerWriteEnabled = true) :
    (∃ r, q.writeReg = some r) ∧ (∃ v, resultOf q = some v) := by
  obtain ⟨he, hl⟩ := asAccessed_iff.mp h
  obtain ⟨i, -, hd, -, -, -, -, -, h4⟩ := asExecuted_iff.mp he
  obtain ⟨h1, -, -, hwr, -, -, hsig, -⟩ := hd
  simp only [Slot.registerWriteEnabled, hsig, Option.any] at hw
  have hmem : ∀ o : Option Word, o.isSome = true → ∃ v, o = some v := fun o ho => Option.isSome_iff_exists.mp ho
  cases i <;> simp_all [signalsOf, controlSignals, literalOverride, writeRegOf, selectDest, Instr.toRecord,
    Instr.opcode, resultOf, Slot.writebackFromMemory]

/-- An executed slot that reads or writes memory has its address and its data (R84). -/
theorem access_ready {img : List InstrWord} {q : Slot} (h : asExecuted img q = true) :
    (q.memoryReadEnabled = true → ∃ a, q.aluResult = some a) ∧
    (q.memoryWriteEnabled = true → (∃ a, q.aluResult = some a) ∧ (∃ v, q.opVal2 = some v)) := by
  obtain ⟨i, -, hd, -, -, -, h2, -, h4⟩ := asExecuted_iff.mp h
  obtain ⟨h1, -, -, -, -, -, hsig, -⟩ := hd
  simp only [Slot.memoryReadEnabled, Slot.memoryWriteEnabled, hsig, Option.any]
  have hmem : ∀ o : Option Word, o.isSome = true → ∃ v, o = some v := fun o ho => Option.isSome_iff_exists.mp ho
  cases i <;> simp_all [signalsOf, controlSignals, literalOverride, readReg2Of, Instr.toRecord, Instr.opcode]

/-- The memory-read enable of a decoded slot is that of a LOAD. -/
theorem memoryReadEnabled_iff {i : Instr} {q : Slot} (h : decodedFrom i q) :
    q.memoryReadEnabled = true ↔ i.opcode = .load := by
  obtain ⟨-, -, -, -, -, -, hsig, -⟩ := h
  simp only [Slot.memoryReadEnabled, hsig, Option.any]
  cases i <;> simp [signalsOf, controlSignals, literalOverride, Instr.toRecord, Instr.opcode]

/-- The memory-write enable of a decoded slot is that of a STORE. -/
theorem memoryWriteEnabled_iff {i : Instr} {q : Slot} (h : decodedFrom i q) :
    q.memoryWriteEnabled = true ↔ i.opcode = .store := by
  obtain ⟨-, -, -, -, -, -, hsig, -⟩ := h
  simp only [Slot.memoryWriteEnabled, hsig, Option.any]
  cases i <;> simp [signalsOf, controlSignals, literalOverride, Instr.toRecord, Instr.opcode]

/-- The branch enable of a decoded slot is that of a BRANCH_NOT_ZERO. -/
theorem branchEnabled_iff {i : Instr} {q : Slot} (h : decodedFrom i q) :
    q.branchEnabled = true ↔ i.opcode = .branchNotZero := by
  obtain ⟨-, -, -, -, -, -, hsig, -⟩ := h
  simp only [Slot.branchEnabled, hsig, Option.any]
  cases i <;> simp [signalsOf, controlSignals, literalOverride, Instr.toRecord, Instr.opcode]

/-- A producer that qualifies from MEM1, or one past it, has its value (R106). -/
theorem producedValue_ready {img : List InstrWord} {q : Slot} {st : ScanStage} {r : RegIdx}
    (h : asExecuted img q = true) (hst : st ≠ .mem1 → asAccessed img q = true)
    (hq : qualifies q st r = true) : ∃ v, producedValue q = some v := by
  obtain ⟨i, -, hd, -, -, -, -, -, h4⟩ := asExecuted_iff.mp h
  simp only [qualifies, Bool.and_eq_true, hd.1, Option.any] at hq
  have hr := hq.2
  apply Option.isSome_iff_exists.mp
  simp only [producedValue, hd.1]
  cases ho : i.opcode <;> simp only [ho] at hr h4 ⊢
  · exact h4 (by simp)
  · exact h4 (by simp)
  · simp only [ready, bne_iff_ne] at hr
    exact (asAccessed_iff.mp (hst hr)).2 (by rw [hd.1, ho])
  · simp [ready] at hr
  · simp [ready] at hr

/-- The ALU dispatch of a decoded slot with its operands latched has all it needs (R88). -/
theorem aluOf_ready {i : Instr} {q : Slot} (h : decodedFrom i q) (h1 : q.opVal1.isSome = true)
    (h2 : (readReg2Of i).isSome = true → q.opVal2.isSome = true) :
    ∃ q', aluOf i q = some q' ∧
      q' = { q with aluResult := q'.aluResult, isZero := q'.isZero } ∧
      (i.opcode = .branchNotZero → q'.isZero.isSome = true) ∧
      (i.opcode ≠ .branchNotZero → q'.aluResult.isSome = true) := by
  obtain ⟨-, -, -, -, him, -, hsig, -⟩ := h
  obtain ⟨a, ha⟩ := Option.isSome_iff_exists.mp h1
  cases i
  case addReg rd rs rt =>
    obtain ⟨b, hb⟩ := Option.isSome_iff_exists.mp (h2 rfl)
    exact ⟨{ q with aluResult := some (a + b) }, by
      simp [aluOf, aluAdd, ha, aluSecond, Slot.aluOperandIsRegister, hsig, signalsOf, controlSignals, hb], rfl,
      by simp [Instr.opcode, Instr.toRecord], by simp⟩
  case subReg rd rs rt =>
    obtain ⟨b, hb⟩ := Option.isSome_iff_exists.mp (h2 rfl)
    exact ⟨{ q with aluResult := some (a - b) }, by
      simp [aluOf, aluSub, ha, aluSecond, Slot.aluOperandIsRegister, hsig, signalsOf, controlSignals, hb], rfl,
      by simp [Instr.opcode, Instr.toRecord], by simp⟩
  case addLit rd rs imm =>
    exact ⟨{ q with aluResult := some (a + sext32 imm) }, by
      simp [aluOf, aluAdd, ha, aluSecond, Slot.aluOperandIsRegister, hsig, signalsOf, controlSignals,
        literalOverride, him, immediateOf, Instr.toRecord], rfl, by simp [Instr.opcode, Instr.toRecord], by simp⟩
  case subLit rd rs imm =>
    exact ⟨{ q with aluResult := some (a - sext32 imm) }, by
      simp [aluOf, aluSub, ha, aluSecond, Slot.aluOperandIsRegister, hsig, signalsOf, controlSignals,
        literalOverride, him, immediateOf, Instr.toRecord], rfl, by simp [Instr.opcode, Instr.toRecord], by simp⟩
  case load rt rs imm =>
    exact ⟨{ q with aluResult := some (a + sext32 imm) }, by
      simp [aluOf, aluAdd, ha, aluSecond, Slot.aluOperandIsRegister, hsig, signalsOf, controlSignals,
        him, immediateOf, Instr.toRecord], rfl, by simp [Instr.opcode, Instr.toRecord], by simp⟩
  case store rt rs imm =>
    exact ⟨{ q with aluResult := some (a + sext32 imm) }, by
      simp [aluOf, aluAdd, ha, aluSecond, Slot.aluOperandIsRegister, hsig, signalsOf, controlSignals,
        him, immediateOf, Instr.toRecord], rfl, by simp [Instr.opcode, Instr.toRecord], by simp⟩
  case branchNotZero rs imm =>
    exact ⟨{ q with isZero := some (isZeroWord a) }, by simp [aluOf, aluTestZero, ha], rfl, by simp,
      by simp [Instr.opcode, Instr.toRecord]⟩

end Sys2Proof.Laws
end

