-- ==== Sys2Proof/Tests/Slice0.lean ====
section
/-! SUPPORT. Tests on words and values of the spec (95_test_vectors V1 to V40), the smoke tests of the checks of
WellFormed.lean, and for every statement with hypotheses one theorem that shows a state and operands meeting them. -/

namespace Sys2Proof.Tests

open Sys2Proof Sys2Proof.Machine

/-! ### Helpers -/

/-- The next state of an outcome, if that is what it is. -/
def answer (r : Result State) : Option State :=
  match r with
  | .next t => some t
  | _ => none

/-- The state an outcome leads to, `State.reset` where it is no next state. -/
def after (r : Result State) : State := (answer r).getD State.reset

theorem next_of_answer {r : Result State} (h : (answer r).isSome = true) : r = .next (after r) := by
  cases r
  · rfl
  · exact absurd h (by simp [answer])
  · exact absurd h (by simp [answer])

/-- The outcome is a next state with `p`. -/
def leads (r : Result State) (p : State → Bool) : Bool :=
  match r with
  | .next t => p t
  | _ => false

/-- The decoder refuses the word for the reason `e`. -/
def refusedFor (w : InstrWord) (e : DecodeError) : Bool :=
  match decode w with
  | .error e' => e' == e
  | .ok _ => false

/-- The fields of `Inv`, computed. -/
def invHolds (s : State) : Bool :=
  decide (s.phase = .atRest) && RegFile.wf s.rf && Memory.wf s.mem && imageWellFormed s.img
    && s.lat.if1.all (asFetched s.img) && s.lat.if2.all (asFetched s.img) && s.lat.id.all (inDecode s.img)
    && s.lat.ex.all (asExecuted s.img) && s.lat.mem1.all (asAccessed s.img) && s.lat.mem2.all (asAccessed s.img)
    && s.lat.mem3.all (asAccessed s.img) && seqsDescend s.seqNext s.lat.toList
    && decide (Config.seqBase ≤ s.seqNext)
    && s.lat.id.all (fun q => q.stallPending || !loadFeeds s.lat.ex q)
    && (!s.finished || (decide (s.lat = Latches.empty) && s.eop))
    && (!s.fault.isSome || !s.finished) && (s.fault.isSome || decide (0 ≤ s.fetchPtr.toInt))

theorem inv_of {s : State} (h : invHolds s = true) : Inv s := by
  simp only [invHolds, Bool.and_eq_true, decide_eq_true_eq] at h
  obtain ⟨⟨⟨⟨⟨⟨⟨⟨⟨⟨⟨⟨⟨⟨⟨⟨h1, h2⟩, h3⟩, h4⟩, h5⟩, h6⟩, h7⟩, h8⟩, h9⟩, h10⟩, h11⟩, h12⟩, h13⟩, h14⟩, h15⟩, h16⟩, h17⟩ := h
  refine ⟨h1, h2, h3, h4, h5, h6, h7, h8, h9, h10, h11, h12, h13, h14, fun hf => ?_, fun hf => ?_, fun hf => ?_⟩
  · simpa [hf] using h15
  · simpa [hf] using h16
  · simpa [hf] using h17

/-- A small machine: registers 0, 1, 2, 3 and cell 100 present, the image `img`, the latches `lat`, the fetch
pointer at index `p`. -/
def small (img : List InstrWord) (lat : Latches) (p : Int) : State :=
  { State.reset with
    rf := [(0, 0), (1, 5), (2, 7), (3, 0xFFFFFFFC)]
    mem := [(100, 42)]
    img := img
    lat := lat
    fetchPtr := BitVec.ofInt 32 p
    seqNext := 9 }

/-- The same machine between cycles with nothing in flight, or in phase `p` of a cycle. -/
def inPhaseOf (p : Phase) (lat : Latches) : State := { small [] lat 0 with phase := p }

/-- The slot fetched at index `n` for `i`. -/
def fetchedSlot (i : Instr) (n : Nat) : Slot := newSlot (encode i) (BitVec.ofNat 32 n) (n + 1)

/-- The slot decoded at index `n` from `i`. -/
def decodedSlot (i : Instr) (n : Nat) : Slot := decodeSlot i (fetchedSlot i n)

/-- The slot executed at index `n` from `i`, with operand values and result. -/
def executedSlot (i : Instr) (n : Nat) (a b r : Word) : Slot :=
  { decodedSlot i n with
    opVal1 := some a, opVal2 := (readReg2Of i).map fun _ => b
    aluResult := if i.opcode = .branchNotZero then none else some r
    isZero := if i.opcode = .branchNotZero then some (a == 0) else none }

/-- The same slot with the datum a LOAD has read. -/
def accessedSlot (i : Instr) (n : Nat) (a b r v : Word) : Slot :=
  { executedSlot i n a b r with memoryDatum := if i.opcode = .load then some v else none }

/-! ### WellFormed: each check refuses an ill-formed term -/

theorem test_record_add_without_second_operand :
    Record.wellFormed ⟨.add, some 1, some 2, none, none⟩ = false := by decide
theorem test_record_add_with_both_second_operands :
    Record.wellFormed ⟨.add, some 1, some 2, some 3, some 4⟩ = false := by decide
theorem test_record_sub_without_destination :
    Record.wellFormed ⟨.sub, none, some 2, some 3, none⟩ = false := by decide
theorem test_record_load_with_destReg :
    Record.wellFormed ⟨.load, some 1, some 2, some 3, some 4⟩ = false := by decide
theorem test_record_store_without_immediate :
    Record.wellFormed ⟨.store, none, some 2, some 3, none⟩ = false := by decide
theorem test_record_branch_with_second_source :
    Record.wellFormed ⟨.branchNotZero, none, some 2, some 3, some 4⟩ = false := by decide
theorem test_record_branch_without_immediate_has_no_instruction :
    Record.toInstr ⟨.branchNotZero, none, some 2, none, none⟩ = none := by decide
theorem test_image_too_long : imageWellFormed (List.replicate Config.imageLimit 0) = false := by
  simp only [imageWellFormed, List.length_replicate]
  decide
theorem test_boot_refuses_duplicate_register : boot [(1, 5), (1, 6)] [] [] = none := by decide
theorem test_boot_refuses_duplicate_address : boot [] [(7, 5), (8, 1), (7, 5)] [] = none := by decide

/-! ### Decode: the words of V20 and V21 -/

theorem test_decode_add : decode 0x0001020300000000#64 = .ok (.addReg 1 2 3) := by rfl
theorem test_decode_add_literal : decode 0x0801000000000005#64 = .ok (.addLit 1 0 5) := by rfl
theorem test_decode_sub : decode 0x1004010500000000#64 = .ok (.subReg 4 1 5) := by rfl
theorem test_decode_sub_literal : decode 0x18010100FFFFFFF6#64 = .ok (.subLit 1 1 (-10)) := by rfl
theorem test_decode_load : decode 0x2000000200000064#64 = .ok (.load 2 0 100) := by rfl
theorem test_decode_store : decode 0x3000000200000068#64 = .ok (.store 2 0 104) := by rfl
theorem test_decode_branch : decode 0x40000100FFFFFFFE#64 = .ok (.branchNotZero 1 (-2)) := by rfl
theorem test_decode_extremes :
    decode 0x00FFFFFF00000000#64 = .ok (.addReg 255 255 255) ∧
    decode 0x0800000080000000#64 = .ok (.addLit 0 0 (-2147483648)) ∧
    decode 0x080000007FFFFFFF#64 = .ok (.addLit 0 0 2147483647) ∧
    decode 0x0000000000000000#64 = .ok (.addReg 0 0 0) := ⟨rfl, rfl, rfl, rfl⟩
theorem test_decode_table_word : decodeTableWord 64 0x2000000200000064 = some (.load 2 0 100) := by rfl

theorem test_illegal_opcodes :
    refusedFor 0x5000000000000000#64 .unknownOpcode = true ∧
    refusedFor 0xF000000000000000#64 .unknownOpcode = true := by decide
theorem test_illegal_reserved_bit : refusedFor 0x0100000000000000#64 .reservedBits = true := by decide
theorem test_illegal_unused_fields :
    refusedFor 0x0001020300000001#64 .unusedField = true ∧ refusedFor 0x0801000300000005#64 .unusedField = true ∧
    refusedFor 0x2001000200000064#64 .unusedField = true ∧ refusedFor 0x3001000200000068#64 .unusedField = true ∧
    refusedFor 0x4000010100000003#64 .unusedField = true ∧ refusedFor 0x4001010000000003#64 .unusedField = true := by
  decide
theorem test_illegal_literal_bit : refusedFor 0x2800000200000064#64 .literalBit = true := by decide

/-! ### Instructions as a whole: the values of V30, V31, V32 -/

/-- A machine at rest with `R1 = a`, `R2 = b`, cell 96 holding 77, at index 2. -/
def operands (a b : Int) : State :=
  { State.reset with rf := [(1, BitVec.ofInt 32 a), (2, BitVec.ofInt 32 b)], mem := [(96, 77)], fetchPtr := 2 }

theorem test_add_wraps :
    leads (exec (.addReg 3 1 2) (operands 2147483647 1)) fun t =>
      readReg t 3 == some 0x80000000 && t.fetchPtr == 3 = true := by decide
theorem test_add_same_register : leads (exec (.addReg 1 1 1) (operands 6 0)) (readReg · 1 == some 12) = true := by
  decide
theorem test_add_literal_negative :
    leads (exec (.addLit 3 1 (-1)) (operands (-2147483648) 0)) (readReg · 3 == some 0x7FFFFFFF) = true := by decide
theorem test_sub_order : leads (exec (.subReg 3 1 2) (operands 0 1)) (readReg · 3 == some 0xFFFFFFFF) = true := by
  decide
theorem test_sub_wraps :
    leads (exec (.subReg 3 1 2) (operands 0 (-2147483648))) (readReg · 3 == some 0x80000000) = true := by decide
theorem test_sub_literal :
    leads (exec (.subLit 3 1 (-1)) (operands 2147483647 0)) (readReg · 3 == some 0x80000000) = true := by decide
theorem test_load_negative_offset :
    leads (exec (.load 2 1 (-4)) (operands 100 0)) fun t =>
      readReg t 2 == some 77 && readReg t 1 == some 100 = true := by decide
theorem test_load_absent_cell :
    leads (exec (.load 2 1 4) (operands 100 0)) (·.fault == some (.memoryAbsent 104)) = true := by decide
theorem test_store_address_wraps :
    leads (exec (.store 2 1 1) (operands 2147483647 (-7))) fun t =>
      readCell t 0x80000000 == some 0xFFFFFFF9 && readCell t 96 == some 77 = true := by decide
theorem test_store_sorts_negative_first :
    leads (exec (.store 2 1 (-1)) (operands 0 9)) (dumpMemory · == [(-1, 9), (96, 77)]) = true := by decide
theorem test_branch_taken : leads (exec (.branchNotZero 1 (-2)) (operands 256 0)) (·.fetchPtr == 0) = true := by
  decide
theorem test_branch_not_taken : leads (exec (.branchNotZero 2 (-2)) (operands 256 0)) (·.fetchPtr == 3) = true := by
  decide

/-! ### The cycle -/

/-- The LOAD of V1 at index 0 and its STORE at index 1. -/
def loadV1 : Instr := .load 2 0 100
def storeV1 : Instr := .store 2 0 104
def imageV1 : List InstrWord := [encode loadV1, encode storeV1]

/-- V1 before cycle 5: the LOAD in EX, the STORE in ID with its stall pending. -/
def beforeStall : State :=
  { small imageV1 ⟨none, none, some { decodedSlot storeV1 1 with stallPending := true },
      some (executedSlot loadV1 0 0 0 100), none, none, none⟩ 2 with seqNext := 3, eop := true, cycle := 4 }

/-- V1 cycle 5: the stall cycle. -/
theorem test_stall_cycle :
    leads (step beforeStall) fun t =>
      t.report == [⟨2, .stall⟩, ⟨1, .MEM1⟩] && t.lat.mem1.any (·.memoryDatum == some 42) && t.cycle == 5
        = true := by decide

/-- V1 cycle 6: the STORE executes with the datum of the LOAD in MEM2. -/
theorem test_stall_is_one_shot :
    leads (step (after (step beforeStall))) fun t =>
      t.report == [⟨2, .EX⟩, ⟨1, .MEM2⟩] && t.lat.ex.any (fun q => q.opVal2 == some 42 && q.aluResult == some 104)
        = true := by decide

/-- V5 before cycle 4: a taken branch in ID with two slots behind it. -/
def branchV5 : Instr := .branchNotZero 1 3
def imageV5 : List InstrWord := [encode branchV5, encode (.addReg 2 2 2), encode (.addReg 3 3 3), encode (.subReg 4 4 1)]
def beforeSquash : State :=
  { small imageV5 ⟨some (fetchedSlot (.addReg 3 3 3) 2), some (fetchedSlot (.addReg 2 2 2) 1),
      some (decodedSlot branchV5 0), none, none, none, none⟩ 3 with seqNext := 4, cycle := 3 }

theorem test_squash_and_redirect :
    leads (step beforeSquash) fun t => t.report == [⟨4, .IF1⟩, ⟨1, .EX⟩] && t.fetchPtr == 4 = true := by decide

/-- V40 (e): an illegal word directly behind a taken branch. -/
theorem test_illegal_word_behind_branch :
    leads (step { beforeSquash with
        img := [encode branchV5, 0x5000000000000000#64]
        lat := { beforeSquash.lat with if2 := some (newSlot 0x5000000000000000#64 1 2) } })
      (·.fault == some (.illegalInstruction 1 0x5000000000000000#64)) = true := by decide

/-- V40 (g): the older fault of a cycle is the one raised. -/
def beforeTwoFaults : State :=
  { small [encode (.load 1 0 4), encode (.addReg 2 9 9)]
      ⟨none, none, some (decodedSlot (.addReg 2 9 9) 1), some (executedSlot (.load 1 0 4) 0 0 0 4),
        none, none, none⟩ 2 with seqNext := 3, cycle := 4 }

theorem test_older_fault_first :
    leads (step beforeTwoFaults) (·.fault == some (.memoryAbsent 4)) = true := by decide

/-- Nearest producer: V9, cycle 7. -/
theorem test_nearest_producer :
    fwd (inPhaseOf .ex ⟨none, none, none, none, some (accessedSlot (.subLit 1 1 (-10)) 2 6 0 16 0),
        some (accessedSlot (.addLit 1 1 1) 1 5 0 6 0), some (accessedSlot (.addLit 1 0 5) 0 0 0 5 0)⟩) 1
      = .value 16 := by decide

theorem test_placed_word_runs :
    leads (step (State.withFetchWord { State.reset with rf := [(0, 7)] } 64 0x0801000000000005))
      (fun t => t.lat.ex.any (·.aluResult == some 12)) = true := by decide

/-! ### Witnesses: for every statement with hypotheses, a state and operands that meet them -/

/-- A host's image, and the machine it boots. -/
def hostRegs : List (RegIdx × Word) := [(1, 5), (0, 0)]
def hostCells : List (Word × Word) := [(100, 42), (0xFFFFFFFF, 1)]
def booted (img : List InstrWord) : State := (boot hostRegs hostCells img).getD State.reset

theorem booted_eq (img : List InstrWord) (h : imageWellFormed img = true) :
    boot hostRegs hostCells img = some (booted img) := by
  have h1 : (distinctKeys (registerLines hostRegs) && distinctKeys (memoryLines hostCells)) = true := by decide
  simp [booted, boot, h1, h]

theorem witness_LegalWordsAndRecordsCorrespond :
    decode 0x2000000200000064#64 = .ok (.load 2 0 100) ∧
    (Instr.load 2 0 100).toRecord = (Instr.load 2 0 100).toRecord ∧
    Record.wellFormed ⟨.load, none, some 0, some 2, some 100⟩ = true := ⟨rfl, rfl, rfl⟩

theorem witness_LegalWordsAreOfExactlyOneForm :
    decode 0x40000100FFFFFFFE#64 = .ok (.branchNotZero 1 (-2)) ∧
    ∃ f ∈ wordForms, f.accepts 0x40000100FFFFFFFE#64 = true := ⟨rfl, by decide⟩

theorem witness_LabelDistanceReachesTheLabel :
    (0 < Config.imageLimit ∧ 2147483647 < Config.imageLimit) ∧
    labelDistance 0 2147483647 = BitVec.ofInt 32 (-2147483647) := by decide

theorem witness_StateAfterReset : ∃ s, boot hostRegs hostCells imageV1 = some s := ⟨_, booted_eq _ (by decide)⟩

theorem witness_BootRefusesDuplicatesAndLongImages :
    boot [(1, 5), (1, 5)] [] [] = none ∧ boot [] [(1, 5), (1, 5)] [] = none ∧ boot [] [] [0] ≠ none := by decide

theorem witness_ResetKeepsWhatTheHostLoaded :
    ∃ s t : State, s.finished = true ∧ t.fault ≠ none ∧ t.lat ≠ Latches.empty :=
  ⟨{ State.reset with finished := true }, { beforeStall with fault := some (.registerAbsent 9) }, by decide⟩

theorem witness_InvariantHoldsAfterBoot : ∃ s, boot hostRegs hostCells imageV5 = some s :=
  ⟨_, booted_eq _ (by decide)⟩

theorem witness_EmptyProgramTakesOneCycle : ∃ s, boot hostRegs hostCells [] = some s := ⟨_, booted_eq _ (by decide)⟩

theorem witness_StepKeepsTheInvariant :
    (∃ t, Inv beforeStall ∧ step beforeStall = .next t) ∧ (∃ t, Inv beforeSquash ∧ step beforeSquash = .next t) ∧
    (∃ t, Inv beforeTwoFaults ∧ step beforeTwoFaults = .next t) :=
  ⟨⟨_, inv_of (by decide), next_of_answer (by decide)⟩, ⟨_, inv_of (by decide), next_of_answer (by decide)⟩,
    ⟨_, inv_of (by decide), next_of_answer (by decide)⟩⟩

theorem witness_StepAlwaysAnswers : Inv beforeStall := inv_of (by decide)

theorem witness_CycleIsThePseudocode : Inv beforeSquash := inv_of (by decide)

/-- One instruction, run to its end. -/
def oneAdd : State := booted [encode (.addLit 1 1 7)]

theorem witness_PipelineAgreesWithSequentialLevel :
    ∃ t, boot hostRegs hostCells [encode (.addLit 1 1 7)] = some oneAdd ∧ runFor 8 oneAdd = .next t ∧
      completed t = true :=
  ⟨_, booted_eq _ (by decide), next_of_answer (by decide), by decide⟩

theorem witness_LevelsAgreeOnTheFault :
    ∃ t u, boot hostRegs hostCells [encode (.load 1 0 4)] = some (booted [encode (.load 1 0 4)]) ∧
      allLegal [encode (.load 1 0 4)] = true ∧
      runFor 5 (booted [encode (.load 1 0 4)]) = .next t ∧ t.fault = some (.memoryAbsent 4) ∧
      seqRun 1 (booted [encode (.load 1 0 4)]) = .next u ∧ u.fault = some (.memoryAbsent 4) :=
  ⟨_, _, booted_eq _ (by decide), by decide, next_of_answer (by decide), by decide, next_of_answer (by decide),
    by decide⟩

theorem witness_CycleCountFormula :
    ∃ t, boot hostRegs hostCells [encode (.addLit 1 1 7)] = some oneAdd ∧ runFor 8 oneAdd = .next t ∧
      completed t = true ∧ 1 ≤ (tally 8 oneAdd).executed :=
  ⟨_, booted_eq _ (by decide), next_of_answer (by decide), by decide, by decide⟩

theorem witness_LoneInstructionHasItsWholeEffect :
    ∃ t, boot hostRegs hostCells [encode (.addLit 1 1 7)] = some oneAdd ∧ exec (.addLit 1 1 7) oneAdd = .next t ∧
      t.fault = none ∧ 1 ≤ t.fetchPtr.toInt :=
  ⟨_, booted_eq _ (by decide), next_of_answer (by decide), by decide, by decide⟩

/-- A slot in each stage that runs one. -/
def fullLatches : Latches :=
  ⟨none, some (fetchedSlot loadV1 3), some (decodedSlot loadV1 2), some (executedSlot loadV1 1 0 0 100), none, none,
    some (accessedSlot loadV1 0 0 0 100 42)⟩

theorem witness_StepRunsTheDecodedInstruction :
    decode (fetchedSlot loadV1 3).instr = .ok loadV1 ∧ decode (decodedSlot loadV1 2).instr = .ok loadV1 ∧
    terminal (small [] fullLatches 4) = false ∧
    (∃ q, fullLatches.id = some q ∧ q.instr = encode loadV1 ∧ q.stallPending = false) ∧
    (∃ q, fullLatches.mem3 = some q ∧ q.instr = encode loadV1) ∧
    (∃ q, fullLatches.ex = some q ∧ q.instr = encode loadV1) ∧
    (∃ q, fullLatches.if2 = some q ∧ q.instr = encode loadV1) :=
  ⟨rfl, rfl, rfl, ⟨_, rfl, rfl, rfl⟩, ⟨_, rfl, rfl⟩, ⟨_, rfl, rfl⟩, ⟨_, rfl, rfl⟩⟩

theorem witness_SequentialStepRunsTheDecodedInstruction :
    terminal oneAdd = false ∧ imageAt oneAdd oneAdd.fetchPtr = some (encode (.addLit 1 1 7)) ∧
    decode (encode (.addLit 1 1 7)) = .ok (.addLit 1 1 7) := by
  refine ⟨by decide, by decide, rfl⟩

theorem witness_PlacedWordRunsInTheNextStep :
    drained State.reset.lat = true ∧ decodeTableWord 64 0x0801000000000005 = some (.addLit 1 0 5) := by decide

theorem witness_ImageIsImmutable : ∃ t, step beforeSquash = .next t := ⟨_, next_of_answer (by decide)⟩

/-- A STORE in MEM1 and a LOAD in WB. -/
def bothWrite : State :=
  small [] ⟨none, none, none, some (executedSlot storeV1 1 0 9 104), none, none,
    some (accessedSlot loadV1 0 0 0 100 42)⟩ 0

theorem witness_OnlyWritebackAndMem1Write :
    ∃ t, step bothWrite = .next t ∧ readReg t 2 ≠ readReg bothWrite 2 ∧
      readCell t 104 ≠ readCell bothWrite 104 :=
  ⟨_, next_of_answer (by decide), by decide, by decide⟩

theorem witness_EndOfCycleCountsAndFinishes :
    (∃ t, terminal beforeStall = false ∧ step beforeStall = .next t ∧ t.fault = none ∧ t.finished = false) ∧
    (∃ t, terminal State.reset = false ∧ step State.reset = .next t ∧ t.fault = none ∧ t.finished = true) :=
  ⟨⟨_, by decide, next_of_answer (by decide), by decide, by decide⟩,
    ⟨_, by decide, next_of_answer (by decide), by decide, by decide⟩⟩

theorem witness_ReportListsTheOccupiedStages :
    (∃ t, terminal beforeStall = false ∧ step beforeStall = .next t ∧ t.fault = none) ∧
    (∃ t, terminal beforeSquash = false ∧ step beforeSquash = .next t ∧ t.fault = none) :=
  ⟨⟨_, by decide, next_of_answer (by decide), by decide⟩, ⟨_, by decide, next_of_answer (by decide), by decide⟩⟩

theorem witness_FatalConditionStopsTheEngine :
    ∃ t, terminal beforeTwoFaults = false ∧ step beforeTwoFaults = .next t ∧ t.fault ≠ none :=
  ⟨_, by decide, next_of_answer (by decide), by decide⟩

theorem witness_AddWholeEffect :
    (operands (-1) 1).phase = .atRest ∧ readReg (operands (-1) 1) 1 = some 0xFFFFFFFF ∧
    readReg (operands (-1) 1) 2 = some 1 := by decide

theorem witness_SubWholeEffect :
    (operands 0 1).phase = .atRest ∧ readReg (operands 0 1) 1 = some 0 ∧ readReg (operands 0 1) 2 = some 1 := by
  decide

/-- A present cell (96) and an absent one (104). -/
theorem witness_LoadWholeEffect :
    (operands 100 0).phase = .atRest ∧ readReg (operands 100 0) 1 = some 100 ∧
    (((96 : Word).toNat : Int) = (((100 : Word).toNat : Int) + (-4 : Imm).toInt) % 2 ^ 32 ∧
      readCell (operands 100 0) 96 = some 77) ∧
    (((104 : Word).toNat : Int) = (((100 : Word).toNat : Int) + (4 : Imm).toInt) % 2 ^ 32 ∧
      readCell (operands 100 0) 104 = none) := by decide

theorem witness_StoreWholeEffect :
    (operands 2147483647 (-7)).phase = .atRest ∧ readReg (operands 2147483647 (-7)) 1 = some 0x7FFFFFFF ∧
    readReg (operands 2147483647 (-7)) 2 = some 0xFFFFFFF9 ∧
    effectiveAddress 0x7FFFFFFF 1 = 0x80000000 := by decide

/-- A register with one bit set, and one that is zero. -/
theorem witness_BranchWholeEffect :
    (operands (-2147483648) 0).phase = .atRest ∧ readReg (operands (-2147483648) 0) 1 = some 0x80000000 ∧
    readReg (operands (-2147483648) 0) 2 = some 0 := by decide

theorem witness_AbsentRegisterRaisesAsAWhole :
    (operands 1 2).phase = .atRest ∧
    readReg (operands 1 2) (readReg1Of (.addReg 1 9 2)) = none ∧
    readReg (operands 1 2) (readReg1Of (.store 9 1 0)) = some 1 ∧ readReg2Of (.store 9 1 0) = some 9 ∧
    readReg (operands 1 2) 9 = none := by decide

theorem witness_DecodePhaseFillsTheSlot :
    ∃ q, (inPhaseOf .id fullLatches).phase = .id ∧ (inPhaseOf .id fullLatches).lat.if2 = some q := ⟨_, rfl, rfl⟩

theorem witness_DestinationSelectorPicksWriteReg :
    (signalsOf (.addReg 1 2 3)).destRegisterIsSecondSource = .dest ∧
    (signalsOf (.load 1 2 3)).destRegisterIsSecondSource = .second ∧
    (signalsOf (.store 1 2 3)).destRegisterIsSecondSource = .na := by decide

/-- The latches of an EX phase for `i`. -/
def inEx (i : Instr) : Latches := ⟨none, none, some (decodedSlot i 0), none, none, none, none⟩

theorem decodedFrom_slot (i : Instr) (n : Nat) : decodedFrom i (decodedSlot i n) :=
  ⟨rfl, rfl, rfl, rfl, rfl, rfl, rfl, rfl⟩

theorem witness_ExecutePhaseComputes :
    (inPhaseOf .ex (inEx (.subReg 4 1 2))).phase = .ex ∧
    (inPhaseOf .ex (inEx (.subReg 4 1 2))).lat.id = some (decodedSlot (.subReg 4 1 2) 0) ∧
    decodedFrom (.subReg 4 1 2) (decodedSlot (.subReg 4 1 2) 0) ∧
    fwd (inPhaseOf .ex (inEx (.subReg 4 1 2))) (readReg1Of (.subReg 4 1 2)) = .value 5 ∧
    (∀ r, readReg2Of (.subReg 4 1 2) = some r → fwd (inPhaseOf .ex (inEx (.subReg 4 1 2))) r = .value 7) :=
  ⟨rfl, rfl, decodedFrom_slot _ _, by decide, by intro r h; cases h; decide⟩

/-- The first operand absent, and only the second absent. -/
theorem witness_ExecutePhaseRaisesRegisterAbsent :
    (decodedFrom (.subReg 4 9 2) (decodedSlot (.subReg 4 9 2) 0) ∧
      (inPhaseOf .ex (inEx (.subReg 4 9 2))).lat.id = some (decodedSlot (.subReg 4 9 2) 0) ∧
      fwd (inPhaseOf .ex (inEx (.subReg 4 9 2))) 9 = .absent) ∧
    (decodedFrom (.store 9 1 0) (decodedSlot (.store 9 1 0) 0) ∧
      (inPhaseOf .ex (inEx (.store 9 1 0))).lat.id = some (decodedSlot (.store 9 1 0) 0) ∧
      fwd (inPhaseOf .ex (inEx (.store 9 1 0))) 1 = .value 5 ∧ readReg2Of (.store 9 1 0) = some 9 ∧
      fwd (inPhaseOf .ex (inEx (.store 9 1 0))) 9 = .absent) :=
  ⟨⟨decodedFrom_slot _ _, rfl, by decide⟩, decodedFrom_slot _ _, rfl, by decide, rfl, by decide⟩

/-- The latches of a MEM1 phase for `i` with address `a`, and of a branch evaluation. -/
def inMem1 (i : Instr) (a : Word) : Latches := ⟨none, none, none, some (executedSlot i 0 5 9 a), none, none, none⟩

theorem decodedFrom_executed (i : Instr) (n : Nat) (a b r : Word) : decodedFrom i (executedSlot i n a b r) :=
  ⟨rfl, rfl, rfl, rfl, rfl, rfl, rfl, rfl⟩

/-- A LOAD of a present and of an absent cell, a STORE, another instruction. -/
theorem witness_Mem1PhaseAccessesMemory :
    (inPhaseOf .mem1 (inMem1 loadV1 100)).phase = .mem1 ∧ decodedFrom loadV1 (executedSlot loadV1 0 5 9 100) ∧
    (inPhaseOf .mem1 (inMem1 loadV1 100)).lat.ex = some (executedSlot loadV1 0 5 9 100) ∧
    readCell (inPhaseOf .mem1 (inMem1 loadV1 100)) 100 = some 42 ∧
    readCell (inPhaseOf .mem1 (inMem1 loadV1 101)) 101 = none ∧
    (executedSlot storeV1 0 5 9 104).aluResult = some 104 ∧ (executedSlot storeV1 0 5 9 104).opVal2 = some 9 ∧
    (inPhaseOf .mem1 (inMem1 storeV1 104)).lat.ex = some (executedSlot storeV1 0 5 9 104) ∧
    decodedFrom storeV1 (executedSlot storeV1 0 5 9 104) ∧
    decodedFrom (.addReg 1 2 3) (executedSlot (.addReg 1 2 3) 0 5 9 14) :=
  ⟨rfl, decodedFrom_executed _ _ _ _ _, rfl, by decide, by decide, rfl, rfl, rfl, decodedFrom_executed _ _ _ _ _,
    decodedFrom_executed _ _ _ _ _⟩

/-- The latches of a WB phase for `i`. -/
def inWb (i : Instr) : Latches := ⟨none, none, none, none, none, none, some (accessedSlot i 0 0 0 100 42)⟩

theorem decodedFrom_accessed (i : Instr) (n : Nat) (a b r v : Word) : decodedFrom i (accessedSlot i n a b r v) :=
  ⟨rfl, rfl, rfl, rfl, rfl, rfl, rfl, rfl⟩

theorem witness_WritebackPhaseWritesTheResult :
    (inPhaseOf .wb (inWb loadV1)).phase = .wb ∧
    (inPhaseOf .wb (inWb loadV1)).lat.mem3 = some (accessedSlot loadV1 0 0 0 100 42) ∧
    decodedFrom loadV1 (accessedSlot loadV1 0 0 0 100 42) ∧
    (accessedSlot loadV1 0 0 0 100 42).memoryDatum = some 42 ∧
    (accessedSlot (.subReg 1 2 3) 0 0 0 100 42).aluResult = some 100 :=
  ⟨rfl, rfl, decodedFrom_accessed _ _ _ _ _ _, rfl, rfl⟩

theorem witness_WritebackPhaseRetiresWithoutResult :
    (inPhaseOf .wb (inWb storeV1)).phase = .wb ∧
    (inPhaseOf .wb (inWb storeV1)).lat.mem3 = some (accessedSlot storeV1 0 0 0 100 42) ∧
    decodedFrom storeV1 (accessedSlot storeV1 0 0 0 100 42) ∧ storeV1.opcode = .store :=
  ⟨rfl, rfl, decodedFrom_accessed _ _ _ _ _ _, rfl⟩

/-- A taken branch, one not taken, another instruction. -/
theorem witness_BranchEvaluationSquashesAndRedirects :
    (inPhaseOf .if1 (inMem1 branchV5 0)).phase = .if1 ∧
    (inPhaseOf .if1 (inMem1 branchV5 0)).lat.ex = some (executedSlot branchV5 0 5 9 0) ∧
    decodedFrom branchV5 (executedSlot branchV5 0 5 9 0) ∧
    (executedSlot branchV5 0 5 9 0).isZero = some false ∧ (executedSlot branchV5 0 0 9 0).isZero = some true ∧
    decodedFrom loadV1 (executedSlot loadV1 0 5 9 100) :=
  ⟨rfl, rfl, decodedFrom_executed _ _ _ _ _, rfl, rfl, decodedFrom_executed _ _ _ _ _⟩

/-- Each case at its ends: -1; 0 and N - 1; N and the greatest word. -/
theorem witness_FetchPhaseCases :
    (small imageV5 Latches.empty (-1)).fetchPtr.toInt < 0 ∧
    (0 ≤ (small imageV5 Latches.empty 0).fetchPtr.toInt ∧ 0 < imageLength (small imageV5 Latches.empty 0)) ∧
    (small imageV5 Latches.empty 3).fetchPtr.toInt < (imageLength (small imageV5 Latches.empty 3) : Int) ∧
    (imageLength (small imageV5 Latches.empty 4) : Int) ≤ (small imageV5 Latches.empty 4).fetchPtr.toInt ∧
    (imageLength (small imageV5 Latches.empty 0) : Int) ≤ (small imageV5 Latches.empty 2147483647).fetchPtr.toInt := by
  decide

theorem witness_HazardCheckFindsLoadsInExAndMem1 :
    hazard (decodedSlot storeV1 1) (some (executedSlot loadV1 0 0 0 100)) none = true ∧
    hazard (decodedSlot storeV1 1) none (some (accessedSlot loadV1 0 0 0 100 42)) = true ∧
    (∃ q, (inPhaseOf .id fullLatches).phase = .id ∧ (inPhaseOf .id fullLatches).lat.if2 = some q) :=
  ⟨by decide, by decide, _, rfl, rfl⟩

/-- One machine for each clause: the producer in MEM1, in MEM2, in MEM3, nowhere. -/
theorem witness_NearestProducerWins :
    (∃ q, (small [] ⟨none, none, none, none, some (accessedSlot (.addLit 1 0 5) 2 0 0 5 0), none, none⟩ 0).lat.mem1
        = some q ∧ q.registerWriteEnabled = true ∧ q.writeReg = some 1 ∧ q.opcode = some .add ∧
        q.aluResult = some 5) ∧
    (∃ p q, (small [] ⟨none, none, none, none, some (accessedSlot (.load 1 0 100) 3 0 0 100 42),
        some (accessedSlot (.load 1 0 100) 2 0 0 100 42), none⟩ 0).lat.mem1 = some p ∧
        p.registerWriteEnabled = true ∧ p.writeReg = some 1 ∧ p.opcode ≠ some .add ∧ p.opcode ≠ some .sub ∧
        some (accessedSlot (.load 1 0 100) 2 0 0 100 42) = some q ∧ q.registerWriteEnabled = true ∧
        q.writeReg = some 1 ∧ q.opcode = some .load ∧ q.memoryDatum = some 42) ∧
    (small [] ⟨none, none, none, none, none, none, some (accessedSlot (.subLit 1 0 5) 2 0 0 5 0)⟩ 0).lat.mem1 = none ∧
    (accessedSlot (.subLit 1 0 5) 2 0 0 5 0).aluResult = some 5 ∧
    (small [] Latches.empty 0).lat.mem3 = none ∧ readReg (small [] Latches.empty 0) 9 = none ∧
    readReg (small [] Latches.empty 0) 1 = some 5 :=
  ⟨⟨_, rfl, rfl, rfl, rfl, rfl⟩, ⟨_, _, rfl, rfl, rfl, by decide, by decide, rfl, rfl, rfl, rfl, rfl⟩, rfl, rfl, rfl,
    by decide, by decide⟩

/-- A LOAD enters MEM1, and another MEM2, in the cycle in which a slot that does not read their register executes. -/
def besideLoad : State :=
  small [encode loadV1, encode loadV1, encode (.addReg 3 1 1)]
    ⟨none, none, some (decodedSlot (.addReg 3 1 1) 2), some (executedSlot loadV1 1 0 0 100),
      some (accessedSlot loadV1 0 0 0 100 42), none, none⟩ 3

theorem witness_StallPolicySuffices :
    ∃ s1 q p p', Inv besideLoad ∧ terminal besideLoad = false ∧ backPhases besideLoad = .next s1 ∧
      s1.lat.id = some q ∧ q.stallPending = false ∧
      (s1.lat.mem1 = some p ∧ p.opcode = some .load ∧ p.writeReg = some 2) ∧
      (s1.lat.mem2 = some p' ∧ p'.opcode = some .load) :=
  ⟨after (backPhases besideLoad), decodedSlot (.addReg 3 1 1) 2,
    { executedSlot loadV1 1 0 0 100 with memoryDatum := some 42 }, accessedSlot loadV1 0 0 0 100 42,
    inv_of (by decide), by decide, next_of_answer (by decide), by decide, by decide,
    ⟨by decide, by decide, by decide⟩, by decide, by decide⟩

theorem witness_StallCycleFreezesTheFront :
    ∃ t q, Inv beforeStall ∧ terminal beforeStall = false ∧ beforeStall.lat.id = some q ∧ q.stallPending = true ∧
      step beforeStall = .next t ∧ t.fault = none :=
  ⟨after (step beforeStall), _, inv_of (by decide), by decide, rfl, rfl, next_of_answer (by decide), by decide⟩

/-- With a taken branch and without. -/
theorem witness_SlotsMoveOneStageOn :
    (∃ t, Inv beforeSquash ∧ terminal beforeSquash = false ∧ beforeSquash.lat.id.any (·.stallPending) = false ∧
      step beforeSquash = .next t ∧ t.fault = none ∧ t.lat.ex.any takenBranch = true) ∧
    (∃ t, Inv besideLoad ∧ terminal besideLoad = false ∧ besideLoad.lat.id.any (·.stallPending) = false ∧
      step besideLoad = .next t ∧ t.fault = none ∧ t.lat.ex.any takenBranch = false) :=
  ⟨⟨_, inv_of (by decide), by decide, by decide, next_of_answer (by decide), by decide, by decide⟩,
    ⟨_, inv_of (by decide), by decide, by decide, next_of_answer (by decide), by decide, by decide⟩⟩

/-- A taken branch into the image, and a cycle that finds the end of the program. -/
theorem witness_TakenBranchFetchesItsTarget :
    (∃ t, Inv beforeSquash ∧ terminal beforeSquash = false ∧ beforeSquash.lat.id.any (·.stallPending) = false ∧
      step beforeSquash = .next t ∧ t.fault = none ∧ t.lat.ex.any takenBranch = true ∧ t.eop = false) ∧
    (∃ t, Inv besideLoad ∧ terminal besideLoad = false ∧ besideLoad.lat.id.any (·.stallPending) = false ∧
      step besideLoad = .next t ∧ t.fault = none ∧ t.lat.ex.any takenBranch = false ∧ t.eop = true) :=
  ⟨⟨_, inv_of (by decide), by decide, by decide, next_of_answer (by decide), by decide, by decide, by decide⟩,
    ⟨_, inv_of (by decide), by decide, by decide, next_of_answer (by decide), by decide, by decide, by decide⟩⟩

theorem witness_AbsentCellRaisesBeforeAnythingYounger :
    Inv beforeTwoFaults ∧ terminal beforeTwoFaults = false ∧ dmemReadEnable beforeTwoFaults = true ∧
    dmemAddr beforeTwoFaults = some 4 ∧ dmemPresent beforeTwoFaults = false :=
  ⟨inv_of (by decide), by decide, by decide, by decide, by decide⟩

/-- The executing `i`, with an illegal word behind it. -/
def beforeAbsent (i : Instr) : State :=
  small [encode i, 0x5000000000000000#64]
    ⟨none, some (newSlot 0x5000000000000000#64 1 2), some (decodedSlot i 0), none, none, none, none⟩ 2

/-- The first operand absent, and only the second. -/
theorem witness_AbsentRegisterRaisesBeforeAnythingYounger :
    (∃ s1 q, Inv (beforeAbsent (.addReg 2 9 9)) ∧ terminal (beforeAbsent (.addReg 2 9 9)) = false ∧
      backPhases (beforeAbsent (.addReg 2 9 9)) = .next s1 ∧ s1.fault = none ∧ s1.lat.id = some q ∧
      q.stallPending = false ∧ q.readReg1 = some 9 ∧ fwd s1 9 = .absent) ∧
    (∃ s1 q, Inv (beforeAbsent (.store 9 1 0)) ∧ terminal (beforeAbsent (.store 9 1 0)) = false ∧
      backPhases (beforeAbsent (.store 9 1 0)) = .next s1 ∧ s1.fault = none ∧ s1.lat.id = some q ∧
      q.stallPending = false ∧ q.readReg1 = some 1 ∧ fwd s1 1 = .value 5 ∧ q.readReg2 = some 9 ∧
      fwd s1 9 = .absent) :=
  ⟨⟨after (backPhases (beforeAbsent (.addReg 2 9 9))), decodedSlot (.addReg 2 9 9) 0, inv_of (by decide), by decide,
      next_of_answer (by decide), by decide, by decide, by decide, by decide, by decide⟩,
    ⟨after (backPhases (beforeAbsent (.store 9 1 0))), decodedSlot (.store 9 1 0) 0, inv_of (by decide), by decide,
      next_of_answer (by decide), by decide, by decide, by decide, by decide, by decide, by decide, by decide⟩⟩

/-- An illegal word about to be decoded, with nothing older in flight. -/
def beforeIllegal : State :=
  small [0x5000000000000000#64] ⟨none, some (newSlot 0x5000000000000000#64 0 1), none, none, none, none, none⟩ 1

theorem witness_IllegalWordRaisesWhenDecoded :
    ∃ s1 s2 q e, Inv beforeIllegal ∧ terminal beforeIllegal = false ∧ backPhases beforeIllegal = .next s1 ∧
      s1.fault = none ∧ beforeIllegal.lat.id.any (·.stallPending) = false ∧ exPhase s1 = .next s2 ∧ s2.fault = none ∧
      beforeIllegal.lat.if2 = some q ∧ decode q.instr = .error e :=
  ⟨after (backPhases beforeIllegal), after (exPhase (after (backPhases beforeIllegal))),
    newSlot 0x5000000000000000#64 0 1, .unknownOpcode, inv_of (by decide), by decide, next_of_answer (by decide),
    by decide, by decide, next_of_answer (by decide), by decide, rfl, rfl⟩

theorem witness_IllegalInstructionOnlyFromDecode :
    ∃ t, terminal beforeIllegal = false ∧ step beforeIllegal = .next t ∧
      t.fault = some (.illegalInstruction 0 0x5000000000000000#64) :=
  ⟨_, by decide, next_of_answer (by decide), by decide⟩

/-- V40 (d): a taken branch to index -1. -/
def beforeOutOfRange : State := small [encode (.branchNotZero 1 (-1))] (inEx (.branchNotZero 1 (-1))) 1

theorem witness_FetchOutOfRangeOnlyFromTakenBranch :
    ∃ t, Inv beforeOutOfRange ∧ terminal beforeOutOfRange = false ∧ step beforeOutOfRange = .next t ∧
      t.fault = some (.fetchOutOfRange 0xFFFFFFFF) :=
  ⟨_, inv_of (by decide), by decide, next_of_answer (by decide), by decide⟩

/-- The ends of the address range and of the index range. -/
def fullRange : State :=
  { State.reset with
    rf := [(0, 1), (255, 2)], mem := [(0, 1), (2147483647, 2), (2147483648, 3), (4294967295, 4)] }

theorem witness_DumpIsCompleteAndAscending :
    Memory.wf fullRange.mem = true ∧ RegFile.wf fullRange.rf = true ∧
    dumpMemory fullRange = [(-2147483648, 3), (-1, 4), (0, 1), (2147483647, 2)] ∧
    readCell fullRange 0x80000000 = some 3 ∧ readReg fullRange 255 = some 2 ∧
    (255, 2) ∈ dumpRegisters fullRange := by decide

end Sys2Proof.Tests
end

section
/-! What a cycle leaves unchanged and what it writes (10_state R23, R34, 20_memory R41, R52): one frame equation for
each phase, and from them the one place each where a step writes a register and a memory cell. -/

namespace Sys2Proof.Proofs

open Sys2Proof Sys2Proof.Machine Sys2Proof.Laws

/-- The register file after `s` is the one before, or has the write-back of the slot in WB (R82). -/
def WritesBack (s : State) (rf : RegFile) : Prop :=
  rf = s.rf ∨
  ∃ q r v, s.lat.mem3 = some q ∧ q.registerWriteEnabled = true ∧ q.writeReg = some r ∧ rf = mapSet s.rf r.toNat v

/-- The memory after `s` is the one before, or has the store of the slot in MEM1 (R84). -/
def StoresCell (s : State) (mem : Memory) : Prop :=
  mem = s.mem ∨
  ∃ q a v, s.lat.ex = some q ∧ q.memoryWriteEnabled = true ∧ q.aluResult = some a ∧ mem = mapSet s.mem a.toNat v

theorem WritesBack.of_readReg_ne {s t : State} {r : RegIdx} (h : WritesBack s t.rf)
    (hne : readReg t r ≠ readReg s r) :
    ∃ q, s.lat.mem3 = some q ∧ q.registerWriteEnabled = true ∧ q.writeReg = some r := by
  rcases h with hrf | ⟨q, r', v, hq, hen, hr', hrf⟩
  · exact absurd (congrArg (mapGet · r.toNat) hrf) hne
  · by_cases hr : r = r'
    · exact ⟨q, hq, hen, hr ▸ hr'⟩
    · have hget : readReg t r = readReg (writeReg s r' v) r := congrArg (mapGet · r.toNat) hrf
      exact absurd (hget.trans (readReg_writeReg_of_ne s v hr)) hne

theorem StoresCell.of_readCell_ne {s t : State} {a : Word} (h : StoresCell s t.mem)
    (hne : readCell t a ≠ readCell s a) :
    ∃ q, s.lat.ex = some q ∧ q.memoryWriteEnabled = true ∧ q.aluResult = some a := by
  rcases h with hmem | ⟨q, a', v, hq, hen, ha', hmem⟩
  · exact absurd (congrArg (mapGet · a.toNat) hmem) hne
  · by_cases ha : a = a'
    · exact ⟨q, hq, hen, ha ▸ ha'⟩
    · have hget : readCell t a = readCell (writeCell s a' v) a := congrArg (mapGet · a.toNat) hmem
      exact absurd (hget.trans (readCell_writeCell_of_ne s v ha)) hne

theorem WritesBack.keeps_wf {s : State} {rf : RegFile} (h : WritesBack s rf) (hwf : RegFile.wf s.rf = true) :
    RegFile.wf rf = true := by
  rcases h with rfl | ⟨_, r, v, _, _, _, rfl⟩
  · exact hwf
  · exact writeReg_keeps_wf r v hwf

theorem StoresCell.keeps_wf {s : State} {mem : Memory} (h : StoresCell s mem) (hwf : Memory.wf s.mem = true) :
    Memory.wf mem = true := by
  rcases h with rfl | ⟨_, a, v, _, _, _, rfl⟩
  · exact hwf
  · exact writeCell_keeps_wf a v hwf

/-! ### The frame of each phase -/

theorem wbPhase_writes {s t : State} (h : wbPhase s = .next t) : WritesBack s t.rf := by
  obtain ⟨-, hrf⟩ := wbPhase_next h
  rcases hrf with ⟨-, hrf⟩ | ⟨_, -, -, hrf⟩ | ⟨q, r, v, hq, hen, hr, -, hrf⟩
  · exact .inl hrf
  · exact .inl hrf
  · exact .inr ⟨q, r, v, hq, hen, hr, hrf⟩

theorem mem1Phase_frame {s t : State} (h : mem1Phase s = .next t) :
    t = { s with mem := t.mem, lat := t.lat, fault := t.fault, phase := t.phase } ∧ StoresCell s t.mem := by
  rcases mem1Phase_next h with ⟨-, rfl⟩ | ⟨_, _, -, -, -, -, rfl⟩ | ⟨q, q', hq, ht, -, hmem⟩
  · exact ⟨rfl, .inl rfl⟩
  · exact ⟨rfl, .inl rfl⟩
  · refine ⟨by rw [ht], ?_⟩
    rcases hmem with ⟨-, hmem⟩ | ⟨a, v, hen, ha, -, hmem⟩
    · exact .inl hmem
    · exact .inr ⟨q, a, v, hq, hen, ha, hmem⟩

theorem exPhase_frame {s t : State} (h : exPhase s = .next t) :
    t = { s with lat := t.lat, fault := t.fault, phase := t.phase } := by
  rcases exPhase_next h with ⟨-, rfl⟩ | ⟨_, _, _, _, -, -, -, rfl, -⟩ | ⟨_, _, -, -, -, rfl⟩ <;> rfl

theorem idPhase_frame {s t : State} (h : idPhase s = .next t) :
    t = { s with lat := t.lat, fault := t.fault, phase := t.phase } := by
  rcases idPhase_next h with ⟨-, rfl⟩ | ⟨_, _, -, -, rfl⟩ | ⟨_, _, -, -, rfl⟩ <;> rfl

theorem branchPhase_frame {s t : State} (h : branchPhase s = .next t) :
    t = { s with lat := t.lat, fetchPtr := t.fetchPtr, phase := t.phase } := by
  rcases branchPhase_next h with ⟨-, ht⟩ | ⟨_, _, -, -, -, rfl⟩
  · rw [ht]
  · rfl

theorem fetch_frame {s t : State} (h : fetch s = .next t) :
    t = { s with lat := t.lat, fetchPtr := t.fetchPtr, seqNext := t.seqNext, eop := t.eop, fault := t.fault } := by
  rcases fetch_next h with ⟨-, rfl⟩ | ⟨-, _, -, rfl⟩ | ⟨-, -, rfl⟩ <;> rfl

/-- The phases ID, IF2 and IF1 write neither register file nor memory nor image. -/
theorem frontPhases_frame {s t : State} (h : frontPhases s = .next t) :
    t = { s with lat := t.lat, fetchPtr := t.fetchPtr, seqNext := t.seqNext, eop := t.eop, fault := t.fault,
                 phase := t.phase } := by
  rcases frontPhases_next h with ⟨hid, -⟩ | ⟨s1, s2, hid, -, hbr, -, hfe⟩
  · have ht := idPhase_frame hid
    rw [ht]
  · have h1 := idPhase_frame hid
    have h2 := branchPhase_frame hbr
    have h3 := fetch_frame hfe
    rw [h3, h2, h1]
    rfl

/-- The phases WB to MEM1 write at most the register of the slot in WB and the cell of the slot in MEM1. -/
theorem backPhases_writes {s t : State} (h : backPhases s = .next t) :
    WritesBack s t.rf ∧ StoresCell s t.mem := by
  unfold backPhases at h
  rcases andThen_next h with ⟨u, hwb, -, rfl⟩ | ⟨u, hwb, -, hm⟩
  · obtain ⟨ht, -⟩ := wbPhase_next hwb
    exact ⟨wbPhase_writes hwb, .inl (by rw [ht])⟩
  · obtain ⟨hu, -⟩ := wbPhase_next hwb
    obtain ⟨ht, hmem⟩ := mem1Phase_frame hm
    have hex : (passMemory u).lat.ex = s.lat.ex := by rw [hu]; rfl
    have hmem_u : (passMemory u).mem = s.mem := by rw [hu]; rfl
    have hrf : t.rf = u.rf := by rw [ht]; rfl
    refine ⟨hrf ▸ wbPhase_writes hwb, ?_⟩
    simpa only [StoresCell, hex, hmem_u] using hmem

/-- A cycle's registers and memory are those its back phases left. -/
theorem cyclePhases_back {s t : State} (h : cyclePhases s = .next t) :
    ∃ u, backPhases s = .next u ∧ t.rf = u.rf ∧ t.mem = u.mem ∧ t.img = u.img := by
  rcases cyclePhases_next h with ⟨hb, -⟩ | ⟨u, hb, -, hrest⟩
  · exact ⟨t, hb, rfl, rfl, rfl⟩
  · refine ⟨u, hb, ?_⟩
    rcases hrest with ⟨-, rfl⟩ | ⟨-, ⟨hex, -⟩ | ⟨s2, hex, -, ⟨hfr, -⟩ | ⟨s3, hfr, -, rfl⟩⟩⟩
    · exact ⟨rfl, rfl, rfl⟩
    · have ht := exPhase_frame hex
      rw [ht]
      exact ⟨rfl, rfl, rfl⟩
    · rw [frontPhases_frame hfr, exPhase_frame hex]
      exact ⟨rfl, rfl, rfl⟩
    · have h3 := frontPhases_frame hfr
      have h2 := exPhase_frame hex
      rw [h3, h2]
      exact ⟨rfl, rfl, rfl⟩

theorem cyclePhases_writes {s t : State} (h : cyclePhases s = .next t) :
    WritesBack s t.rf ∧ StoresCell s t.mem ∧ t.img = s.img := by
  obtain ⟨u, hb, hrf, hmem, himg⟩ := cyclePhases_back h
  obtain ⟨hwb, hst⟩ := backPhases_writes hb
  obtain ⟨-, -, -, himg_u, -⟩ := backPhases_front hb
  exact ⟨hrf ▸ hwb, hmem ▸ hst, himg.trans himg_u⟩

/-- A step writes at most the register of the slot in WB and the cell of the slot in MEM1, and not the image. -/
theorem step_writes {s t : State} (h : step s = .next t) :
    WritesBack s t.rf ∧ StoresCell s t.mem ∧ t.img = s.img := by
  cases hterm : terminal s with
  | true =>
    obtain rfl : s = t := by simpa [step_of_terminal hterm] using h
    exact ⟨.inl rfl, .inl rfl, rfl⟩
  | false =>
    rw [step_of_running hterm] at h
    obtain ⟨u, hu, hsettled⟩ := settle_next h
    have hwrites := cyclePhases_writes hu
    rcases hsettled with ⟨-, rfl⟩ | ⟨-, rfl⟩
    · exact hwrites
    · exact hwrites

end Sys2Proof.Proofs

open Sys2Proof Sys2Proof.Machine Sys2Proof.Laws Sys2Proof.Proofs

/-- Settles O23, from what a step writes. -/
theorem imageIsImmutable : Obligations.ImageIsImmutable := by
  unfold Obligations.ImageIsImmutable
  intro s t h
  obtain ⟨-, -, himg⟩ := step_writes h
  exact himg

/-- Settles O24, from what a step writes and what a map reads after a write. -/
theorem onlyWritebackAndMem1Write : Obligations.OnlyWritebackAndMem1Write := by
  unfold Obligations.OnlyWritebackAndMem1Write
  intro s t h
  obtain ⟨hrf, hmem, -⟩ := step_writes h
  exact ⟨fun _ => hrf.of_readReg_ne, fun _ => hmem.of_readCell_ne⟩

end

section
/-! The state at the release of reset (10_state R38, 70_reset_and_hazards R170, R174): a section of the image reads
back line by line, and the invariants hold. -/

namespace Sys2Proof.Proofs

open Sys2Proof Sys2Proof.Machine Sys2Proof.Laws

/-- Loading a section keeps what its lines give to each key. -/
theorem mapGet_loadSection (lines : List (Nat × Word)) (k : Nat) :
    mapGet (loadSection lines) k = mapGet lines k := by
  induction lines with
  | nil => rfl
  | cons l ls ih =>
    obtain ⟨k', v'⟩ := l
    have hload : loadSection ((k', v') :: ls) = mapSet (loadSection ls) k' v' := rfl
    rw [hload, mapGet]
    split
    · next heq => rw [heq, mapGet_mapSet_self]
    · next hne => rw [mapGet_mapSet_of_ne _ _ (Ne.symm hne), ih]

/-- Without duplicate keys each line is what its key reads as (R174(d)). -/
theorem mapGet_eq_some_iff_mem {m : List (Nat × Word)} (h : distinctKeys m = true) (k : Nat) (v : Word) :
    mapGet m k = some v ↔ (k, v) ∈ m := by
  induction m with
  | nil => simp
  | cons c m ih =>
    obtain ⟨k', v'⟩ := c
    simp only [distinctKeys, Bool.and_eq_true, Option.isNone_iff_eq_none] at h
    obtain ⟨hnew, hrest⟩ := h
    rw [mapGet]
    split
    · next heq =>
      subst heq
      have habsent : (k', v) ∉ m := by simp [← ih hrest, hnew]
      simp [habsent, eq_comm]
    · next hne => simp [ih hrest, Ne.symm hne]

/-- A line of the image is among the numbered lines exactly when it is among the lines. -/
theorem mem_numberedLines {w : Nat} (lines : List (BitVec w × Word)) (i : BitVec w) (v : Word) :
    (i.toNat, v) ∈ lines.map (fun l => (l.1.toNat, l.2)) ↔ (i, v) ∈ lines := by
  have hinj : Function.Injective fun l : BitVec w × Word => (l.1.toNat, l.2) := by
    rintro ⟨i, v⟩ ⟨j, u⟩ heq
    obtain ⟨hi, hv⟩ := Prod.mk.inj heq
    exact Prod.ext (BitVec.eq_of_toNat_eq hi) hv
  exact List.mem_map_of_injective hinj (a := (i, v))

section
variable {regs : List (RegIdx × Word)} {cells : List (Word × Word)} {img : List InstrWord} {s : State}

theorem boot_eq_some (h : boot regs cells img = some s) :
    distinctKeys (registerLines regs) = true ∧ distinctKeys (memoryLines cells) = true ∧
    imageWellFormed img = true ∧
    s = { State.reset with
      rf := loadSection (registerLines regs), mem := loadSection (memoryLines cells), img := img } := by
  unfold boot at h
  split at h
  · next hc =>
    simp only [Bool.and_eq_true] at hc
    obtain ⟨⟨hregs, hcells⟩, himg⟩ := hc
    exact ⟨hregs, hcells, himg, (Option.some.inj h).symm⟩
  · exact absurd h (by simp)

theorem readReg_boot (h : boot regs cells img = some s) (i : RegIdx) (v : Word) :
    readReg s i = some v ↔ (i, v) ∈ regs := by
  obtain ⟨hregs, -, -, rfl⟩ := boot_eq_some h
  calc mapGet (loadSection (registerLines regs)) i.toNat = some v
      ↔ mapGet (registerLines regs) i.toNat = some v := by rw [mapGet_loadSection]
    _ ↔ (i.toNat, v) ∈ registerLines regs := mapGet_eq_some_iff_mem hregs _ _
    _ ↔ (i, v) ∈ regs := mem_numberedLines regs i v

theorem readCell_boot (h : boot regs cells img = some s) (a v : Word) :
    readCell s a = some v ↔ (a, v) ∈ cells := by
  obtain ⟨-, hcells, -, rfl⟩ := boot_eq_some h
  calc mapGet (loadSection (memoryLines cells)) a.toNat = some v
      ↔ mapGet (memoryLines cells) a.toNat = some v := by rw [mapGet_loadSection]
    _ ↔ (a.toNat, v) ∈ memoryLines cells := mapGet_eq_some_iff_mem hcells _ _
    _ ↔ (a, v) ∈ cells := mem_numberedLines cells a v

theorem boot_inv (h : boot regs cells img = some s) : Inv s := by
  obtain ⟨hrf, hmem⟩ := boot_wf h
  obtain ⟨-, -, himg, rfl⟩ := boot_eq_some h
  exact {
    atRest := rfl, rfCanonical := hrf, memCanonical := hmem, imageLimit := himg
    fetched1 := rfl, fetched2 := rfl, decodedId := rfl, executedEx := rfl
    accessed1 := rfl, accessed2 := rfl, accessed3 := rfl
    ordered := rfl, seqStart := Nat.le_refl _, stallSound := rfl
    finishedEmpty := nofun
    oneEnd := fun _ => rfl
    pointer := fun _ => (by decide : 0 ≤ (0 : Word).toInt) }

end

end Sys2Proof.Proofs

open Sys2Proof Sys2Proof.Machine Sys2Proof.Proofs

/-- Settles O7, from what the loaded maps read as. -/
theorem stateAfterReset : Obligations.StateAfterReset := by
  unfold Obligations.StateAfterReset
  intro regs cells img s h
  have hreg := readReg_boot h
  have hcell := readCell_boot h
  obtain ⟨-, -, -, rfl⟩ := boot_eq_some h
  refine ⟨hreg, fun i => ?_, hcell, fun a => ?_, rfl, rfl, rfl, rfl, rfl, rfl, rfl, rfl, rfl, rfl, rfl, rfl, rfl, rfl⟩
  · simp only [Option.eq_none_iff_forall_ne_some, ne_eq, hreg]
  · simp only [Option.eq_none_iff_forall_ne_some, ne_eq, hcell]

/-- Settles O11. -/
theorem invariantHoldsAfterBoot : Obligations.InvariantHoldsAfterBoot := by
  unfold Obligations.InvariantHoldsAfterBoot
  intro regs cells img s h
  exact boot_inv h

/-- Settles O10: `State.reset` is what the empty image boots to. -/
theorem invariantHoldsAtReset : Obligations.InvariantHoldsAtReset := by
  unfold Obligations.InvariantHoldsAtReset
  have hboot : boot [] [] [] = some State.reset := by decide
  exact boot_inv hboot

end

section
/-! The clauses of the invariants about the latches (10_state R39 (b) to (f), 41_hazard_forwarding R105), and that
each movement of a slot between two latches keeps them. -/

namespace Sys2Proof.Proofs

open Sys2Proof Sys2Proof.Machine Sys2Proof.Laws

/-! ### The order of the sequence numbers -/

/-- The sequence numbers of the occupied positions of a list. -/
def seqsOf (l : List (Option Slot)) : List Nat := l.flatMap fun p => (p.map (·.seq)).toList

theorem seqsDescend_iff {bound : Nat} {l : List (Option Slot)} :
    seqsDescend bound l = true ↔
      (bound :: seqsOf l).IsChain (· > ·) ∧ ∀ n ∈ seqsOf l, Config.seqBase ≤ n := by
  induction l generalizing bound with
  | nil => simp [seqsDescend, seqsOf]
  | cons p rest ih =>
    cases p with
    | none => simpa [seqsDescend, seqsOf] using ih
    | some q =>
      have hcons : seqsOf (some q :: rest) = q.seq :: seqsOf rest := rfl
      simp only [seqsDescend, hcons, Bool.and_eq_true, decide_eq_true_eq, ih, List.isChain_cons_cons,
        List.forall_mem_cons, gt_iff_lt]
      tauto

/-- Slots may leave the pipeline, and move past empty positions, without breaking the order. -/
theorem seqsDescend_of_sublist {bound : Nat} {l l' : List (Option Slot)} (h : seqsDescend bound l = true)
    (hsub : (seqsOf l').Sublist (seqsOf l)) : seqsDescend bound l' = true := by
  obtain ⟨hchain, hbase⟩ := seqsDescend_iff.mp h
  exact seqsDescend_iff.mpr ⟨hchain.sublist (hsub.cons_cons bound), fun n hn => hbase n (hsub.subset hn)⟩

/-! ### The latches -/

/-- The clauses of `Inv` about the latches. -/
structure LatchesInv (img : List InstrWord) (seqNext : Nat) (lat : Latches) : Prop where
  fetched1 : lat.if1.all (asFetched img) = true
  fetched2 : lat.if2.all (asFetched img) = true
  decodedId : lat.id.all (inDecode img) = true
  executedEx : lat.ex.all (asExecuted img) = true
  accessed1 : lat.mem1.all (asAccessed img) = true
  accessed2 : lat.mem2.all (asAccessed img) = true
  accessed3 : lat.mem3.all (asAccessed img) = true
  ordered : seqsDescend seqNext lat.toList = true
  stallSound : lat.id.all (fun q => q.stallPending || !loadFeeds lat.ex q) = true

section
variable {img : List InstrWord} {seqNext : Nat} {lat : Latches}

theorem LatchesInv.retire (h : LatchesInv img seqNext lat) :
    LatchesInv img seqNext { lat with mem3 := none } :=
  { h with
    accessed3 := rfl
    ordered := seqsDescend_of_sublist h.ordered (by simp [Latches.toList, seqsOf]) }

theorem LatchesInv.passMemory (h : LatchesInv img seqNext lat) :
    LatchesInv img seqNext { lat with mem3 := lat.mem2, mem2 := lat.mem1, mem1 := none } :=
  { h with
    accessed1 := rfl, accessed2 := h.accessed1, accessed3 := h.accessed2
    ordered := seqsDescend_of_sublist h.ordered (by simp [Latches.toList, seqsOf]) }

theorem LatchesInv.access (h : LatchesInv img seqNext lat) {q q' : Slot} (hq : lat.ex = some q)
    (hseq : q'.seq = q.seq) (hacc : asAccessed img q' = true) :
    LatchesInv img seqNext { lat with mem1 := some q', ex := none } :=
  { h with
    executedEx := rfl, accessed1 := hacc
    ordered := seqsDescend_of_sublist h.ordered (by simp [Latches.toList, seqsOf, hq, hseq])
    stallSound := by simp [loadFeeds] }

theorem LatchesInv.execute (h : LatchesInv img seqNext lat) {q q' : Slot} (hq : lat.id = some q)
    (hseq : q'.seq = q.seq) (hexe : asExecuted img q' = true) :
    LatchesInv img seqNext { lat with ex := some q', id := none } :=
  { h with
    decodedId := rfl, executedEx := hexe
    ordered := seqsDescend_of_sublist h.ordered (by simp [Latches.toList, seqsOf, hq, hseq])
    stallSound := rfl }

theorem LatchesInv.decode (h : LatchesInv img seqNext lat) {q q' : Slot} (hq : lat.if2 = some q)
    (hseq : q'.seq = q.seq) (hdec : inDecode img q' = true)
    (hstall : loadFeeds lat.ex q' = true → q'.stallPending = true) :
    LatchesInv img seqNext { lat with id := some q', if2 := none } :=
  { h with
    fetched2 := rfl, decodedId := hdec
    ordered := seqsDescend_of_sublist h.ordered (by simp [Latches.toList, seqsOf, hq, hseq])
    stallSound := by
      cases hfeeds : loadFeeds lat.ex q' with
      | true => simp [hstall hfeeds]
      | false => simp [hfeeds] }

theorem LatchesInv.passFetch (h : LatchesInv img seqNext lat) :
    LatchesInv img seqNext { lat with if2 := lat.if1, if1 := none } :=
  { h with
    fetched1 := rfl, fetched2 := h.fetched1
    ordered := seqsDescend_of_sublist h.ordered (by simp [Latches.toList, seqsOf]) }

theorem LatchesInv.squash (h : LatchesInv img seqNext lat) :
    LatchesInv img seqNext { lat with id := none, if2 := none } :=
  { h with
    fetched2 := rfl, decodedId := rfl
    ordered := seqsDescend_of_sublist h.ordered (by simp [Latches.toList, seqsOf])
    stallSound := rfl }

theorem LatchesInv.noFetch (h : LatchesInv img seqNext lat) :
    LatchesInv img seqNext { lat with if1 := none } :=
  { h with
    fetched1 := rfl
    ordered := seqsDescend_of_sublist h.ordered (by simp [Latches.toList, seqsOf]) }

theorem LatchesInv.fetch (h : LatchesInv img seqNext lat) {word : InstrWord} {pc : Word}
    (hword : img[pc.toNat]? = some word) (hbase : Config.seqBase ≤ seqNext) :
    LatchesInv img (seqNext + 1) { lat with if1 := some (newSlot word pc seqNext) } :=
  { h with
    fetched1 := asFetched_iff.mpr ⟨rfl, hword⟩
    ordered := by
      have hseq : (newSlot word pc seqNext).seq = seqNext := rfl
      have hrest : seqsDescend seqNext [lat.if2, lat.id, lat.ex, lat.mem1, lat.mem2, lat.mem3] = true :=
        seqsDescend_of_sublist h.ordered (by simp [Latches.toList, seqsOf])
      simp [Latches.toList, seqsDescend, hseq, hbase, hrest] }

theorem LatchesInv.hold (h : LatchesInv img seqNext lat) :
    LatchesInv img seqNext { lat with id := lat.id.map fun q => { q with stallPending := false }, ex := none } :=
  { h with
    decodedId := by
      have hid := h.decodedId
      cases hq : lat.id with
      | none => rfl
      | some q => simpa [hq, inDecode, asDecoded, decodePart] using hid
    executedEx := rfl
    ordered := seqsDescend_of_sublist h.ordered (by simp [Latches.toList, seqsOf, Function.comp_def])
    stallSound := by simp [loadFeeds] }

end

end Sys2Proof.Proofs
end

section
/-! Every phase of a running cycle keeps what must hold between two phases, and so every step keeps the invariants
(10_state R39). -/

namespace Sys2Proof.Proofs

open Sys2Proof Sys2Proof.Machine Sys2Proof.Laws

/-! ### The slots of the latches, and those the phases produce -/

theorem asDecoded_of_inDecode {img : List InstrWord} {q : Slot} (h : inDecode img q = true) :
    asDecoded img q = true := by
  simp only [inDecode, Bool.and_eq_true] at h
  obtain ⟨hdec, -⟩ := h
  exact hdec

theorem asDecoded_of_asExecuted {img : List InstrWord} {q : Slot} (h : asExecuted img q = true) :
    asDecoded img q = true := by
  obtain ⟨i, hi, hd, himg, -⟩ := asExecuted_iff.mp h
  exact asDecoded_iff.mpr ⟨i, hi, hd, himg⟩

theorem asExecuted_of_asAccessed {img : List InstrWord} {q : Slot} (h : asAccessed img q = true) :
    asExecuted img q = true := by
  obtain ⟨hexe, -⟩ := asAccessed_iff.mp h
  exact hexe

/-- What the MEM1 phase makes of an executed slot (R39(f), R84). -/
theorem asAccessed_of_access {img : List InstrWord} {q q' : Slot} (h : asExecuted img q = true)
    (hacc : (q.memoryReadEnabled = false ∧ q' = q) ∨ ∃ v, q' = { q with memoryDatum := some v }) :
    asAccessed img q' = true := by
  rcases hacc with ⟨hread, rfl⟩ | ⟨v, rfl⟩
  · refine asAccessed_iff.mpr ⟨h, fun hload => ?_⟩
    obtain ⟨i, -, hd, -⟩ := asExecuted_iff.mp h
    obtain ⟨hop, -⟩ := id hd
    have hi : i.opcode = .load := Option.some.inj (hop.symm.trans hload)
    exact absurd ((memoryReadEnabled_iff hd).mpr hi) (by simp [hread])
  · exact asAccessed_iff.mpr ⟨h, fun _ => rfl⟩

/-- What the EX phase makes of a decoded slot that does not stall (R39(d), R39(e), R87, R88). -/
theorem asExecuted_of_execute {img : List InstrWord} {i : Instr} {q q1 q2 : Slot} (h : inDecode img q = true)
    (hi : decode q.instr = .ok i) (hstall : q.stallPending = false)
    (hq1 : q1 = { q with opVal1 := q1.opVal1, opVal2 := q1.opVal2 }) (h1 : q1.opVal1.isSome = true)
    (h2 : q.readReg2.isSome = true → q1.opVal2.isSome = true) (halu : aluOf i q1 = some q2) :
    asExecuted img q2 = true ∧ q2.seq = q.seq := by
  obtain ⟨j, hj, hd, himg⟩ := asDecoded_iff.mp (asDecoded_of_inDecode h)
  obtain rfl : i = j := Except.ok.inj (hi.symm.trans hj)
  have hd1 : decodedFrom i q1 := by rw [hq1]; exact hd
  have hval2 : (readReg2Of i).isSome = true → q1.opVal2.isSome = true := by
    obtain ⟨-, -, hr2, -⟩ := hd
    exact hr2 ▸ h2
  obtain ⟨q2', halu', hq2, hzero, hresult⟩ := aluOf_ready hd1 h1 hval2
  obtain rfl : q2 = q2' := Option.some.inj (halu.symm.trans halu')
  rw [hq2, hq1]
  exact ⟨asExecuted_iff.mpr ⟨i, hi, hd, himg, hstall, h1, hval2, hzero, hresult⟩, rfl⟩

/-- What the ID phase makes of a fetched slot with a legal word (R39(c), R89, R117). -/
theorem inDecode_decodeSlot {img : List InstrWord} {i : Instr} {q : Slot} (h : asFetched img q = true)
    (hi : decode q.instr = .ok i) (stall : Bool) :
    inDecode img { decodeSlot i q with stallPending := stall } = true := by
  obtain ⟨hq, himg⟩ := asFetched_iff.mp h
  simp only [inDecode, Bool.and_eq_true, beq_iff_eq]
  refine ⟨asDecoded_iff.mpr ⟨i, hi, decodedFrom_decodeSlot i q stall, himg⟩, ?_⟩
  rw [hq]
  rfl

/-! ### Between two phases -/

/-- What holds between two phases of a running cycle: the clauses of `Inv` but those about the end of a run, the
range of `fetchPtr`, which a taken branch breaks until the fetch has checked it, and the model's own `phase`. -/
structure MidCycle (s : State) : Prop where
  rfCanonical : RegFile.wf s.rf = true
  memCanonical : Memory.wf s.mem = true
  imageLimit : imageWellFormed s.img = true
  latches : LatchesInv s.img s.seqNext s.lat
  seqStart : Config.seqBase ≤ s.seqNext
  running : s.finished = false

theorem midCycle_of_inv {s : State} (h : Inv s) (hrun : terminal s = false) : MidCycle s :=
  { h with
    latches := { h with }
    running := by simp_all [terminal] }

theorem MidCycle.of_wbPhase {s t : State} (h : MidCycle s) (hw : wbPhase s = .next t) : MidCycle t := by
  obtain ⟨ht, -⟩ := wbPhase_next hw
  have hrf := (wbPhase_writes hw).keeps_wf h.rfCanonical
  rw [ht]
  exact { h with rfCanonical := hrf, latches := h.latches.retire }

theorem MidCycle.passMemory {s : State} (h : MidCycle s) : MidCycle (passMemory s) :=
  { h with latches := h.latches.passMemory }

theorem MidCycle.of_mem1Phase {s t : State} (h : MidCycle s) (hm : mem1Phase s = .next t) : MidCycle t := by
  obtain ⟨-, hstores⟩ := mem1Phase_frame hm
  have hmem := hstores.keeps_wf h.memCanonical
  rcases mem1Phase_next hm with ⟨-, rfl⟩ | ⟨_, _, -, -, -, -, rfl⟩ | ⟨q, q', hq, ht, hread, -⟩
  · exact h
  · exact { h with }
  · have hexe : asExecuted s.img q = true := by simpa [hq] using h.latches.executedEx
    have hacc : asAccessed s.img q' = true :=
      asAccessed_of_access hexe (hread.imp_right fun ⟨_, v, _, _, _, hq'⟩ => ⟨v, hq'⟩)
    have hseq : q'.seq = q.seq := by
      rcases hread with ⟨-, rfl⟩ | ⟨_, _, -, -, -, rfl⟩ <;> rfl
    rw [ht]
    exact { h with memCanonical := hmem, latches := h.latches.access hq hseq hacc }

theorem MidCycle.holdStalled {s : State} (h : MidCycle s) : MidCycle (holdStalled s) :=
  { h with latches := h.latches.hold }

theorem MidCycle.of_exPhase {s t : State} (h : MidCycle s) (hgo : stalled s = false)
    (he : exPhase s = .next t) : MidCycle t := by
  rcases exPhase_next he with ⟨-, rfl⟩ | ⟨q, i, q1, q2, hq, hi, halu, rfl, hops⟩ | ⟨_, _, -, -, -, rfl⟩
  · exact h
  · have hdec : inDecode s.img q = true := by simpa [hq] using h.latches.decodedId
    have hstall : q.stallPending = false := by simpa [stalled, hq] using hgo
    obtain ⟨hexe, hseq⟩ : asExecuted s.img q2 = true ∧ q2.seq = q.seq := by
      rcases hops with ⟨_, _, -, -, hnone, rfl⟩ | ⟨_, _, _, _, -, -, -, -, rfl⟩
      · exact asExecuted_of_execute hdec hi hstall rfl rfl (by simp [hnone]) halu
      · exact asExecuted_of_execute hdec hi hstall rfl rfl (fun _ => rfl) halu
    exact { h with latches := h.latches.execute hq hseq hexe }
  · exact { h with }

theorem MidCycle.of_idPhase {s t : State} (h : MidCycle s) (hd : idPhase s = .next t) : MidCycle t := by
  rcases idPhase_next hd with ⟨-, rfl⟩ | ⟨q, i, hq, hi, rfl⟩ | ⟨_, _, -, -, rfl⟩
  · exact h
  · have hfet : asFetched s.img q = true := by simpa [hq] using h.latches.fetched2
    have hstall : loadFeeds s.lat.ex (decodeSlot i q) = true →
        hazard (decodeSlot i q) s.lat.ex s.lat.mem1 = true := fun hfeeds => by simp [hazard, hfeeds]
    exact { h with latches := h.latches.decode hq rfl (inDecode_decodeSlot hfet hi _) hstall }
  · exact { h with }

theorem MidCycle.passFetch {s : State} (h : MidCycle s) : MidCycle (passFetch s) :=
  { h with latches := h.latches.passFetch }

theorem MidCycle.of_branchPhase {s t : State} (h : MidCycle s) (hb : branchPhase s = .next t) : MidCycle t := by
  rcases branchPhase_next hb with ⟨-, ht⟩ | ⟨_, _, -, -, -, rfl⟩
  · rw [ht]
    exact { h with }
  · exact { h with latches := h.latches.squash }

theorem MidCycle.of_fetch {s t : State} (h : MidCycle s) (hf : fetch s = .next t) : MidCycle t := by
  rcases fetch_next hf with ⟨-, rfl⟩ | ⟨-, word, hword, rfl⟩ | ⟨-, -, rfl⟩
  · exact { h with }
  · exact { h with latches := h.latches.fetch hword h.seqStart, seqStart := Nat.le_succ_of_le h.seqStart }
  · exact { h with latches := h.latches.noFetch }

theorem MidCycle.of_backPhases {s t : State} (h : MidCycle s) (hb : backPhases s = .next t) : MidCycle t := by
  rcases andThen_next hb with ⟨u, hw, -, rfl⟩ | ⟨u, hw, -, hm⟩
  · exact h.of_wbPhase hw
  · exact (h.of_wbPhase hw).passMemory.of_mem1Phase hm

theorem MidCycle.of_frontPhases {s t : State} (h : MidCycle s) (hf : frontPhases s = .next t) : MidCycle t := by
  rcases frontPhases_next hf with ⟨hid, -⟩ | ⟨s1, s2, hid, -, hbr, -, hfe⟩
  · exact h.of_idPhase hid
  · exact ((h.of_idPhase hid).passFetch.of_branchPhase hbr).of_fetch hfe

/-! ### The end of a cycle -/

theorem toInt_add_one_nonneg {p : BitVec 32} (h : p.toNat + 1 < 2 ^ 31) : 0 ≤ (p + 1).toInt := by
  have hsum : (p + 1).toNat = p.toNat + 1 := by bv_omega
  rw [BitVec.toInt_eq_toNat_of_lt] <;> omega

/-- After a fetch that raised nothing `fetchPtr` is in the range of R24: the image is shorter than `2^31` words. -/
theorem fetch_pointer {s t : State} (himg : imageWellFormed s.img = true) (hf : fetch s = .next t)
    (hno : t.fault = none) : 0 ≤ t.fetchPtr.toInt := by
  rcases fetch_next hf with ⟨-, rfl⟩ | ⟨hge, word, hword, rfl⟩ | ⟨hge, -, rfl⟩
  · exact absurd hno (by simp)
  · obtain ⟨hinside, -⟩ := List.getElem?_eq_some_iff.mp hword
    have hlimit : s.img.length < 2 ^ 31 := of_decide_eq_true himg
    exact toInt_add_one_nonneg (by omega)
  · exact hge

theorem frontPhases_pointer {s t : State} (h : MidCycle s) (hf : frontPhases s = .next t) (hno : t.fault = none) :
    0 ≤ t.fetchPtr.toInt := by
  rcases frontPhases_next hf with ⟨-, hf⟩ | ⟨s1, s2, hid, -, hbr, -, hfe⟩
  · simp [hno] at hf
  · have hmid : MidCycle s2 := (h.of_idPhase hid).passFetch.of_branchPhase hbr
    exact fetch_pointer hmid.imageLimit hfe hno

/-- The front phases create a slot only where they raise nothing. -/
theorem frontPhases_raise {s t : State} (h : frontPhases s = .next t) (hf : t.fault.isSome = true) :
    t.seqNext = s.seqNext := by
  rcases frontPhases_next h with ⟨hid, -⟩ | ⟨s1, s2, hid, -, hbr, hno, hfe⟩
  · rw [idPhase_frame hid]
  · rcases fetch_next hfe with ⟨-, rfl⟩ | ⟨-, _, -, rfl⟩ | ⟨-, -, rfl⟩
    · rw [branchPhase_frame hbr, idPhase_frame hid]
      rfl
    · simp [hno] at hf
    · simp [hno] at hf

/-- A cycle that completes leaves the invariants. -/
theorem inv_of_endOfCycle {s : State} (h : MidCycle s) (hno : s.fault = none) (hptr : 0 ≤ s.fetchPtr.toInt)
    (isStall : Bool) (w : Option Slot) : Inv { endOfCycle isStall w s with phase := .atRest } :=
  { h, h.latches with
    atRest := rfl
    finishedEmpty := fun hfin => by
      obtain ⟨heop, hempty⟩ : s.eop = true ∧ s.lat = Latches.empty := by simpa [drained] using hfin
      exact ⟨hempty, heop⟩
    oneEnd := fun hsome => absurd hno (Option.ne_none_iff_isSome.mpr hsome)
    pointer := fun _ => hptr }

/-- A cycle that raises leaves the invariants: its latches are those it started with (R150). -/
theorem inv_of_raised {s t : State} (hs : LatchesInv s.img s.seqNext s.lat) (h : MidCycle t) (himg : t.img = s.img)
    (hseq : t.seqNext = s.seqNext) (hf : t.fault.isSome = true) : Inv { t with lat := s.lat, phase := .atRest } :=
  have hlat : LatchesInv t.img t.seqNext s.lat := by rw [himg, hseq]; exact hs
  { h, hlat with
    atRest := rfl
    finishedEmpty := fun hfin => absurd (h.running.symm.trans hfin) (by simp)
    oneEnd := fun _ => h.running
    pointer := fun hno => absurd hno (Option.ne_none_iff_isSome.mpr hf) }

/-- What a running cycle that answers leaves: either it raised, in the middle of the cycle and before a slot was
created, or it is at its end. -/
theorem cyclePhases_keeps {s t : State} (h : MidCycle s) (hptr : 0 ≤ s.fetchPtr.toInt)
    (hc : cyclePhases s = .next t) :
    (t.fault.isSome = true ∧ MidCycle t ∧ t.seqNext = s.seqNext) ∨
    (∃ u isStall, MidCycle u ∧ u.fault = none ∧ 0 ≤ u.fetchPtr.toInt ∧ t = endOfCycle isStall s.lat.mem3 u) := by
  rcases cyclePhases_next hc with ⟨hb, hf⟩ | ⟨s1, hb, hno1, hrest⟩
  · obtain ⟨-, -, -, -, -, hseq, -⟩ := backPhases_front hb
    exact .inl ⟨hf, h.of_backPhases hb, hseq⟩
  · obtain ⟨-, -, -, -, hptr1, hseq1, -⟩ := backPhases_front hb
    have h1 : MidCycle s1 := h.of_backPhases hb
    rcases hrest with ⟨-, rfl⟩ | ⟨hgo, ⟨hex, hf⟩ | ⟨s2, hex, -, hfront⟩⟩
    · exact .inr ⟨holdStalled s1, true, h1.holdStalled, hno1, hptr1 ▸ hptr, rfl⟩
    · have hseq : t.seqNext = s1.seqNext := by rw [exPhase_frame hex]
      exact .inl ⟨hf, h1.of_exPhase hgo hex, hseq.trans hseq1⟩
    · have h2 : MidCycle s2 := h1.of_exPhase hgo hex
      have hseq2 : s2.seqNext = s1.seqNext := by rw [exPhase_frame hex]
      rcases hfront with ⟨hfr, hf⟩ | ⟨s3, hfr, hno3, rfl⟩
      · exact .inl ⟨hf, h2.of_frontPhases hfr, (frontPhases_raise hfr hf).trans (hseq2.trans hseq1)⟩
      · exact .inr ⟨s3, false, h2.of_frontPhases hfr, hno3, frontPhases_pointer h2 hfr hno3, rfl⟩

/-- Every step keeps the invariants. -/
theorem step_keeps_inv {s t : State} (h : Inv s) (hstep : step s = .next t) : Inv t := by
  cases hterm : terminal s with
  | true =>
    obtain rfl : s = t := by simpa [step_of_terminal hterm] using hstep
    exact h
  | false =>
    have hmid : MidCycle s := midCycle_of_inv h hterm
    have hptr : 0 ≤ s.fetchPtr.toInt := h.pointer (by simp_all [terminal])
    rw [step_of_running hterm] at hstep
    obtain ⟨u, hu, hsettled⟩ := settle_next hstep
    obtain ⟨-, -, himg⟩ := cyclePhases_writes hu
    rcases cyclePhases_keeps hmid hptr hu with ⟨hf, hu', hseq⟩ | ⟨v, isStall, hv, hno, hptr', rfl⟩
    · obtain ⟨-, rfl⟩ | ⟨hno, -⟩ := hsettled
      · exact inv_of_raised hmid.latches hu' himg hseq hf
      · simp [hf] at hno
    · obtain ⟨hf, -⟩ | ⟨-, rfl⟩ := hsettled
      · simp [hno] at hf
      · exact inv_of_endOfCycle hv hno hptr' isStall s.lat.mem3

end Sys2Proof.Proofs

open Sys2Proof.Machine Sys2Proof.Proofs

/-- Settles O13: each phase of a running cycle keeps `MidCycle`, and both ways a cycle ends give `Inv` back. -/
theorem stepKeepsTheInvariant : Obligations.StepKeepsTheInvariant := by
  unfold Obligations.StepKeepsTheInvariant
  intro s t h hstep
  exact step_keeps_inv h hstep

end

section
/-! Every phase answers a next state from what holds before it, and so every step does (10_state R39, 40_pipeline_engine
R95): no slot lacks a field that a phase needs. -/

namespace Sys2Proof.Proofs

open Sys2Proof Sys2Proof.Machine Sys2Proof.Laws

theorem andThen_answers {r : Result State} {k : State → Result State} (hr : ∃ s, r = .next s)
    (hk : ∀ s, r = .next s → ∃ t, k s = .next t) : ∃ t, andThen r k = .next t := by
  obtain ⟨s, rfl⟩ := hr
  cases hf : s.fault with
  | some f => exact ⟨s, andThen_of_fault (by simp [hf])⟩
  | none => exact andThen_of_noFault hf ▸ hk s rfl

theorem settle_answers (s t : State) : ∃ u, settle s (.next t) = .next u := by
  unfold settle
  dsimp only
  split <;> exact ⟨_, rfl⟩

/-- A phase of a slot with a legal word runs `exec` of its instruction. -/
theorem runSlot_of_asDecoded {img : List InstrWord} {q : Slot} (h : asDecoded img q = true) (p : Phase) (s : State) :
    ∃ i, decodedFrom i q ∧ runSlot p q s = exec i { s with phase := p } := by
  obtain ⟨i, hi, hd, -⟩ := asDecoded_iff.mp h
  exact ⟨i, hd, by simp only [runSlot, hi]⟩

/-! ### WB and MEM1 -/

theorem writeBack_answers {img : List InstrWord} {s : State} (h : s.lat.mem3.all (asAccessed img) = true) :
    ∃ t, writeBack s = .next t := by
  unfold writeBack
  split
  · exact ⟨_, rfl⟩
  · next q hq =>
    rw [hq] at h
    dsimp only
    split
    · next hen =>
      obtain ⟨⟨r, hr⟩, v, hv⟩ := writeback_ready h hen
      rw [resultOf] at hv
      simp only [hr, hv]
      exact ⟨_, rfl⟩
    · exact ⟨_, rfl⟩

theorem wbPhase_answers {s : State} (h : MidCycle s) : ∃ t, wbPhase s = .next t := by
  have hacc := h.latches.accessed3
  unfold wbPhase
  split
  · exact ⟨_, rfl⟩
  · next q hq =>
    have hq_acc : asAccessed s.img q = true := by simpa [hq] using hacc
    obtain ⟨i, -, hrun⟩ := runSlot_of_asDecoded (asDecoded_of_asExecuted (asExecuted_of_asAccessed hq_acc)) .wb s
    rw [hrun, exec_wb rfl]
    exact writeBack_answers hacc

theorem storePart_answers {q : Slot} (s : State)
    (h : q.memoryWriteEnabled = true → (∃ a, q.aluResult = some a) ∧ ∃ v, q.opVal2 = some v) :
    ∃ t, storePart q s = .next t := by
  unfold storePart
  split
  · next hen =>
    obtain ⟨⟨a, ha⟩, v, hv⟩ := h hen
    simp only [ha, hv]
    exact ⟨_, rfl⟩
  · exact ⟨_, rfl⟩

theorem withCell_answers {a : Word} {s : State} {k : Word → Result State} (hk : ∀ v, ∃ t, k v = .next t) :
    ∃ t, withCell a s k = .next t := by
  unfold withCell
  split
  · exact hk _
  · exact ⟨_, rfl⟩

theorem accessMemory_answers {img : List InstrWord} {s : State} (h : s.lat.ex.all (asExecuted img) = true) :
    ∃ t, accessMemory s = .next t := by
  unfold accessMemory
  split
  · exact ⟨_, rfl⟩
  · next q hq =>
    rw [hq] at h
    obtain ⟨hread, hwrite⟩ := access_ready h
    split
    · next hen =>
      obtain ⟨a, ha⟩ := hread hen
      split
      · exact withCell_answers fun v => storePart_answers (q := { q with memoryDatum := some v }) s hwrite
      · next hno => exact absurd (hno.symm.trans ha) (by simp)
    · exact storePart_answers s hwrite

theorem mem1Phase_answers {s : State} (h : MidCycle s) : ∃ t, mem1Phase s = .next t := by
  have hexe := h.latches.executedEx
  unfold mem1Phase
  split
  · exact ⟨_, rfl⟩
  · next q hq =>
    have hq_exe : asExecuted s.img q = true := by simpa [hq] using hexe
    obtain ⟨i, -, hrun⟩ := runSlot_of_asDecoded (asDecoded_of_asExecuted hq_exe) .mem1 s
    rw [hrun, exec_mem1 rfl]
    exact accessMemory_answers hexe

/-! ### EX -/

theorem scanStage_computed {img : List InstrWord} {p : Option Slot} {st : ScanStage} {r : RegIdx} {next : Fetched}
    (hp : p.all (asAccessed img) = true) (hnext : next ≠ .notComputed) : scanStage p st r next ≠ .notComputed := by
  unfold scanStage
  split
  · exact hnext
  · next q =>
    split
    · next hqual =>
      obtain ⟨v, hv⟩ := producedValue_ready (asExecuted_of_asAccessed hp) (fun _ => hp) hqual
      simp [hv]
    · exact hnext

/-- The forwarding mux always delivers a value or finds the register absent (R106, R39(e), R39(f)). -/
theorem fwd_computed {img : List InstrWord} {seqNext : Nat} {s : State} (h : LatchesInv img seqNext s.lat)
    (r : RegIdx) : fwd s r ≠ .notComputed := by
  have hfile : fetchFromFile s r ≠ .notComputed := by
    unfold fetchFromFile
    split <;> simp
  exact scanStage_computed h.accessed1 (scanStage_computed h.accessed2 (scanStage_computed h.accessed3 hfile))

theorem resolveSecond_answers {q : Slot} {s : State} {k : Slot → Result State}
    (hfwd : ∀ r, fwd s r ≠ .notComputed) (hnone : q.readReg2 = none → ∃ t, k q = .next t)
    (hsome : ∀ v, ∃ t, k { q with opVal2 := some v } = .next t) : ∃ t, resolveSecond q s k = .next t := by
  unfold resolveSecond
  split
  · next hr => exact hnone hr
  · next r hr =>
    split
    · exact hsome _
    · exact ⟨_, rfl⟩
    · next hno => exact absurd hno (hfwd r)

theorem resolveOperands_answers {q : Slot} {s : State} {k : Slot → Result State} {r : RegIdx}
    (hr : q.readReg1 = some r) (hfwd : ∀ r, fwd s r ≠ .notComputed)
    (hk : ∀ v, ∃ t, resolveSecond { q with opVal1 := some v } s k = .next t) :
    ∃ t, resolveOperands q s k = .next t := by
  unfold resolveOperands
  split
  · next hno => exact absurd (hno.symm.trans hr) (by simp)
  · next r' _ =>
    split
    · exact hk _
    · exact ⟨_, rfl⟩
    · next hno => exact absurd hno (hfwd r')

theorem executeWith_answers {i : Instr} {q : Slot} {s : State} (hq : s.lat.id = some q) (hd : decodedFrom i q)
    (hfwd : ∀ r, fwd s r ≠ .notComputed) : ∃ t, executeWith (aluOf i) s = .next t := by
  obtain ⟨-, hr1, hr2, -⟩ := id hd
  unfold executeWith
  simp only [hq]
  refine resolveOperands_answers hr1 hfwd fun v1 => resolveSecond_answers hfwd ?_ ?_
  · intro hnone
    have hno2 : readReg2Of i = none := hr2.symm.trans hnone
    obtain ⟨q2, halu, -⟩ := aluOf_ready (q := { q with opVal1 := some v1 }) hd rfl (by simp [hno2])
    exact ⟨leaveEx q2 s, by rw [halu]⟩
  · intro v2
    obtain ⟨q2, halu, -⟩ :=
      aluOf_ready (q := { q with opVal1 := some v1, opVal2 := some v2 }) hd rfl fun _ => rfl
    exact ⟨leaveEx q2 s, by rw [halu]⟩

theorem exPhase_answers {s : State} (h : MidCycle s) : ∃ t, exPhase s = .next t := by
  unfold exPhase
  split
  · exact ⟨_, rfl⟩
  · next q hq =>
    have hdec : inDecode s.img q = true := by simpa [hq] using h.latches.decodedId
    obtain ⟨i, hd, hrun⟩ := runSlot_of_asDecoded (asDecoded_of_inDecode hdec) .ex s
    rw [hrun, exec_ex rfl]
    exact executeWith_answers hq hd (fwd_computed h.latches)

/-! ### ID and IF1 -/

/-- The ID phase never stops the model. -/
theorem idPhase_answers (s : State) : ∃ t, idPhase s = .next t := by
  unfold idPhase
  split
  · exact ⟨_, rfl⟩
  · next q hq =>
    split
    · rw [exec_id rfl]
      simp only [decodeInto, hq]
      exact ⟨_, rfl⟩
    · exact ⟨_, rfl⟩

/-- A branch has its target (R118). -/
theorem branchTarget_ready {i : Instr} {q : Slot} (hd : decodedFrom i q) (ht : takenBranch q = true) :
    ∃ a, q.branchTargetAddress = some a := by
  simp only [takenBranch, Bool.and_eq_true] at ht
  obtain ⟨hen, -⟩ := ht
  have hop := (branchEnabled_iff hd).mp hen
  obtain ⟨-, -, -, -, -, htarget, -⟩ := hd
  cases i with
  | branchNotZero rs imm => exact ⟨_, htarget⟩
  | _ => exact absurd hop (by simp [Instr.opcode, Instr.toRecord])

theorem resolveBranch_answers {i : Instr} {q : Slot} {s : State} (hq : s.lat.ex = some q) (hd : decodedFrom i q) :
    ∃ t, resolveBranch s = .next t := by
  unfold resolveBranch
  simp only [hq]
  split
  · next ht =>
    obtain ⟨a, ha⟩ := branchTarget_ready hd ht
    simp only [ha]
    exact ⟨_, rfl⟩
  · exact ⟨_, rfl⟩

theorem branchPhase_answers {s : State} (h : MidCycle s) : ∃ t, branchPhase s = .next t := by
  unfold branchPhase
  split
  · exact ⟨_, rfl⟩
  · next q hq =>
    have hexe : asExecuted s.img q = true := by simpa [hq] using h.latches.executedEx
    obtain ⟨i, hd, hrun⟩ := runSlot_of_asDecoded (asDecoded_of_asExecuted hexe) .if1 s
    rw [hrun, exec_if1 rfl]
    exact resolveBranch_answers hq hd

/-! ### The cycle -/

theorem backPhases_answers {s : State} (h : MidCycle s) : ∃ t, backPhases s = .next t :=
  andThen_answers (wbPhase_answers h) fun _ hw => mem1Phase_answers (h.of_wbPhase hw).passMemory

theorem frontPhases_answers {s : State} (h : MidCycle s) : ∃ t, frontPhases s = .next t :=
  andThen_answers (idPhase_answers s) fun _ hid =>
    andThen_answers (branchPhase_answers (h.of_idPhase hid).passFetch) fun s2 _ => fetch_isNext s2

theorem cyclePhases_answers {s : State} (h : MidCycle s) : ∃ t, cyclePhases s = .next t := by
  refine andThen_answers (backPhases_answers h) fun s1 hb => ?_
  have h1 : MidCycle s1 := h.of_backPhases hb
  split
  · exact ⟨_, rfl⟩
  · next hgo =>
    refine andThen_answers (exPhase_answers h1) fun s2 hex => ?_
    have h2 : MidCycle s2 := h1.of_exPhase (by simpa using hgo) hex
    exact andThen_answers (frontPhases_answers h2) fun _ _ => ⟨_, rfl⟩

theorem step_answers {s : State} (h : Inv s) : ∃ t, step s = .next t := by
  cases hterm : terminal s with
  | true => exact ⟨s, step_of_terminal hterm⟩
  | false =>
    obtain ⟨u, hu⟩ := cyclePhases_answers (midCycle_of_inv h hterm)
    rw [step_of_running hterm, hu]
    exact settle_answers s u

end Sys2Proof.Proofs

open Sys2Proof.Machine Sys2Proof.Proofs

/-- Settles O14: each phase answers from `MidCycle`, which every phase keeps. -/
theorem stepAlwaysAnswers : Obligations.StepAlwaysAnswers := by
  unfold Obligations.StepAlwaysAnswers
  intro s h
  exact step_answers h

end

section
/-! The instruction word (30_encoding R56, R58, R59, R66): its fields determine it, the decoder undoes the encoder and
reads nothing else, the rows of the table of R58 are the words of the seven forms, and records and instructions
correspond. -/

namespace Sys2Proof.Proofs

open Sys2Proof Sys2Proof.Machine

/-! ### Fields and words -/

/-- A word is its seven fields (R56). -/
theorem word_ext {v w : InstrWord} (hop : fieldOp v = fieldOp w) (hl : fieldL v = fieldL w)
    (hzero : fieldZero v = fieldZero w) (hrd : fieldRd v = fieldRd w) (hrs : fieldRs v = fieldRs w)
    (hrt : fieldRt v = fieldRt w) (himm : fieldImm v = fieldImm w) : v = w := by
  simp only [fieldOp, fieldL, fieldZero, fieldRd, fieldRs, fieldRt, fieldImm, ← BitVec.toNat_inj,
    BitVec.extractLsb'_toNat, Nat.shiftRight_eq_div_pow, Config.ilen] at *
  omega

/-- The word of seven fields (R56), its reserved bits among them. -/
def wordOf (op : BitVec 4) (l : BitVec 1) (zero : BitVec 3) (rd rs rt : RegIdx) (imm : Imm) : InstrWord :=
  op ++ l ++ zero ++ rd ++ rs ++ rt ++ imm

section
open BitVec
variable (op : BitVec 4) (l : BitVec 1) (zero : BitVec 3) (rd rs rt : RegIdx) (imm : Imm)

@[simp] theorem assemble_eq_wordOf : assemble op l rd rs rt imm = wordOf op l 0 rd rs rt imm := rfl

@[simp] theorem fieldOp_wordOf : fieldOp (wordOf op l zero rd rs rt imm) = op := by
  simp (disch := decide) only [fieldOp, wordOf, extractLsb'_append_eq_of_le]
  exact extractLsb'_eq_self

@[simp] theorem fieldL_wordOf : fieldL (wordOf op l zero rd rs rt imm) = l := by
  simp (disch := decide) only [fieldL, wordOf, extractLsb'_append_eq_of_le, extractLsb'_append_eq_of_add_le]
  exact extractLsb'_eq_self

@[simp] theorem fieldZero_wordOf : fieldZero (wordOf op l zero rd rs rt imm) = zero := by
  simp (disch := decide) only [fieldZero, wordOf, extractLsb'_append_eq_of_le, extractLsb'_append_eq_of_add_le]
  exact extractLsb'_eq_self

@[simp] theorem fieldRd_wordOf : fieldRd (wordOf op l zero rd rs rt imm) = rd := by
  simp (disch := decide) only [fieldRd, wordOf, extractLsb'_append_eq_of_le, extractLsb'_append_eq_of_add_le]
  exact extractLsb'_eq_self

@[simp] theorem fieldRs_wordOf : fieldRs (wordOf op l zero rd rs rt imm) = rs := by
  simp (disch := decide) only [fieldRs, wordOf, extractLsb'_append_eq_of_le, extractLsb'_append_eq_of_add_le]
  exact extractLsb'_eq_self

@[simp] theorem fieldRt_wordOf : fieldRt (wordOf op l zero rd rs rt imm) = rt := by
  simp (disch := decide) only [fieldRt, wordOf, extractLsb'_append_eq_of_le, extractLsb'_append_eq_of_add_le]
  exact extractLsb'_eq_self

@[simp] theorem fieldImm_wordOf : fieldImm (wordOf op l zero rd rs rt imm) = imm := by
  simp (disch := decide) only [fieldImm, wordOf, extractLsb'_append_eq_of_add_le]
  exact extractLsb'_eq_self

end

/-- A word is the word of its fields. -/
theorem wordOf_fields (w : InstrWord) :
    wordOf (fieldOp w) (fieldL w) (fieldZero w) (fieldRd w) (fieldRs w) (fieldRt w) (fieldImm w) = w := by
  apply word_ext <;> simp

/-- `L` is one bit. -/
theorem fieldL_zero_or_one (w : InstrWord) : fieldL w = 0 ∨ fieldL w = 1 := by
  generalize fieldL w = l
  revert l
  decide

/-! ### The decoder -/

theorem opcodeOfNumber_eq_some_iff {n : BitVec 4} {op : Opcode} : opcodeOfNumber n = some op ↔ n = op.number := by
  revert n
  cases op <;> decide

theorem opcodeOfNumber_eq_none_iff {n : BitVec 4} : opcodeOfNumber n = none ↔ 5 ≤ n.toNat := by
  revert n
  decide

@[simp] theorem opcodeOfNumber_number (op : Opcode) : opcodeOfNumber op.number = some op :=
  opcodeOfNumber_eq_some_iff.mpr rfl

/-- The decoder undoes the encoder. -/
theorem decode_encode (i : Instr) : decode (encode i) = .ok i := by
  cases i <;> simp [decode, encode, decodeArith, decodeMemory, decodeBranch]

/-! What each of the decoder's three readings accepts, and what it refuses. -/

section
variable {reg : RegIdx → RegIdx → RegIdx → Instr} {lit mk : RegIdx → RegIdx → Imm → Instr} {w : InstrWord} {i : Instr}

theorem decodeArith_ok_iff :
    decodeArith reg lit w = .ok i ↔
      (fieldL w = 0 ∧ fieldImm w = 0 ∧ reg (fieldRd w) (fieldRs w) (fieldRt w) = i) ∨
      (fieldL w = 1 ∧ fieldRt w = 0 ∧ lit (fieldRd w) (fieldRs w) (fieldImm w) = i) := by
  have hl := fieldL_zero_or_one w
  unfold decodeArith
  split_ifs <;> simp_all

theorem decodeArith_error_iff :
    (∃ e, decodeArith reg lit w = .error e) ↔
      (fieldL w = 0 ∧ fieldImm w ≠ 0) ∨ (fieldL w = 1 ∧ fieldRt w ≠ 0) := by
  have hl := fieldL_zero_or_one w
  unfold decodeArith
  split_ifs <;> simp_all

theorem decodeMemory_ok_iff :
    decodeMemory mk w = .ok i ↔ fieldL w = 0 ∧ fieldRd w = 0 ∧ mk (fieldRt w) (fieldRs w) (fieldImm w) = i := by
  unfold decodeMemory
  split_ifs <;> simp_all

theorem decodeMemory_error_iff : (∃ e, decodeMemory mk w = .error e) ↔ fieldL w = 1 ∨ fieldRd w ≠ 0 := by
  have hl := fieldL_zero_or_one w
  unfold decodeMemory
  split_ifs <;> simp_all

theorem decodeBranch_ok_iff :
    decodeBranch w = .ok i ↔
      fieldL w = 0 ∧ fieldRd w = 0 ∧ fieldRt w = 0 ∧ .branchNotZero (fieldRs w) (fieldImm w) = i := by
  unfold decodeBranch
  split_ifs <;> grind

theorem decodeBranch_error_iff :
    (∃ e, decodeBranch w = .error e) ↔ fieldL w = 1 ∨ fieldRd w ≠ 0 ∨ fieldRt w ≠ 0 := by
  have hl := fieldL_zero_or_one w
  unfold decodeBranch
  split_ifs <;> simp_all

end

/-- The decoder reads a word as an instruction only if the word is its encoding. -/
theorem encode_of_decode {w : InstrWord} {i : Instr} (h : decode w = .ok i) : encode i = w := by
  unfold decode at h
  split at h
  · exact absurd h (by simp)
  · next op hop =>
    split at h
    · exact absurd h (by simp)
    · next hzero =>
      have hw := wordOf_fields w
      rw [opcodeOfNumber_eq_some_iff.mp hop, not_not.mp hzero] at hw
      cases op with
      | add | sub =>
        rcases decodeArith_ok_iff.mp h with ⟨hl, himm, rfl⟩ | ⟨hl, hrt, rfl⟩
        · rwa [hl, himm] at hw
        · rwa [hl, hrt] at hw
      | load | store =>
        obtain ⟨hl, hrd, rfl⟩ := decodeMemory_ok_iff.mp h
        rwa [hl, hrd] at hw
      | branchNotZero =>
        obtain ⟨hl, hrd, hrt, rfl⟩ := decodeBranch_ok_iff.mp h
        rwa [hl, hrd, hrt] at hw

theorem decode_ok_iff_encode {w : InstrWord} {i : Instr} : decode w = .ok i ↔ encode i = w :=
  ⟨encode_of_decode, fun h => h ▸ decode_encode i⟩

/-- A 64-bit word is its own number in the table's numbering of bits. -/
theorem tableWord_toNat (w : InstrWord) : tableWord 64 w.toNat = w := by
  rw [tableWord, Nat.mod_eq_of_lt w.isLt, BitVec.ofNat_toNat, BitVec.setWidth_eq]

/-! ### The rows of the table of R58 -/

/-- A word is of a row exactly when each of its fields is, where the mask looks. -/
theorem accepts_iff_fields {f : WordForm} {w : InstrWord} :
    f.accepts w = true ↔
      fieldOp w &&& fieldOp f.mask = fieldOp f.matchBits ∧ fieldL w &&& fieldL f.mask = fieldL f.matchBits ∧
      fieldZero w &&& fieldZero f.mask = fieldZero f.matchBits ∧
      fieldRd w &&& fieldRd f.mask = fieldRd f.matchBits ∧ fieldRs w &&& fieldRs f.mask = fieldRs f.matchBits ∧
      fieldRt w &&& fieldRt f.mask = fieldRt f.matchBits ∧
      fieldImm w &&& fieldImm f.mask = fieldImm f.matchBits := by
  unfold WordForm.accepts
  rw [beq_iff_eq]
  constructor
  · intro h
    simp only [← h, fieldOp, fieldL, fieldZero, fieldRd, fieldRs, fieldRt, fieldImm, BitVec.extractLsb'_and, and_self]
  · rintro ⟨hop, hl, hzero, hrd, hrs, hrt, himm⟩
    apply word_ext <;>
      simpa only [fieldOp, fieldL, fieldZero, fieldRd, fieldRs, fieldRt, fieldImm, BitVec.extractLsb'_and]

/-- A row of the table by its fields: it fixes `op`, `L` and the reserved bits, leaves `rs` free, and requires 0 of
`rd`, `rt` and `imm` where it is given ones for them. -/
def rowOf (name : String) (op : BitVec 4) (l : BitVec 1) (rd rt : RegIdx) (imm : Imm) : WordForm :=
  ⟨name, wordOf op l 0 0 0 0 0, wordOf (.allOnes 4) (.allOnes 1) (.allOnes 3) rd 0 rt imm⟩

/-- The row of the table an instruction's word is of. -/
def formOf (i : Instr) : WordForm :=
  match i with
  | .addReg _ _ _ => rowOf (formName i) 0 0 0 0 (.allOnes 32)
  | .addLit _ _ _ => rowOf (formName i) 0 1 0 (.allOnes 8) 0
  | .subReg _ _ _ => rowOf (formName i) 1 0 0 0 (.allOnes 32)
  | .subLit _ _ _ => rowOf (formName i) 1 1 0 (.allOnes 8) 0
  | .load _ _ _ => rowOf (formName i) 2 0 (.allOnes 8) 0 0
  | .store _ _ _ => rowOf (formName i) 3 0 (.allOnes 8) 0 0
  | .branchNotZero _ _ => rowOf (formName i) 4 0 (.allOnes 8) (.allOnes 8) 0

/-- The rows are those of the seven forms, whatever the operands. -/
theorem wordForms_eq :
    wordForms =
      [formOf (.addReg 0 0 0), formOf (.addLit 0 0 0), formOf (.subReg 0 0 0), formOf (.subLit 0 0 0),
       formOf (.load 0 0 0), formOf (.store 0 0 0), formOf (.branchNotZero 0 0)] := by
  decide

theorem formOf_mem (i : Instr) : formOf i ∈ wordForms := by
  cases i <;> simp [formOf, formName, wordForms_eq]

theorem formOf_name (i : Instr) : (formOf i).name = formName i := by
  cases i <;> rfl

theorem accepts_rowOf_iff {name : String} {op : BitVec 4} {l : BitVec 1} {rd rt : RegIdx} {imm : Imm}
    {w : InstrWord} :
    (rowOf name op l rd rt imm).accepts w = true ↔
      fieldOp w = op ∧ fieldL w = l ∧ fieldZero w = 0 ∧
      fieldRd w &&& rd = 0 ∧ fieldRt w &&& rt = 0 ∧ fieldImm w &&& imm = 0 := by
  simp [accepts_iff_fields, rowOf, -BitVec.reduceAllOnes]

theorem formOf_accepts_encode (i : Instr) : (formOf i).accepts (encode i) = true := by
  cases i <;> simp [formOf, accepts_rowOf_iff, encode, Opcode.number]

/-- A word of a row is the encoding of the instruction that has the word's operand fields. -/
theorem exists_encode_of_accepts {f : WordForm} (hf : f ∈ wordForms) {w : InstrWord} (h : f.accepts w = true) :
    ∃ i, encode i = w := by
  have hw := wordOf_fields w
  simp only [wordForms_eq, List.mem_cons, List.not_mem_nil, or_false] at hf
  rcases hf with rfl | rfl | rfl | rfl | rfl | rfl | rfl <;>
    obtain ⟨hop, hl, hzero, hrd, hrt, himm⟩ := accepts_rowOf_iff.mp h <;>
    simp only [BitVec.and_allOnes] at hrd hrt himm <;>
    rw [hop, hl, hzero] at hw
  · exact ⟨.addReg _ _ _, himm ▸ hw⟩
  · exact ⟨.addLit _ _ _, hrt ▸ hw⟩
  · exact ⟨.subReg _ _ _, himm ▸ hw⟩
  · exact ⟨.subLit _ _ _, hrt ▸ hw⟩
  · exact ⟨.load _ _ _, hrd ▸ hw⟩
  · exact ⟨.store _ _ _, hrd ▸ hw⟩
  · exact ⟨.branchNotZero _ _, hrd ▸ hrt ▸ hw⟩

/-- Two rows whose bits agree wherever both masks look are one row: the forms differ in `op` or in `L`. -/
theorem wordForms_disjoint : ∀ f ∈ wordForms, ∀ g ∈ wordForms,
    f.matchBits &&& g.mask = g.matchBits &&& f.mask → f = g := by
  decide

/-- A word is of at most one row. -/
theorem form_unique {f g : WordForm} (hf : f ∈ wordForms) (hg : g ∈ wordForms) {w : InstrWord}
    (hfw : f.accepts w = true) (hgw : g.accepts w = true) : f = g := by
  have hf_eq : w &&& f.mask = f.matchBits := eq_of_beq hfw
  have hg_eq : w &&& g.mask = g.matchBits := eq_of_beq hgw
  apply wordForms_disjoint f hf g hg
  rw [← hf_eq, ← hg_eq, BitVec.and_assoc, BitVec.and_assoc, BitVec.and_comm f.mask]

/-! ### Records -/

theorem toInstr_toRecord (i : Instr) : i.toRecord.toInstr = some i := by
  cases i <;> rfl

theorem toRecord_injective {i j : Instr} (h : i.toRecord = j.toRecord) : i = j :=
  Option.some.inj ((toInstr_toRecord i).symm.trans (h ▸ toInstr_toRecord j))

theorem toRecord_of_toInstr {r : Record} {i : Instr} (h : r.toInstr = some i) : i.toRecord = r := by
  cases r
  unfold Record.toInstr at h
  split at h <;> cases h <;> simp_all [Instr.toRecord]

/-- The records of the shapes of R55 are those that stand for an instruction. -/
theorem wellFormed_eq_isSome_toInstr (r : Record) : r.wellFormed = r.toInstr.isSome := by
  unfold Record.wellFormed Record.shape Record.toInstr
  split <;> simp_all

theorem wellFormed_iff_toRecord {r : Record} : r.wellFormed = true ↔ ∃ i : Instr, i.toRecord = r := by
  rw [wellFormed_eq_isSome_toInstr, Option.isSome_iff_exists]
  exact ⟨fun ⟨i, hi⟩ => ⟨i, toRecord_of_toInstr hi⟩, fun ⟨i, hi⟩ => ⟨i, hi ▸ toInstr_toRecord i⟩⟩

/-! ### Branch distances -/

@[simp] theorem sext32_eq (imm : Imm) : sext32 imm = imm := BitVec.signExtend_eq imm

/-- The distance from a branch to a label, added to the branch's own index, is the label's (R64, R118). -/
theorem add_labelDistance (target branch : Nat) :
    BitVec.ofNat 32 branch + labelDistance target branch = BitVec.ofNat 32 target := by
  rw [labelDistance, ← BitVec.ofInt_natCast, ← BitVec.ofInt_natCast, ← BitVec.ofInt_add, add_sub_cancel]

end Sys2Proof.Proofs

open Sys2Proof Sys2Proof.Machine Sys2Proof.Proofs

/-- Settles O1: the decoder undoes the encoder, and the table numbers a word's bits as the decoder does. -/
theorem decodeOfEncodeIsIdentity : Obligations.DecodeOfEncodeIsIdentity := by
  unfold Obligations.DecodeOfEncodeIsIdentity
  intro i
  refine ⟨decode_encode i, ?_⟩
  rw [decodeTableWord, tableWord_toNat, decode_encode]

/-- Settles O2: a legal word is its instruction's encoding, whose fields are the instruction's operands, and a record
and its instruction give each other. -/
theorem legalWordsAndRecordsCorrespond : Obligations.LegalWordsAndRecordsCorrespond := by
  unfold Obligations.LegalWordsAndRecordsCorrespond
  refine ⟨fun w i h => ?_, fun w i => decode_ok_iff_encode, fun r => wellFormed_iff_toRecord,
    fun i j => toRecord_injective⟩
  rw [← encode_of_decode h]
  cases i <;> simp [encode, Instr.opcode, Instr.toRecord, immediateOf]

/-- Settles O3: a word is legal when it is an encoding, an encoding is of its instruction's row, and no word is of two
rows. -/
theorem legalWordsAreOfExactlyOneForm : Obligations.LegalWordsAreOfExactlyOneForm := by
  unfold Obligations.LegalWordsAreOfExactlyOneForm
  intro w
  simp only [decode_ok_iff_encode]
  refine ⟨⟨?_, ?_⟩, fun f hf g hg => form_unique hf hg, ?_⟩
  · rintro ⟨i, rfl⟩
    exact ⟨formOf i, formOf_mem i, formOf_accepts_encode i⟩
  · rintro ⟨f, hf, hfw⟩
    exact exists_encode_of_accepts hf hfw
  · rintro i rfl f hf hfw
    rw [form_unique hf (formOf_mem i) hfw (formOf_accepts_encode i), formOf_name]

/-- Settles O4, from what the decoder refuses under each opcode. -/
theorem illegalWordsHaveNoInstruction : Obligations.IllegalWordsHaveNoInstruction := by
  unfold Obligations.IllegalWordsHaveNoInstruction
  intro w
  unfold decode
  split
  · next hop => exact iff_of_true ⟨_, rfl⟩ (.inl (opcodeOfNumber_eq_none_iff.mp hop))
  · next op hop =>
    by_cases hzero : fieldZero w = 0
    · simp only [hzero, opcodeOfNumber_eq_some_iff.mp hop]
      cases op with
      | add | sub => simp [decodeArith_error_iff, Opcode.number]
      | load | store => simp [decodeMemory_error_iff, Opcode.number]
      | branchNotZero => simp [decodeBranch_error_iff, Opcode.number]
    · rw [if_pos hzero]
      exact iff_of_true ⟨_, rfl⟩ (.inr (.inl hzero))

/-- Settles O6. The two bounds are not needed: the sum is modulo `2^32`. -/
theorem labelDistanceReachesTheLabel : Obligations.LabelDistanceReachesTheLabel := by
  unfold Obligations.LabelDistanceReachesTheLabel
  intro branch target _ _
  simp [branchTargetOf, immediateOf, Instr.toRecord, add_labelDistance]

end

section
/-! What each phase does to a slot that was decoded from an instruction (40_pipeline_engine R82 to R92): its control
signals are the instruction's, so each phase has one outcome, given as an equation. -/

namespace Sys2Proof.Proofs

open Sys2Proof Sys2Proof.Machine Sys2Proof.Laws

section
variable {i : Instr} {q : Slot} {s : State}

/-! ### WB -/

theorem registerWriteEnabled_of_decoded (hd : decodedFrom i q) :
    q.registerWriteEnabled = (writeRegOf i).isSome := by
  obtain ⟨-, -, -, -, -, -, hsig, -⟩ := hd
  simp only [Slot.registerWriteEnabled, hsig, Option.any]
  cases i <;> rfl

theorem resultOf_of_decoded (hd : decodedFrom i q) :
    resultOf q = if i.opcode = .load then q.memoryDatum else q.aluResult := by
  obtain ⟨-, -, -, -, -, -, hsig, -⟩ := hd
  simp only [resultOf, Slot.writebackFromMemory, hsig, Option.any]
  cases i <;> rfl

theorem exec_wb_of_noDest (hph : s.phase = .wb) (hq : s.lat.mem3 = some q) (hd : decodedFrom i q)
    (hr : writeRegOf i = none) : exec i s = .next (retireSlot s) := by
  have hen : q.registerWriteEnabled = false := by simp [registerWriteEnabled_of_decoded hd, hr]
  simp [exec_wb hph, writeBack, hq, hen, retireSlot]

theorem exec_wb_of_dest {r : RegIdx} {v : Word} (hph : s.phase = .wb) (hq : s.lat.mem3 = some q)
    (hd : decodedFrom i q) (hr : writeRegOf i = some r) (hv : resultOf q = some v) :
    exec i s = .next (writeReg (retireSlot s) r v) := by
  have hen : q.registerWriteEnabled = true := by simp [registerWriteEnabled_of_decoded hd, hr]
  obtain ⟨-, -, -, hwr, -⟩ := hd
  rw [resultOf] at hv
  simp [exec_wb hph, writeBack, hq, hen, hwr, hr, hv, retireSlot]

/-- The WB phase of an instruction with a destination register writes it and nothing else. -/
theorem exec_wb_writes {r : RegIdx} {v : Word} (hph : s.phase = .wb) (hq : s.lat.mem3 = some q)
    (hd : decodedFrom i q) (hv : (if i.opcode = .load then q.memoryDatum else q.aluResult) = some v)
    (hr : writeRegOf i = some r) :
    ∃ t, exec i s = .next t ∧ (∀ x, readCell t x = readCell s x) ∧
      t = { s with rf := t.rf, lat := { s.lat with mem3 := none } } ∧
      readReg t r = some v ∧ ∀ r', r' ≠ r → readReg t r' = readReg s r' :=
  ⟨_, exec_wb_of_dest hph hq hd hr ((resultOf_of_decoded hd).trans hv), fun _ => rfl, rfl,
    readReg_writeReg_self _ _ _, fun _ hne => readReg_writeReg_of_ne (retireSlot s) v hne⟩

/-! ### MEM1 -/

theorem storePart_of_disabled (hw : q.memoryWriteEnabled = false) :
    storePart q s = .next (leaveMem1 q s) := by
  simp [storePart, hw]

theorem storePart_of_enabled {a v : Word} (hw : q.memoryWriteEnabled = true) (ha : q.aluResult = some a)
    (hv : q.opVal2 = some v) : storePart q s = .next (leaveMem1 q (writeCell s a v)) := by
  simp [storePart, hw, ha, hv]

theorem accessMemory_of_disabled (hq : s.lat.ex = some q) (hr : q.memoryReadEnabled = false) :
    accessMemory s = storePart q s := by
  simp [accessMemory, hq, hr]

theorem accessMemory_of_enabled {a : Word} (hq : s.lat.ex = some q) (hr : q.memoryReadEnabled = true)
    (ha : q.aluResult = some a) :
    accessMemory s = withCell a s fun v => storePart { q with memoryDatum := some v } s := by
  simp [accessMemory, hq, hr, ha]

/-- Only a LOAD reads memory. -/
theorem memoryReadEnabled_eq_false (hd : decodedFrom i q) (hi : i.opcode ≠ .load) :
    q.memoryReadEnabled = false :=
  Bool.eq_false_iff.mpr fun hr => hi ((memoryReadEnabled_iff hd).mp hr)

/-- Only a STORE writes memory. -/
theorem memoryWriteEnabled_eq_false (hd : decodedFrom i q) (hi : i.opcode ≠ .store) :
    q.memoryWriteEnabled = false :=
  Bool.eq_false_iff.mpr fun hw => hi ((memoryWriteEnabled_iff hd).mp hw)

/-- ADD, SUB and BRANCH_NOT_ZERO pass the MEM1 phase. -/
theorem exec_mem1_passes (hph : s.phase = .mem1) (hq : s.lat.ex = some q) (hd : decodedFrom i q)
    (hload : i.opcode ≠ .load) (hstore : i.opcode ≠ .store) : exec i s = .next (leaveMem1 q s) := by
  rw [exec_mem1 hph, accessMemory_of_disabled hq (memoryReadEnabled_eq_false hd hload),
    storePart_of_disabled (memoryWriteEnabled_eq_false hd hstore)]

theorem exec_mem1_of_load {a : Word} (hph : s.phase = .mem1) (hq : s.lat.ex = some q) (hd : decodedFrom i q)
    (hi : i.opcode = .load) (ha : q.aluResult = some a) :
    exec i s = withCell a s fun v => .next (leaveMem1 { q with memoryDatum := some v } s) := by
  rw [exec_mem1 hph, accessMemory_of_enabled hq ((memoryReadEnabled_iff hd).mpr hi) ha]
  congr 1
  funext v
  exact storePart_of_disabled (q := { q with memoryDatum := some v })
    (memoryWriteEnabled_eq_false (q := q) hd (by simp [hi]))

theorem exec_mem1_of_store {a v : Word} (hph : s.phase = .mem1) (hq : s.lat.ex = some q) (hd : decodedFrom i q)
    (hi : i.opcode = .store) (ha : q.aluResult = some a) (hv : q.opVal2 = some v) :
    exec i s = .next (leaveMem1 q (writeCell s a v)) := by
  rw [exec_mem1 hph, accessMemory_of_disabled hq (memoryReadEnabled_eq_false hd (by simp [hi])),
    storePart_of_enabled ((memoryWriteEnabled_iff hd).mpr hi) ha hv]

/-! ### EX -/

/-- The second ALU operand is the immediate of the forms that have one and the register of the others (R88, R121). -/
theorem aluSecond_of_decoded (hd : decodedFrom i q) : aluSecond q = (immediateOf i).or q.opVal2 := by
  obtain ⟨-, -, -, -, him, -, hsig, -⟩ := hd
  simp only [aluSecond, Slot.aluOperandIsRegister, hsig, him, Option.any]
  cases i <;> rfl

theorem isZeroWord_eq (a : Word) : isZeroWord a = decide (a.toNat = 0) := by
  simp [isZeroWord, BitVec.toNat_eq, beq_eq_decide]

/-- With its operands latched, the ALU dispatch of a decoded slot is that of the pseudocode (R88, R95). -/
theorem aluOf_eq_r95Alu (hd : decodedFrom i q) (h1 : q.opVal1.isSome = true)
    (h2 : (readReg2Of i).isSome = true → q.opVal2.isSome = true) : aluOf i q = some (r95Alu q) := by
  obtain ⟨a, ha⟩ := Option.isSome_iff_exists.mp h1
  have hsecond := aluSecond_of_decoded hd
  obtain ⟨hop, -⟩ := hd
  cases i with
  | addReg rd rs rt | subReg rd rs rt =>
    obtain ⟨b, hv⟩ := Option.isSome_iff_exists.mp (h2 rfl)
    simp only [aluOf, aluAdd, aluSub, r95Alu, ← aluSecond.eq_1, hsecond]
    simp [hop, ha, hv, immediateOf, Instr.opcode, Instr.toRecord]
  | branchNotZero rs imm =>
    simp [aluOf, aluTestZero, r95Alu, hop, ha, isZeroWord, Instr.opcode, Instr.toRecord]
  | addLit rd rs imm | subLit rd rs imm | load rt rs imm | store rt rs imm =>
    simp [aluOf, aluAdd, aluSub, r95Alu, ← aluSecond.eq_1, hop, ha, hsecond, immediateOf, Instr.opcode, Instr.toRecord]

/-- The slot `q` with its operands latched (R87): `a`, and `b` where the instruction reads a second register. -/
def latchOperands (q : Slot) (a b : Word) : Slot :=
  { q with opVal1 := some a, opVal2 := if q.readReg2.isSome then some b else q.opVal2 }

theorem resolveOperands_of_values {r1 : RegIdx} {a b : Word} {k : Slot → Result State}
    (hr1 : q.readReg1 = some r1) (ha : fwd s r1 = .value a)
    (hb : ∀ r2, q.readReg2 = some r2 → fwd s r2 = .value b) :
    resolveOperands q s k = k (latchOperands q a b) := by
  simp only [resolveOperands, hr1, ha, resolveSecond]
  cases hr2 : q.readReg2 with
  | none => simp [latchOperands, hr1, hr2]
  | some r2 => simp [latchOperands, hr1, hr2, hb r2 hr2]

/-- The EX phase of a slot whose operands the forwarding unit delivers. -/
theorem exec_ex_of_values {a b : Word} (hph : s.phase = .ex) (hq : s.lat.id = some q) (hd : decodedFrom i q)
    (ha : fwd s (readReg1Of i) = .value a) (hb : ∀ r2, readReg2Of i = some r2 → fwd s r2 = .value b) :
    exec i s = .next (leaveEx (r95Alu (latchOperands q a b)) s) := by
  have hdq : decodedFrom i (latchOperands q a b) := hd
  obtain ⟨-, hr1, hr2, -⟩ := hd
  have halu : aluOf i (latchOperands q a b) = some (r95Alu (latchOperands q a b)) :=
    aluOf_eq_r95Alu hdq rfl fun hsome => by simp [latchOperands, hr2, hsome]
  rw [exec_ex hph, executeWith]
  simp only [hq]
  rw [resolveOperands_of_values hr1 ha (hr2 ▸ hb), halu]

/-! ### IF1 -/

theorem exec_if1_of_taken {a : Word} (hph : s.phase = .if1) (hq : s.lat.ex = some q)
    (ht : takenBranch q = true) (ha : q.branchTargetAddress = some a) :
    exec i s = .next { squash s with fetchPtr := a } := by
  simp [exec_if1 hph, resolveBranch, hq, ht, ha]

theorem exec_if1_of_notTaken (hph : s.phase = .if1) (hq : s.lat.ex = some q) (ht : takenBranch q = false) :
    exec i s = .next s := by
  simp [exec_if1 hph, resolveBranch, hq, ht]

/-- Only a BRANCH_NOT_ZERO is a taken branch. -/
theorem takenBranch_eq_false (hd : decodedFrom i q) (hi : i.opcode ≠ .branchNotZero) : takenBranch q = false := by
  have hen : q.branchEnabled = false := Bool.eq_false_iff.mpr fun hb => hi ((branchEnabled_iff hd).mp hb)
  simp [takenBranch, hen]

theorem takenBranch_of_branch (hd : decodedFrom i q) (hi : i.opcode = .branchNotZero) :
    takenBranch q = (q.isZero == some false) := by
  simp [takenBranch, (branchEnabled_iff hd).mpr hi]

end

/-! ### The fetch -/

/-- An index that is not negative is in the image exactly below its length (R24). -/
theorem toInt_lt_length_iff {img : List InstrWord} {p : Word} (h : 0 ≤ p.toInt) :
    p.toInt < (img.length : Int) ↔ ∃ w, img[p.toNat]? = some w := by
  have hnat : p.toInt = p.toNat := by
    have hcond := BitVec.toInt_eq_toNat_cond p
    split at hcond <;> omega
  rw [hnat, Int.ofNat_lt]
  exact ⟨fun hlt => ⟨_, List.getElem?_eq_getElem hlt⟩, fun ⟨_, hw⟩ => (List.getElem?_eq_some_iff.mp hw).1⟩

theorem imageAt_of_nonneg {s : State} {p : Word} (h : 0 ≤ p.toInt) : imageAt s p = s.img[p.toNat]? := by
  simp [imageAt, h]

theorem fetch_of_negative {s : State} (h : s.fetchPtr.toInt < 0) :
    fetch s = .next { s with fault := some (.fetchOutOfRange s.fetchPtr) } := by
  simp [fetch, h, raise]

theorem fetch_of_word {s : State} {w : InstrWord} (h : 0 ≤ s.fetchPtr.toInt)
    (hw : s.img[s.fetchPtr.toNat]? = some w) :
    fetch s = .next { s with
      lat := { s.lat with if1 := some (newSlot w s.fetchPtr s.seqNext) }
      seqNext := s.seqNext + 1
      fetchPtr := s.fetchPtr + 1
      eop := false } := by
  simp [fetch, h, hw]

theorem fetch_of_pastEnd {s : State} (h : (imageLength s : Int) ≤ s.fetchPtr.toInt) :
    fetch s = .next { s with lat := { s.lat with if1 := none }, eop := true } := by
  have hge : 0 ≤ s.fetchPtr.toInt := (Int.natCast_nonneg _).trans h
  have hnone : s.img[s.fetchPtr.toNat]? = none :=
    Option.eq_none_iff_forall_ne_some.mpr fun w hw =>
      absurd ((toInt_lt_length_iff hge).mpr ⟨w, hw⟩) (not_lt.mpr h)
  simp [fetch, hge, hnone]

end Sys2Proof.Proofs

open Sys2Proof Sys2Proof.Machine Sys2Proof.Laws Sys2Proof.Proofs

/-- Settles O36: the operands latched, the ALU dispatch of each form gives its result. -/
theorem executePhaseComputes : Obligations.ExecutePhaseComputes := by
  unfold Obligations.ExecutePhaseComputes
  intro i s q a b hph hq hd ha hb
  have hexec := exec_ex_of_values hph hq hd ha hb
  have hsecond := aluSecond_of_decoded (q := latchOperands q a b) hd
  obtain ⟨hop, -, hr2, -⟩ := hd
  refine ⟨r95Alu (latchOperands q a b), hexec, ?_⟩
  have hop' : (latchOperands q a b).opcode = some i.opcode := hop
  simp only [r95Alu, ← aluSecond.eq_1, hsecond, hop']
  cases i with
  | branchNotZero =>
    simp [latchOperands, hop, hr2, Instr.opcode, Instr.toRecord, readReg2Of, ← isZeroWord_eq, isZeroWord]
  | addReg | addLit | subReg | subLit | load | store =>
    simp [latchOperands, hop, hr2, Instr.opcode, Instr.toRecord, immediateOf, readReg2Of]

/-- Settles O38, from the MEM1 phase of a LOAD, of a STORE and of the instructions that pass it. -/
theorem mem1PhaseAccessesMemory : Obligations.Mem1PhaseAccessesMemory := by
  unfold Obligations.Mem1PhaseAccessesMemory
  intro i s q hph hq hd
  cases i with
  | load rt rs imm =>
    intro a ha
    rw [exec_mem1_of_load hph hq hd rfl ha]
    exact ⟨fun v hv => by simp [withCell, hv, leaveMem1], fun hnone => by simp [withCell, hnone, raise]⟩
  | store rt rs imm =>
    intro a v ha hv
    exact ⟨_, exec_mem1_of_store hph hq hd rfl ha hv, readCell_writeCell_self s a v,
      fun x hx => readCell_writeCell_of_ne s v hx, rfl⟩
  | addReg | addLit | subReg | subLit | branchNotZero =>
    exact exec_mem1_passes hph hq hd (by simp [Instr.opcode, Instr.toRecord]) (by simp [Instr.opcode, Instr.toRecord])

/-- Settles O39: an instruction with a destination register writes it, the other two only retire. -/
theorem writebackPhaseWritesTheResult : Obligations.WritebackPhaseWritesTheResult := by
  unfold Obligations.WritebackPhaseWritesTheResult
  intro i s q v hph hq hd hv
  cases i with
  | addReg | addLit | subReg | subLit | load => exact exec_wb_writes hph hq hd hv rfl
  | store | branchNotZero =>
    exact ⟨_, exec_wb_of_noDest hph hq hd rfl, fun _ => rfl, rfl, fun _ => rfl⟩

/-- Settles O40: neither instruction has a destination register. -/
theorem writebackPhaseRetiresWithoutResult : Obligations.WritebackPhaseRetiresWithoutResult := by
  unfold Obligations.WritebackPhaseRetiresWithoutResult
  intro i s q hph hq hd hi
  have hnone : writeRegOf i = none := by
    cases i with
    | store | branchNotZero => rfl
    | addReg | addLit | subReg | subLit | load => simp [Instr.opcode, Instr.toRecord] at hi
  exact exec_wb_of_noDest hph hq hd hnone

/-- Settles O41: the target of a taken branch is its own `pc` plus its immediate, and no other slot is taken. -/
theorem branchEvaluationSquashesAndRedirects : Obligations.BranchEvaluationSquashesAndRedirects := by
  unfold Obligations.BranchEvaluationSquashesAndRedirects
  intro i s q hph hq hd
  cases i with
  | branchNotZero rs imm =>
    have htaken := takenBranch_of_branch hd rfl
    obtain ⟨-, -, -, -, -, htarget, -⟩ := hd
    exact ⟨fun hz => exec_if1_of_taken hph hq (by simp [htaken, hz]) htarget,
      fun hz => exec_if1_of_notTaken hph hq (by simp [htaken, hz])⟩
  | addReg | addLit | subReg | subLit | load | store =>
    exact exec_if1_of_notTaken hph hq (takenBranch_eq_false hd (by simp [Instr.opcode, Instr.toRecord]))

/-- Settles O42, from the fetch in each of its three ranges. -/
theorem fetchPhaseCases : Obligations.FetchPhaseCases := by
  unfold Obligations.FetchPhaseCases
  intro s
  refine ⟨fetch_of_negative, fun hge hlt => ?_, fetch_of_pastEnd⟩
  obtain ⟨w, hw⟩ := (toInt_lt_length_iff hge).mp hlt
  exact ⟨w, (imageAt_of_nonneg hge).trans hw, _, rfl, fetch_of_word hge hw⟩

end

section
/-! What a cycle that raises nothing leaves (40_pipeline_engine R81, R83, R86, R93, R96 to R98): where each slot has
moved, and how the end of the cycle reports and counts it. -/

namespace Sys2Proof.Proofs

open Sys2Proof Sys2Proof.Machine Sys2Proof.Laws

/-! ### Where the slots move -/

/-- The ALU dispatch computes fields of the slot and keeps the others. -/
theorem aluOf_frame {i : Instr} {q q' : Slot} (h : aluOf i q = some q') :
    q' = { q with aluResult := q'.aluResult, isZero := q'.isZero } := by
  cases i with
  | branchNotZero =>
    simp only [aluOf, aluTestZero] at h
    split at h
    · obtain rfl := Option.some.inj h
      rfl
    · simp at h
  | addReg | addLit | subReg | subLit | load | store =>
    simp only [aluOf, aluAdd, aluSub] at h
    split at h
    · obtain rfl := Option.some.inj h
      rfl
    · simp at h

/-- The phases WB to MEM1 move the slots of EX, MEM1 and MEM2 one stage on and retire that of MEM3. -/
theorem backPhases_latches {s u : State} (h : backPhases s = .next u) (hno : u.fault = none) :
    ∃ m1, m1.map (·.seq) = s.lat.ex.map (·.seq) ∧
      u.lat = ⟨s.lat.if1, s.lat.if2, s.lat.id, none, m1, s.lat.mem1, s.lat.mem2⟩ := by
  rcases andThen_next h with ⟨_, -, hf, rfl⟩ | ⟨v, hwb, -, hm⟩
  · simp [hno] at hf
  · obtain ⟨hv, -⟩ := wbPhase_next hwb
    have hlat : v.lat = { s.lat with mem3 := none } := by rw [hv]
    rcases mem1Phase_next hm with ⟨hex, rfl⟩ | ⟨_, _, -, -, -, -, rfl⟩ | ⟨q, q', hq, hu, hread, -⟩
    · have hnone : s.lat.ex = none := by simpa [hlat] using hex
      exact ⟨none, by simp [hnone], by simp [passMemory, hlat, hnone]⟩
    · simp at hno
    · have hq_s : s.lat.ex = some q := by simpa [hlat] using hq
      have hseq : q'.seq = q.seq := by
        rcases hread with ⟨-, rfl⟩ | ⟨_, _, -, -, -, rfl⟩ <;> rfl
      exact ⟨some q', by simp [hq_s, hseq], by rw [hu]; simp [passMemory, hlat]⟩

/-- The EX phase moves the slot of ID to EX. -/
theorem exPhase_latches {s u : State} (hempty : s.lat.ex = none) (h : exPhase s = .next u) (hno : u.fault = none) :
    ∃ e, e.map (·.seq) = s.lat.id.map (·.seq) ∧ u.lat = { s.lat with ex := e, id := none } := by
  rcases exPhase_next h with ⟨hid, rfl⟩ | ⟨q, i, q1, q2, hq, -, halu, rfl, hops⟩ | ⟨_, _, -, -, -, rfl⟩
  · exact ⟨u.lat.ex, by simp [hid, hempty], by rw [← hid]⟩
  · have hseq : q1.seq = q.seq := by
      rcases hops with ⟨_, _, -, -, -, rfl⟩ | ⟨_, _, _, _, -, -, -, -, rfl⟩ <;> rfl
    exact ⟨some q2, by rw [aluOf_frame halu]; simp [hq, hseq], rfl⟩
  · simp at hno

/-- The ID phase moves the slot of IF2 to ID. -/
theorem idPhase_latches {s u : State} (hempty : s.lat.id = none) (h : idPhase s = .next u) (hno : u.fault = none) :
    ∃ d, d.map (·.seq) = s.lat.if2.map (·.seq) ∧ u.lat = { s.lat with id := d, if2 := none } := by
  rcases idPhase_next h with ⟨hif2, rfl⟩ | ⟨q, i, hq, -, rfl⟩ | ⟨_, _, -, -, rfl⟩
  · exact ⟨u.lat.id, by simp [hif2, hempty], by rw [← hif2]⟩
  · exact ⟨_, by simp [hq], rfl⟩
  · simp at hno

/-- The branch evaluation as one update: a taken branch in EX squashes ID and IF2 and redirects the fetch. -/
theorem branchPhase_eq {s t : State} (h : branchPhase s = .next t) :
    ∃ ph, t = { s with
      lat := { s.lat with
        id := if s.lat.ex.any takenBranch then none else s.lat.id
        if2 := if s.lat.ex.any takenBranch then none else s.lat.if2 }
      fetchPtr := if s.lat.ex.any takenBranch then (s.lat.ex.bind (·.branchTargetAddress)).getD 0 else s.fetchPtr
      phase := ph } := by
  rcases branchPhase_next h with ⟨hno, ht⟩ | ⟨q, a, hq, htaken, ha, rfl⟩
  · exact ⟨t.phase, by simpa [hno] using ht⟩
  · exact ⟨.if1, by simp [hq, htaken, ha]⟩

/-- The fetch writes the latch of IF1 only. -/
theorem fetch_latches {s t : State} (h : fetch s = .next t) (hno : t.fault = none) :
    ∃ f, t.lat = { s.lat with if1 := f } := by
  rcases fetch_next h with ⟨-, rfl⟩ | ⟨-, word, -, rfl⟩ | ⟨-, -, rfl⟩
  · simp at hno
  · exact ⟨_, rfl⟩
  · exact ⟨none, rfl⟩

/-- The phases ID to IF1 move the slots of IF2 and IF1 one stage on, unless a taken branch in EX squashes them. -/
theorem frontPhases_latches {s t : State} (hempty : s.lat.id = none) (h : frontPhases s = .next t)
    (hno : t.fault = none) :
    ∃ f d, d.map (·.seq) = s.lat.if2.map (·.seq) ∧
      t.lat = { s.lat with
        if1 := f
        if2 := if s.lat.ex.any takenBranch then none else s.lat.if1
        id := if s.lat.ex.any takenBranch then none else d } := by
  rcases frontPhases_next h with ⟨-, hf⟩ | ⟨s1, s2, hid, hno1, hbr, -, hfe⟩
  · simp [hno] at hf
  · obtain ⟨d, hseq, hlat⟩ := idPhase_latches hempty hid hno1
    obtain ⟨_, rfl⟩ := branchPhase_eq hbr
    obtain ⟨f, hf⟩ := fetch_latches hfe hno
    exact ⟨f, d, hseq, by simp [hf, hlat, passFetch]⟩

/-! ### The cycle that completes -/

theorem stalled_of_backPhases {s u : State} (h : backPhases s = .next u) : stalled u = stalled s := by
  obtain ⟨-, -, hid, -⟩ := backPhases_front h
  simp [stalled, hid]

/-- A step that raises nothing ran its back phases and then, as the slot in ID was to stall or not, held the front of
the pipeline or ran all its phases. -/
theorem step_completes {s t : State} (hrun : terminal s = false) (h : step s = .next t) (hno : t.fault = none) :
    ∃ u, backPhases s = .next u ∧ u.fault = none ∧
      ((stalled s = true ∧ t = { endOfCycle true s.lat.mem3 (holdStalled u) with phase := .atRest }) ∨
       (stalled s = false ∧ ∃ v w, exPhase u = .next v ∧ v.fault = none ∧ frontPhases v = .next w ∧ w.fault = none ∧
          t = { endOfCycle false s.lat.mem3 w with phase := .atRest })) := by
  rw [step_of_running hrun] at h
  obtain ⟨c, hc, ⟨hf, rfl⟩ | ⟨hf, rfl⟩⟩ := settle_next h
  · exact absurd hno (Option.ne_none_iff_isSome.mpr hf)
  · rcases cyclePhases_next hc with ⟨-, hf'⟩ | ⟨u, hb, hnou, hrest⟩
    · simp [hf] at hf'
    · have hstall := stalled_of_backPhases hb
      refine ⟨u, hb, hnou, ?_⟩
      rcases hrest with ⟨hs, rfl⟩ | ⟨hs, ⟨-, hf'⟩ | ⟨v, hex, hnov, ⟨-, hf'⟩ | ⟨w, hfr, hnow, rfl⟩⟩⟩
      · exact .inl ⟨hstall ▸ hs, rfl⟩
      · simp [hf] at hf'
      · simp [hf] at hf'
      · exact .inr ⟨hstall ▸ hs, v, w, hex, hnov, hfr, hnow, rfl⟩

/-- A step that raises nothing ends the cycle on the latches it leaves (R95). -/
theorem step_endOfCycle {s t : State} (hrun : terminal s = false) (h : step s = .next t) (hno : t.fault = none) :
    ∃ u, u.cycle = s.cycle ∧ t = { endOfCycle (stalled s) s.lat.mem3 u with phase := .atRest } := by
  obtain ⟨u, hb, -, hrest⟩ := step_completes hrun h hno
  obtain ⟨-, -, -, -, -, -, hcycle, -⟩ := backPhases_front hb
  rcases hrest with ⟨hs, rfl⟩ | ⟨hs, v, w, hex, -, hfr, -, rfl⟩
  · exact ⟨holdStalled u, hcycle, by rw [hs]⟩
  · exact ⟨w, by rw [frontPhases_frame hfr, exPhase_frame hex]; exact hcycle, by rw [hs]⟩

/-! ### The stage report -/

/-- The entry of a stage with its token, none for an empty stage. -/
def entryOf (x : StageToken × Option Slot) : Option ReportEntry := x.2.map fun q => ⟨q.seq, x.1⟩

theorem entry_append_filterMap (tok : StageToken) (p : Option Slot) (l : List (StageToken × Option Slot)) :
    entry tok p ++ l.filterMap entryOf = ((tok, p) :: l).filterMap entryOf := by
  cases p <;> rfl

/-- The report as one list of the occupied stages (R97). -/
theorem stageReport_eq (isStall : Bool) (lat : Latches) (w : Option Slot) :
    stageReport isStall lat w =
      [(.IF1, lat.if1), (.IF2, lat.if2), (if isStall then .stall else .ID, lat.id), (.EX, lat.ex),
        (.MEM1, lat.mem1), (.MEM2, lat.mem2), (.MEM3, lat.mem3), (.WB, w)].filterMap entryOf := by
  rw [stageReport, ← List.append_nil (_ ++ entry .WB w), ← List.filterMap_nil (f := entryOf)]
  simp only [List.append_assoc, entry_append_filterMap]

/-! ### The end of a run -/

theorem drained_iff {lat : Latches} :
    drained lat = true ↔ lat.if1 = none ∧ lat.if2 = none ∧ lat.id = none ∧ lat.ex = none ∧ lat.mem1 = none ∧
      lat.mem2 = none ∧ lat.mem3 = none := by
  cases lat
  simp [drained, Latches.empty]

end Sys2Proof.Proofs

open Sys2Proof Sys2Proof.Machine Sys2Proof.Laws Sys2Proof.Proofs

/-- Settles O25, from the end of the cycle. -/
theorem endOfCycleCountsAndFinishes : Obligations.EndOfCycleCountsAndFinishes := by
  unfold Obligations.EndOfCycleCountsAndFinishes
  intro s t hrun h hno
  obtain ⟨u, hcycle, rfl⟩ := step_endOfCycle hrun h hno
  exact ⟨congrArg (· + 1) hcycle, by simp [drained_iff]⟩

/-- Settles O26, from the report at the end of the cycle. -/
theorem reportListsTheOccupiedStages : Obligations.ReportListsTheOccupiedStages := by
  unfold Obligations.ReportListsTheOccupiedStages
  intro s t hrun h hno
  obtain ⟨u, -, rfl⟩ := step_endOfCycle hrun h hno
  exact stageReport_eq (stalled s) u.lat s.lat.mem3

/-- Settles O46: the back phases leave the front of the pipeline alone and the stall cycle holds it. -/
theorem stallCycleFreezesTheFront : Obligations.StallCycleFreezesTheFront := by
  unfold Obligations.StallCycleFreezesTheFront
  intro s t q _ hrun hq hpending h hno
  have hstall : stalled s = true := by simp [stalled, hq, hpending]
  obtain ⟨u, hb, hnou, ⟨-, rfl⟩ | ⟨hgo, -⟩⟩ := step_completes hrun h hno
  · obtain ⟨-, -, -, -, hptr, hseq, -, heop, -⟩ := backPhases_front hb
    obtain ⟨m1, hm1, hlat⟩ := backPhases_latches hb hnou
    simp [hlat, hq, hptr, hseq, heop, hm1, stageReport, entry]
  · simp [hstall] at hgo

/-- Settles O47: the back phases, the EX phase and the front phases each move their slots one stage on. -/
theorem slotsMoveOneStageOn : Obligations.SlotsMoveOneStageOn := by
  unfold Obligations.SlotsMoveOneStageOn
  intro s t _ hrun hgo h hno
  obtain ⟨u, hb, hnou, ⟨hstall, -⟩ | ⟨-, v, w, hex, hnov, hfr, hnow, rfl⟩⟩ := step_completes hrun h hno
  · exact absurd (hgo.symm.trans hstall) (by simp)
  · obtain ⟨m1, hm1, hu⟩ := backPhases_latches hb hnou
    obtain ⟨e, he, hv⟩ := exPhase_latches (by rw [hu]) hex hnov
    obtain ⟨f, d, hd, hw⟩ := frontPhases_latches (by rw [hv]) hfr hnow
    rw [hu] at he hv
    rw [hv] at hd hw
    refine ⟨by simp [hw], by simp [hw], by simpa [hw] using hm1, by simpa [hw] using he, ?_⟩
    cases htaken : e.any takenBranch with
    | true => simp [hw, htaken]
    | false => simpa [hw, htaken] using hd

end

section
/-! What runs in a step (40_pipeline_engine R85, R95): `exec` of the instruction a slot's word decodes to, and a word
placed at the front of an empty pipeline is that instruction (log 7). -/

namespace Sys2Proof.Proofs

open Sys2Proof Sys2Proof.Machine Sys2Proof.Laws

theorem runSlot_of_decode {p : Phase} {q : Slot} {i : Instr} (s : State) (h : decode q.instr = .ok i) :
    runSlot p q s = exec i { s with phase := p } := by
  simp [runSlot, h]

/-- Two continuations that agree on what a phase can leave give the same result. -/
theorem andThen_congr {r : Result State} {k k' : State → Result State} (h : ∀ s, r = .next s → k s = k' s) :
    andThen r k = andThen r k' := by
  cases r with
  | next s => simp only [andThen, h s rfl]
  | fault | refused => rfl

/-- A step that does not stall on the slot in ID runs `exec` of its instruction in phase EX. -/
theorem step_of_decoded {s : State} {q : Slot} {i : Instr} (hi : decode q.instr = .ok i) (hrun : terminal s = false)
    (hq : s.lat.id = some q) (hgo : q.stallPending = false) :
    step s = settle s (andThen (backPhases s) fun s1 =>
      andThen (exec i { s1 with phase := .ex }) fun s2 =>
        andThen (frontPhases s2) fun s3 => .next (endOfCycle false s.lat.mem3 s3)) := by
  rw [step_of_running hrun, cyclePhases]
  congr 1
  refine andThen_congr fun s1 hb => ?_
  obtain ⟨-, -, hid, -⟩ := backPhases_front hb
  have hq1 : s1.lat.id = some q := hid.trans hq
  have hstall : stalled s1 = false := by simp [stalled, hq1, hgo]
  have hex : exPhase s1 = exec i { s1 with phase := .ex } := by
    simp only [exPhase, hq1]
    exact runSlot_of_decode s1 hi
  simp [hstall, hex]

/-- The back phases do nothing where EX and the stages past it are empty. -/
theorem backPhases_of_empty {s : State} {d : Option Slot} (hno : s.fault = none)
    (hlat : s.lat = { Latches.empty with id := d }) : backPhases s = .next s := by
  have hmem3 : s.lat.mem3 = none := by rw [hlat]; rfl
  have hex : s.lat.ex = none := by rw [hlat]; rfl
  have hmove : { s.lat with mem3 := s.lat.mem2, mem2 := s.lat.mem1, mem1 := none } = s.lat := by rw [hlat]; rfl
  have hpass : passMemory s = s := congrArg (fun lat => { s with lat := lat }) hmove
  simp [backPhases, wbPhase, hmem3, andThen_of_noFault hno, mem1Phase, hex, hpass]

theorem decode_of_decodeTableWord {n w : Nat} {i : Instr} (h : decodeTableWord n w = some i) :
    decode (tableWord n w) = .ok i := by
  unfold decodeTableWord at h
  split at h
  · next j hj => rw [hj, Option.some.inj h]
  · simp at h

/-- A legal word placed in an empty pipeline stands decoded in ID, with no LOAD ahead of it. -/
theorem withFetchWord_lat {s : State} {w : Nat} {i : Instr} (hempty : drained s.lat = true)
    (hi : decodeTableWord 64 w = some i) :
    (s.withFetchWord 64 w).lat =
      { Latches.empty with id := some (decodeSlot i (newSlot (tableWord 64 w) s.fetchPtr s.seqNext)) } := by
  have hlat : s.lat = Latches.empty := by simpa [drained] using hempty
  simp only [State.withFetchWord, placeAtFront, frontOf, decode_of_decodeTableWord hi, hlat]
  rfl

end Sys2Proof.Proofs

open Sys2Proof Sys2Proof.Machine Sys2Proof.Laws Sys2Proof.Proofs

/-- Settles O20: the EX phase through `step_of_decoded`, each other phase through the slot it runs. -/
theorem stepRunsTheDecodedInstruction : Obligations.StepRunsTheDecodedInstruction := by
  unfold Obligations.StepRunsTheDecodedInstruction
  intro s q i hi
  refine ⟨step_of_decoded hi, fun hq => ?_, fun hq => ?_, fun hq => ?_, fun hq => ?_⟩
  · simp only [wbPhase, hq, runSlot_of_decode s hi]
  · simp only [mem1Phase, hq, runSlot_of_decode s hi]
  · simp only [idPhase, hq, hi]
  · simp only [branchPhase, hq, runSlot_of_decode s hi]

/-- Settles O22: with nothing ahead of the placed word the back phases do nothing and its slot does not stall. -/
theorem placedWordRunsInTheNextStep : Obligations.PlacedWordRunsInTheNextStep := by
  unfold Obligations.PlacedWordRunsInTheNextStep
  intro s w i hempty hi
  have hlat := withFetchWord_lat hempty hi
  have hstep := step_of_decoded (s := s.withFetchWord 64 w) (decode_of_decodeTableWord hi) rfl
    (q := decodeSlot i (newSlot (tableWord 64 w) s.fetchPtr s.seqNext)) (by rw [hlat]) rfl
  have hback : backPhases (s.withFetchWord 64 w) = .next (s.withFetchWord 64 w) :=
    backPhases_of_empty rfl hlat
  have hmem3 : (s.withFetchWord 64 w).lat.mem3 = none := by rw [hlat]; rfl
  rw [hstep, hback, andThen_of_noFault rfl, hmem3]

end

section
/-! A cycle computes what the pseudocode of 40_pipeline_engine R95 says: each phase leaves in the shared latches what
the pseudocode holds in its local copies, and the two ends of the cycle agree (R95, R99, R150; log 12). -/

namespace Sys2Proof.Proofs

open Sys2Proof Sys2Proof.Machine Sys2Proof.Laws

/-! ### WB and MEM1 -/

theorem r95WriteBack_of_result {rf : RegFile} {q : Slot} {r : RegIdx} {v : Word}
    (hen : q.registerWriteEnabled = true) (hr : q.writeReg = some r) (hv : resultOf q = some v) :
    r95WriteBack rf (some q) = mapSet rf r.toNat v := by
  simp only [r95WriteBack, hen, hr, ← resultOf.eq_1, hv]
  rfl

theorem wbPhase_eq_r95 {s t : State} (h : wbPhase s = .next t) :
    ∃ ph, t = { s with rf := r95WriteBack s.rf s.lat.mem3, lat := { s.lat with mem3 := none }, phase := ph } := by
  obtain ⟨ht, hrf⟩ := wbPhase_next h
  refine ⟨t.phase, ?_⟩
  have hrf' : t.rf = r95WriteBack s.rf s.lat.mem3 := by
    rcases hrf with ⟨hq, hrf⟩ | ⟨q, hq, hen, hrf⟩ | ⟨q, r, v, hq, hen, hr, hv, hrf⟩
    · rw [hrf, hq]
      rfl
    · simp [hrf, hq, r95WriteBack, hen]
    · rw [hrf, hq, r95WriteBack_of_result hen hr hv]
  rw [← hrf']
  exact ht

/-- The MEM1 phase of the pseudocode for a stage that may be empty. -/
def r95Memory (mem : Memory) (p : Option Slot) : Except FatalCondition (Option Slot × Memory) :=
  match p with
  | none => .ok (none, mem)
  | some q =>
    match r95Access mem q with
    | .error f => .error f
    | .ok (q', mem') => .ok (some q', mem')

theorem mem1Phase_eq_r95 {s t : State} (hempty : s.lat.mem1 = none) (h : mem1Phase s = .next t) :
    (∃ f ph, r95Memory s.mem s.lat.ex = .error f ∧ t = { s with fault := some f, phase := ph }) ∨
    (∃ m1 mem' ph, r95Memory s.mem s.lat.ex = .ok (m1, mem') ∧
      t = { s with mem := mem', lat := { s.lat with mem1 := m1, ex := none }, phase := ph }) := by
  rcases mem1Phase_next h with ⟨hq, rfl⟩ | ⟨q, a, hq, hen, ha, hcell, rfl⟩ | ⟨q, q', hq, ht, hread, hmem⟩
  · exact .inr ⟨t.lat.mem1, t.mem, t.phase, by rw [hq, hempty]; rfl, by rw [← hq]⟩
  · rw [readCell] at hcell
    exact .inl ⟨_, _, by simp [r95Memory, r95Access, hq, hen, ha, hcell], rfl⟩
  · refine .inr ⟨some q', t.mem, _, ?_, ht⟩
    rcases hread with ⟨hen, rfl⟩ | ⟨a, v, hen, ha, hcell, rfl⟩
    · rcases hmem with ⟨hw, hm⟩ | ⟨a', v', hw, ha', hv', hm⟩
      · simp [r95Memory, r95Access, hq, hen, hw, hm]
      · simp [r95Memory, r95Access, hq, hen, hw, hm, ha', hv']
    · rw [readCell] at hcell
      rcases hmem with ⟨hw, hm⟩ | ⟨a', v', hw, ha', hv', hm⟩
      · simp [r95Memory, r95Access, hq, hen, ha, hcell, hw, hm]
      · obtain rfl : a = a' := Option.some.inj (ha.symm.trans ha')
        simp [r95Memory, r95Access, hq, hen, ha, hcell, hw, hm, hv']

/-- The back phases raise what the pseudocode's MEM1 phase raises, or leave its local copies in the latches. -/
theorem backPhases_eq_r95 {s u : State} (hno : s.fault = none) (h : backPhases s = .next u) :
    (∃ f lat ph, r95Memory s.mem s.lat.ex = .error f ∧
      u = { s with rf := r95WriteBack s.rf s.lat.mem3, fault := some f, lat := lat, phase := ph }) ∨
    (∃ m1 mem' ph, r95Memory s.mem s.lat.ex = .ok (m1, mem') ∧
      u = { s with
        rf := r95WriteBack s.rf s.lat.mem3
        mem := mem'
        lat := ⟨s.lat.if1, s.lat.if2, s.lat.id, none, m1, s.lat.mem1, s.lat.mem2⟩
        phase := ph }) := by
  rcases andThen_next h with ⟨v, hwb, hf, rfl⟩ | ⟨v, hwb, -, hm⟩
  · obtain ⟨_, rfl⟩ := wbPhase_eq_r95 hwb
    simp [hno] at hf
  · obtain ⟨_, rfl⟩ := wbPhase_eq_r95 hwb
    rcases mem1Phase_eq_r95 rfl hm with ⟨f, ph, hr, rfl⟩ | ⟨m1, mem', ph, hr, rfl⟩
    · exact .inl ⟨f, _, ph, hr, rfl⟩
    · exact .inr ⟨m1, mem', ph, hr, rfl⟩

/-! ### EX and ID -/

/-- What the pseudocode's `Fwd` answers where the forwarding mux delivers `x` for register `r`. -/
def fetchedAs (r : RegIdx) (x : Fetched) : Except FatalCondition Word :=
  match x with
  | .value v => .ok v
  | .absent => .error (.registerAbsent r)
  | .notComputed => .ok 0

theorem fetchedAs_scanStage (p : Option Slot) (st : ScanStage) (r : RegIdx) (next : Fetched) :
    fetchedAs r (scanStage p st r next) =
      if p.any (qualifies · st r) then .ok ((p.bind producedValue).getD 0) else fetchedAs r next := by
  cases p with
  | none => rfl
  | some q =>
    simp only [scanStage, Option.any_some, Option.bind_some]
    split
    · cases producedValue q <;> rfl
    · rfl

/-- The forwarding mux delivers what `Fwd` of the pseudocode answers (R106). -/
theorem r95Fwd_eq (s : State) (r : RegIdx) :
    r95Fwd s.rf s.lat.mem1 s.lat.mem2 s.lat.mem3 r = fetchedAs r (fwd s r) := by
  have hfile : fetchedAs r (fetchFromFile s r) =
      (match mapGet s.rf r.toNat with
        | some v => .ok v
        | none => .error (.registerAbsent r)) := by
    rw [fetchFromFile, readReg]
    cases mapGet s.rf r.toNat <;> rfl
  rw [fwd, fetchedAs_scanStage, fetchedAs_scanStage, fetchedAs_scanStage, hfile]
  rfl

theorem r95Execute_of_values {rf : RegFile} {m1 m2 m3 : Option Slot} {q : Slot} {a b : Word}
    (ha : r95Fwd rf m1 m2 m3 (q.readReg1.getD 0) = .ok a)
    (hb : ∀ r2, q.readReg2 = some r2 → r95Fwd rf m1 m2 m3 r2 = .ok b) :
    r95Execute rf m1 m2 m3 q = .ok (r95Alu (latchOperands q a b)) := by
  simp only [r95Execute, ha]
  cases hr2 : q.readReg2 with
  | none => simp [latchOperands, hr2]
  | some r2 => simp [latchOperands, hr2, hb r2 hr2]

theorem exec_ex_eq_r95 {i : Instr} {q : Slot} {s t : State} (hph : s.phase = .ex) (hq : s.lat.id = some q)
    (hd : decodedFrom i q) (h : exec i s = .next t) :
    (∃ f, r95Execute s.rf s.lat.mem1 s.lat.mem2 s.lat.mem3 q = .error f ∧ t = { s with fault := some f }) ∨
    (∃ q', r95Execute s.rf s.lat.mem1 s.lat.mem2 s.lat.mem3 q = .ok q' ∧ t = leaveEx q' s) := by
  obtain ⟨-, hr1, hr2, -⟩ := id hd
  have hops := h
  simp only [exec_ex hph, executeWith, hq] at hops
  rcases resolveOperands_next hops with ⟨r1, a, hr, ha, hsecond⟩ | ⟨r1, hr, ha, rfl⟩
  · have hfirst : r95Fwd s.rf s.lat.mem1 s.lat.mem2 s.lat.mem3 (q.readReg1.getD 0) = .ok a := by
      rw [hr, r95Fwd_eq, Option.getD_some, ha, fetchedAs]
    obtain rfl : r1 = readReg1Of i := Option.some.inj (hr.symm.trans hr1)
    have executes (b : Word) (hb : ∀ r2, q.readReg2 = some r2 → fwd s r2 = .value b) :
        r95Execute s.rf s.lat.mem1 s.lat.mem2 s.lat.mem3 q = .ok (r95Alu (latchOperands q a b)) ∧
          t = leaveEx (r95Alu (latchOperands q a b)) s := by
      refine ⟨r95Execute_of_values hfirst fun r2 h2 => by rw [r95Fwd_eq, hb r2 h2, fetchedAs], ?_⟩
      simpa [h] using exec_ex_of_values hph hq hd ha (hr2 ▸ hb)
    rcases resolveSecond_next hsecond with ⟨hnone, -⟩ | ⟨r2, b, h2, hb, -⟩ | ⟨r2, h2, hb, rfl⟩
    · exact .inr ⟨_, executes 0 fun r2 h2 => absurd (hnone.symm.trans h2) (by simp)⟩
    · exact .inr ⟨_, executes b fun r2' h2' => Option.some.inj (h2.symm.trans h2') ▸ hb⟩
    · have h2' : q.readReg2 = some r2 := h2
      exact .inl ⟨_, by simp only [r95Execute, hfirst, h2', r95Fwd_eq, hb, fetchedAs], rfl⟩
  · exact .inl ⟨_, by simp only [r95Execute, hr, Option.getD_some, r95Fwd_eq, ha, fetchedAs], rfl⟩

theorem overSlot_some_ok {q q' : Slot} {f : Slot → Except FatalCondition Slot} (h : f q = .ok q') :
    overSlot (some q) f = .ok (some q') := by
  simp [overSlot, h]

theorem overSlot_some_error {q : Slot} {e : FatalCondition} {f : Slot → Except FatalCondition Slot}
    (h : f q = .error e) : overSlot (some q) f = .error e := by
  simp [overSlot, h]

theorem exPhase_eq_r95 {s t : State} (hdec : s.lat.id.all (inDecode s.img) = true) (hempty : s.lat.ex = none)
    (h : exPhase s = .next t) :
    (∃ f ph, overSlot s.lat.id (r95Execute s.rf s.lat.mem1 s.lat.mem2 s.lat.mem3) = .error f ∧
      t = { s with fault := some f, phase := ph }) ∨
    (∃ e ph, overSlot s.lat.id (r95Execute s.rf s.lat.mem1 s.lat.mem2 s.lat.mem3) = .ok e ∧
      t = { s with lat := { s.lat with ex := e, id := none }, phase := ph }) := by
  cases hq : s.lat.id with
  | none =>
    obtain rfl : s = t := by simpa [exPhase, hq] using h
    exact .inr ⟨s.lat.ex, s.phase, by rw [hempty]; rfl, by rw [← hq]⟩
  | some q =>
    have hq_dec : inDecode s.img q = true := by simpa [hq] using hdec
    obtain ⟨i, hd, hrun⟩ := runSlot_of_asDecoded (asDecoded_of_inDecode hq_dec) .ex s
    simp only [exPhase, hq, hrun] at h
    rcases exec_ex_eq_r95 (s := { s with phase := .ex }) rfl hq hd h with ⟨f, hr, rfl⟩ | ⟨q', hr, rfl⟩
    · exact .inl ⟨f, .ex, overSlot_some_error hr, rfl⟩
    · exact .inr ⟨some q', .ex, overSlot_some_ok hr, rfl⟩

theorem idPhase_eq_r95 {s t : State} (hempty : s.lat.id = none) (h : idPhase s = .next t) :
    (∃ f ph, overSlot s.lat.if2 (r95Decode s.lat.ex s.lat.mem1) = .error f ∧
      t = { s with fault := some f, phase := ph }) ∨
    (∃ d ph, overSlot s.lat.if2 (r95Decode s.lat.ex s.lat.mem1) = .ok d ∧
      t = { s with lat := { s.lat with id := d, if2 := none }, phase := ph }) := by
  rcases idPhase_next h with ⟨hq, rfl⟩ | ⟨q, i, hq, hi, rfl⟩ | ⟨q, e, hq, he, rfl⟩
  · exact .inr ⟨t.lat.id, t.phase, by rw [hempty, hq]; rfl, by rw [← hq]⟩
  · exact .inr ⟨_, .id, by rw [hq]; exact overSlot_some_ok (by simp only [r95Decode, hi]), rfl⟩
  · exact .inl ⟨_, s.phase, by rw [hq]; exact overSlot_some_error (by simp only [r95Decode, he]), rfl⟩

/-! ### IF1 and the end of the cycle -/

/-- The state in which a cycle that began in `s` ends when its phases left `t` (R95, R150): the latches of `s` after a
fatal condition, else those of `t`, counted and reported. -/
def closeCycle (s : State) (isStall : Bool) (t : State) : State :=
  if t.fault.isSome then { t with lat := s.lat, phase := s.phase }
  else { endOfCycle isStall s.lat.mem3 t with phase := s.phase }

theorem closeCycle_of_fault {s t : State} (isStall : Bool) (h : t.fault.isSome = true) :
    closeCycle s isStall t = { t with lat := s.lat, phase := s.phase } := by
  simp [closeCycle, h]

theorem closeCycle_of_noFault {s t : State} (isStall : Bool) (h : t.fault = none) :
    closeCycle s isStall t = { endOfCycle isStall s.lat.mem3 t with phase := s.phase } := by
  simp [closeCycle, h]

/-- `t` as the pseudocode holds it in the middle of a cycle that began in `s`: it writes the latches at the end. -/
def unlatched (s t : State) : State := { t with lat := s.lat, phase := s.phase }

/-- The fetch of the pseudocode at `s.fetchPtr`, after the redirect, and its end of the cycle: `lat` are the latches
the cycle leaves but for the fetched slot. -/
def r95FetchHere (s : State) (w : Option Slot) (lat : Latches) : State :=
  if s.fetchPtr.toInt < 0 then { s with fault := some (.fetchOutOfRange s.fetchPtr) }
  else if s.fetchPtr.toInt < imageLength s then
    let lat' := { lat with if1 := some (newSlot ((imageAt s s.fetchPtr).getD 0) s.fetchPtr s.seqNext) }
    r95End { s with fetchPtr := s.fetchPtr + 1, seqNext := s.seqNext + 1, eop := false } lat' (stageReport false lat' w)
  else
    let lat' := { lat with if1 := none }
    r95End { s with eop := true } lat' (stageReport false lat' w)

theorem r95Fetch_eq_here (s : State) (w m3 m2 m1 e d f2 : Option Slot) :
    r95Fetch s w m3 m2 m1 e d f2 =
      r95FetchHere
        { s with
          fetchPtr := if e.any takenBranch then (e.bind (·.branchTargetAddress)).getD 0 else s.fetchPtr }
        w ⟨none, if e.any takenBranch then none else f2, if e.any takenBranch then none else d, e, m1, m2, m3⟩ :=
  rfl

theorem fetch_eq_r95 {s b t : State} (hno : b.fault = none) (h : fetch b = .next t) :
    r95FetchHere (unlatched s b) s.lat.mem3 b.lat = closeCycle s false t := by
  rcases fetch_next h with ⟨hneg, rfl⟩ | ⟨hge, word, hword, ht⟩ | ⟨hge, hnone, ht⟩
  · simp [r95FetchHere, unlatched, closeCycle, hneg]
  · have hnot : t.fault = none := by rw [ht]; exact hno
    have hneg : ¬ (unlatched s b).fetchPtr.toInt < 0 := not_lt.mpr hge
    have hlt : (unlatched s b).fetchPtr.toInt < imageLength (unlatched s b) :=
      (toInt_lt_length_iff hge).mpr ⟨word, hword⟩
    have hat : imageAt (unlatched s b) (unlatched s b).fetchPtr = some word := (imageAt_of_nonneg hge).trans hword
    rw [closeCycle_of_noFault _ hnot, r95FetchHere, if_neg hneg, if_pos hlt, hat, ht]
    rfl
  · have hnot : t.fault = none := by rw [ht]; exact hno
    have hneg : ¬ (unlatched s b).fetchPtr.toInt < 0 := not_lt.mpr hge
    have hend : ¬ (unlatched s b).fetchPtr.toInt < imageLength (unlatched s b) := fun hlt => by
      obtain ⟨word, hword⟩ := (toInt_lt_length_iff hge).mp hlt
      exact absurd (hnone.symm.trans hword) (by simp)
    rw [closeCycle_of_noFault _ hnot, r95FetchHere, if_neg hneg, if_neg hend, ht]
    rfl

/-- The IF1 phase, branch evaluation and fetch, closes the cycle as the pseudocode does (R91 to R94). -/
theorem if1Phase_eq_r95 {s d b t : State} (hno : d.fault = none) (hb : branchPhase (passFetch d) = .next b)
    (hf : fetch b = .next t) :
    r95Fetch (unlatched s d) s.lat.mem3 d.lat.mem3 d.lat.mem2 d.lat.mem1 d.lat.ex d.lat.id d.lat.if1
      = closeCycle s false t := by
  obtain ⟨ph, hb'⟩ := branchPhase_eq hb
  have hnob : b.fault = none := by rw [hb']; exact hno
  rw [← fetch_eq_r95 hnob hf, r95Fetch_eq_here, hb']
  rfl

/-! ### The pseudocode along its branches -/

section
variable {s : State} {w m3 m2 m1 e d : Option Slot} {f : FatalCondition}

theorem r95Young_of_exError (hgo : stalled s = false) (he : overSlot s.lat.id (r95Execute s.rf m1 m2 m3) = .error f) :
    r95Young s w m3 m2 m1 = { s with fault := some f } := by
  rw [stalled] at hgo
  simp [r95Young, hgo, he]

theorem r95Young_of_idError (hgo : stalled s = false) (he : overSlot s.lat.id (r95Execute s.rf m1 m2 m3) = .ok e)
    (hd : overSlot s.lat.if2 (r95Decode e m1) = .error f) : r95Young s w m3 m2 m1 = { s with fault := some f } := by
  rw [stalled] at hgo
  simp [r95Young, hgo, he, hd]

theorem r95Young_of_ok (hgo : stalled s = false) (he : overSlot s.lat.id (r95Execute s.rf m1 m2 m3) = .ok e)
    (hd : overSlot s.lat.if2 (r95Decode e m1) = .ok d) :
    r95Young s w m3 m2 m1 = r95Fetch s w m3 m2 m1 e d s.lat.if1 := by
  rw [stalled] at hgo
  simp [r95Young, hgo, he, hd]

theorem r95Step_of_mem1Error (hrun : terminal s = false) (h : r95Memory s.mem s.lat.ex = .error f) :
    r95Step s = { s with rf := r95WriteBack s.rf s.lat.mem3, fault := some f } := by
  unfold r95Memory at h
  split at h
  · simp at h
  · next q hq =>
    split at h
    · next ha =>
      obtain rfl := Except.error.inj h
      simp [r95Step, hrun, hq, ha]
    · simp at h

theorem r95Step_of_mem1Ok {mem' : Memory} (hrun : terminal s = false)
    (h : r95Memory s.mem s.lat.ex = .ok (m1, mem')) :
    r95Step s =
      r95Young { s with rf := r95WriteBack s.rf s.lat.mem3, mem := mem' } s.lat.mem3 s.lat.mem2 s.lat.mem1 m1 := by
  unfold r95Memory at h
  split at h
  · next hq =>
    obtain ⟨rfl, rfl⟩ := Prod.mk.inj (Except.ok.inj h)
    simp [r95Step, hrun, hq]
  · next q hq =>
    split at h
    · simp at h
    · next ha =>
      obtain ⟨rfl, rfl⟩ := Prod.mk.inj (Except.ok.inj h)
      simp [r95Step, hrun, hq, ha]

end

/-! ### The cycle -/

/-- `u` is what the back phases of a cycle that began in `s` leave when they raise nothing. -/
structure BackDone (s u : State) : Prop where
  if1 : u.lat.if1 = s.lat.if1
  if2 : u.lat.if2 = s.lat.if2
  id : u.lat.id = s.lat.id
  ex : u.lat.ex = none
  noFault : u.fault = none

theorem BackDone.stalled_unlatched {s u : State} (h : BackDone s u) : stalled (unlatched s u) = stalled u := by
  simp [stalled, unlatched, h.id]

theorem r95Young_eq_of_stall {s u : State} (h : BackDone s u) (hstall : stalled u = true) :
    r95Young (unlatched s u) s.lat.mem3 u.lat.mem3 u.lat.mem2 u.lat.mem1 = closeCycle s true (holdStalled u) := by
  have hpending : s.lat.id.any (·.stallPending) = true := by rw [← h.id]; exact hstall
  have hnone : entry .EX none = [] := rfl
  simp [r95Young, unlatched, hpending, closeCycle_of_noFault, h.noFault, endOfCycle, r95End, holdStalled, stageReport,
    h.if1, h.if2, h.id, hnone]

theorem r95Young_eq_of_exFault {s u t : State} (h : BackDone s u) (hdec : u.lat.id.all (inDecode u.img) = true)
    (hgo : stalled u = false) (hex : exPhase u = .next t) (hf : t.fault.isSome = true) :
    r95Young (unlatched s u) s.lat.mem3 u.lat.mem3 u.lat.mem2 u.lat.mem1 = closeCycle s false t := by
  rcases exPhase_eq_r95 hdec h.ex hex with ⟨f, _, he, rfl⟩ | ⟨e, _, -, rfl⟩
  · rw [h.id] at he
    rw [r95Young_of_exError (h.stalled_unlatched.trans hgo) he, closeCycle_of_fault _ hf]
    rfl
  · simp [h.noFault] at hf

theorem r95Young_eq_of_front {s u v t : State} (h : BackDone s u) (hdec : u.lat.id.all (inDecode u.img) = true)
    (hgo : stalled u = false) (hex : exPhase u = .next v) (hnov : v.fault = none) (hfront : frontPhases v = .next t) :
    r95Young (unlatched s u) s.lat.mem3 u.lat.mem3 u.lat.mem2 u.lat.mem1 = closeCycle s false t := by
  have hgo' : stalled (unlatched s u) = false := h.stalled_unlatched.trans hgo
  rcases exPhase_eq_r95 hdec h.ex hex with ⟨_, _, -, rfl⟩ | ⟨e, _, he, rfl⟩
  · simp at hnov
  · rw [h.id] at he
    rcases frontPhases_next hfront with ⟨hid, hf⟩ | ⟨d, b, hid, hnod, hbr, -, hfe⟩
    · rcases idPhase_eq_r95 rfl hid with ⟨f, _, hd, rfl⟩ | ⟨_, _, -, rfl⟩
      · dsimp only at hd
        rw [h.if2] at hd
        rw [r95Young_of_idError hgo' he hd, closeCycle_of_fault _ hf]
        rfl
      · simp [h.noFault] at hf
    · rcases idPhase_eq_r95 rfl hid with ⟨_, _, -, rfl⟩ | ⟨d', _, hd, rfl⟩
      · simp at hnod
      · dsimp only at hd
        rw [h.if2] at hd
        rw [r95Young_of_ok hgo' he hd, ← if1Phase_eq_r95 hnod hbr hfe]
        simp only [h.if1]
        rfl

theorem settle_of_fault {s t : State} (isStall : Bool) (hrest : s.phase = .atRest) (hf : t.fault.isSome = true) :
    settle s (.next t) = .next (closeCycle s isStall t) := by
  simp [settle, closeCycle, hf, hrest]

theorem settle_endOfCycle {s t : State} (isStall : Bool) (hrest : s.phase = .atRest) (hno : t.fault = none) :
    settle s (.next (endOfCycle isStall s.lat.mem3 t)) = .next (closeCycle s isStall t) := by
  simp [settle, closeCycle, hno, hrest]

/-- The back phases do the WB and MEM1 phases of the pseudocode, and what is left of the cycle is the rest of it. -/
theorem backPhases_eq_r95Step {s u : State} (hrun : terminal s = false) (hno : s.fault = none)
    (h : backPhases s = .next u) :
    (u.fault.isSome = true ∧ ∀ isStall, r95Step s = closeCycle s isStall u) ∨
    (BackDone s u ∧
      r95Step s = r95Young (unlatched s u) s.lat.mem3 u.lat.mem3 u.lat.mem2 u.lat.mem1) := by
  rcases backPhases_eq_r95 hno h with ⟨f, lat, _, hr, rfl⟩ | ⟨m1, mem', _, hr, rfl⟩
  · exact .inl ⟨rfl, fun _ => r95Step_of_mem1Error hrun hr⟩
  · exact .inr ⟨⟨rfl, rfl, rfl, rfl, hno⟩, r95Step_of_mem1Ok hrun hr⟩

/-- A running cycle ends as the pseudocode does. -/
theorem settle_cyclePhases_eq_r95 {s t : State} (h : Inv s) (hrun : terminal s = false)
    (hc : cyclePhases s = .next t) : settle s (.next t) = .next (r95Step s) := by
  have hno : s.fault = none := by simp_all [terminal]
  rcases cyclePhases_next hc with ⟨hb, hf⟩ | ⟨u, hb, hnou, hrest⟩
  · rcases backPhases_eq_r95Step hrun hno hb with ⟨-, hr⟩ | ⟨hdone, -⟩
    · rw [hr false, settle_of_fault false h.atRest hf]
    · simp [hdone.noFault] at hf
  · rcases backPhases_eq_r95Step hrun hno hb with ⟨hf, -⟩ | ⟨hdone, hr⟩
    · simp [hnou] at hf
    · have hdec : u.lat.id.all (inDecode u.img) = true :=
        ((midCycle_of_inv h hrun).of_backPhases hb).latches.decodedId
      rw [hr]
      rcases hrest with ⟨hstall, rfl⟩ | ⟨hgo, ⟨hex, hf⟩ | ⟨v, hex, hnov, ⟨hfr, hf⟩ | ⟨x, hfr, hnox, rfl⟩⟩⟩
      · rw [r95Young_eq_of_stall hdone hstall, settle_endOfCycle true h.atRest ((holdStalled_fault u).trans hnou)]
      · rw [r95Young_eq_of_exFault hdone hdec hgo hex hf, settle_of_fault false h.atRest hf]
      · rw [r95Young_eq_of_front hdone hdec hgo hex hnov hfr, settle_of_fault false h.atRest hf]
      · rw [r95Young_eq_of_front hdone hdec hgo hex hnov hfr, settle_endOfCycle false h.atRest hnox]

end Sys2Proof.Proofs

open Sys2Proof Sys2Proof.Machine Sys2Proof.Laws Sys2Proof.Proofs

/-- Settles O15: every phase answers, and each way a cycle ends is the pseudocode's. -/
theorem cycleIsThePseudocode : Obligations.CycleIsThePseudocode := by
  unfold Obligations.CycleIsThePseudocode
  intro s h
  cases hterm : terminal s with
  | true => rw [step_of_terminal hterm, r95Step, if_pos hterm]
  | false =>
    obtain ⟨t, ht⟩ := cyclePhases_answers (midCycle_of_inv h hterm)
    rw [step_of_running hterm, ht]
    exact settle_cyclePhases_eq_r95 h hterm ht

end

section
/-! The Hazard and Forwarding Unit (41_hazard_forwarding R101, R102, R105 to R108): what one comparator of the stall
check finds, what one input of the forwarding mux delivers, and that the stall check of a slot's decode is enough for
its execute. -/

namespace Sys2Proof.Proofs

open Sys2Proof Sys2Proof.Machine Sys2Proof.Laws

/-! ### The stall check -/

theorem reads_iff {q : Slot} {r : RegIdx} : reads q r = true ↔ q.readReg1 = some r ∨ q.readReg2 = some r := by
  simp [reads]

theorem loadFeeds_iff {p : Option Slot} {q : Slot} :
    loadFeeds p q = true ↔
      ∃ l r, p = some l ∧ l.opcode = some .load ∧ l.writeReg = some r ∧
        (q.readReg1 = some r ∨ q.readReg2 = some r) := by
  unfold loadFeeds
  split
  · simp
  · next l =>
    split
    · next r hop hr => simp [hop, hr, reads_iff]
    · next hno =>
      refine iff_of_false (by simp) ?_
      rintro ⟨l', r, hl, hop, hr, -⟩
      obtain rfl := Option.some.inj hl
      exact hno r hop hr

theorem hazard_iff {q : Slot} {e m1 : Option Slot} :
    hazard q e m1 = true ↔ loadFeeds e q = true ∨ loadFeeds m1 q = true := by
  simp [hazard]

/-- The ID phase leaves its slot decoded in ID, with the finding of the stall check (R89, R102). -/
theorem exec_id_of_slot {i : Instr} {q : Slot} {s : State} (hph : s.phase = .id) (hq : s.lat.if2 = some q) :
    exec i s = .next { s with lat := { s.lat with
      id := some { decodeSlot i q with stallPending := hazard (decodeSlot i q) s.lat.ex s.lat.mem1 }
      if2 := none } } := by
  simp [exec_id hph, decodeInto, hq]

/-! ### The forwarding mux -/

/-- What R106 calls ready: an arithmetic result in every stage of the scan, a loaded datum past MEM1 (R107). -/
theorem ready_iff {op : Opcode} {st : ScanStage} :
    ready op st = true ↔ op = .add ∨ op = .sub ∨ (op = .load ∧ st ≠ .mem1) := by
  cases op <;> simp [ready]

theorem qualifies_iff {q : Slot} {st : ScanStage} {r : RegIdx} :
    qualifies q st r = true ↔
      q.registerWriteEnabled = true ∧ q.writeReg = some r ∧
        (q.opcode = some .add ∨ q.opcode = some .sub ∨ (q.opcode = some .load ∧ st ≠ .mem1)) := by
  cases hop : q.opcode <;> simp [qualifies, hop, ready_iff, and_assoc]

section
variable {p : Option Slot} {st : ScanStage} {r : RegIdx} {v : Word} {next : Fetched}

theorem scanStage_of_qualifies {q : Slot} (hq : qualifies q st r = true) (hv : producedValue q = some v) :
    scanStage (some q) st r next = .value v := by
  simp [scanStage, hq, hv]

/-- An ADD or SUB that writes `r` delivers its result from every stage of the scan. -/
theorem scanStage_of_arith
    (h : ∃ q, p = some q ∧ q.registerWriteEnabled = true ∧ q.writeReg = some r ∧
      (q.opcode = some .add ∨ q.opcode = some .sub) ∧ q.aluResult = some v) :
    scanStage p st r next = .value v := by
  obtain ⟨q, rfl, hen, hr, hop, hv⟩ := h
  refine scanStage_of_qualifies (qualifies_iff.mpr ⟨hen, hr, ?_⟩) ?_
  · exact hop.imp_right .inl
  · rcases hop with hop | hop <;> simp [producedValue, hop, hv]

/-- A LOAD past MEM1 that writes `r` delivers its datum. -/
theorem scanStage_of_loaded (hst : st ≠ .mem1)
    (h : ∃ q, p = some q ∧ q.registerWriteEnabled = true ∧ q.writeReg = some r ∧
      q.opcode = some .load ∧ q.memoryDatum = some v) :
    scanStage p st r next = .value v := by
  obtain ⟨q, rfl, hen, hr, hop, hv⟩ := h
  exact scanStage_of_qualifies (qualifies_iff.mpr ⟨hen, hr, .inr (.inr ⟨hop, hst⟩)⟩) (by simp [producedValue, hop, hv])

/-- A stage is passed over when its slot does not both write `r` and have an opcode that counts there: ADD and SUB do
everywhere, LOAD need not in MEM1 (R106, R107). -/
theorem scanStage_of_silent {loadsToo : Bool} (hst : loadsToo = true ∨ st = .mem1)
    (h : ∀ q, p = some q → q.registerWriteEnabled = true → q.writeReg = some r →
      q.opcode ≠ some .add ∧ q.opcode ≠ some .sub ∧ (loadsToo = true → q.opcode ≠ some .load)) :
    scanStage p st r next = next := by
  cases p with
  | none => rfl
  | some q =>
    have hno : ¬ qualifies q st r = true := by
      intro hqual
      obtain ⟨hen, hr, hop⟩ := qualifies_iff.mp hqual
      obtain ⟨hadd, hsub, hload⟩ := h q rfl hen hr
      rcases hop with hop | hop | ⟨hop, hpast⟩
      · exact hadd hop
      · exact hsub hop
      · exact hload (hst.resolve_right hpast) hop
    simp only [scanStage, if_neg hno]

end

/-! ### The stall policy -/

/-- The slot the back phases leave in MEM1 is the one that was in EX, but for its datum. They leave none there when
they raise. -/
theorem backPhases_mem1 {s u : State} {p : Slot} (hno : s.fault = none) (h : backPhases s = .next u)
    (hp : u.lat.mem1 = some p) : ∃ q, s.lat.ex = some q ∧ p = { q with memoryDatum := p.memoryDatum } := by
  rcases andThen_next h with ⟨v, hwb, hf, rfl⟩ | ⟨v, hwb, -, hm⟩
  · obtain ⟨hv, -⟩ := wbPhase_next hwb
    rw [hv] at hf
    simp [hno] at hf
  · obtain ⟨hv, -⟩ := wbPhase_next hwb
    have hex : (passMemory v).lat.ex = s.lat.ex := by rw [hv]; rfl
    rcases mem1Phase_next hm with ⟨-, rfl⟩ | ⟨_, _, -, -, -, -, rfl⟩ | ⟨q, q', hq, hu, hread, -⟩
    · simp at hp
    · simp at hp
    · rw [hu] at hp
      obtain rfl : q' = p := Option.some.inj hp
      refine ⟨q, hex.symm.trans hq, ?_⟩
      rcases hread with ⟨-, rfl⟩ | ⟨_, _, -, -, -, rfl⟩ <;> rfl

/-- A LOAD that the back phases leave in MEM1 was found by the stall check as a LOAD in EX. -/
theorem loadFeeds_ex_of_mem1 {s u : State} {q : Slot} (hno : s.fault = none) (h : backPhases s = .next u)
    (hfeeds : loadFeeds u.lat.mem1 q = true) : loadFeeds s.lat.ex q = true := by
  obtain ⟨p, r, hp, hop, hr, hreads⟩ := loadFeeds_iff.mp hfeeds
  obtain ⟨l, hl, hpl⟩ := backPhases_mem1 hno h hp
  rw [hpl] at hop hr
  exact loadFeeds_iff.mpr ⟨l, r, hl, hop, hr, hreads⟩

/-- The stall policy is sufficient (R105). -/
theorem loadFeeds_mem1_eq_false {s u : State} {q : Slot} (hinv : Inv s) (hno : s.fault = none)
    (h : backPhases s = .next u) (hq : u.lat.id = some q) (hgo : q.stallPending = false) :
    loadFeeds u.lat.mem1 q = false := by
  obtain ⟨-, -, hid, -⟩ := backPhases_front h
  have hex : loadFeeds s.lat.ex q = false := by simpa [← hid, hq, hgo] using hinv.stallSound
  exact Bool.eq_false_iff.mpr fun hfeeds =>
    absurd (hex.symm.trans (loadFeeds_ex_of_mem1 hno h hfeeds)) (by simp)

/-- R39(f) for the slot of a latch. -/
theorem memoryDatum_of_accessed {img : List InstrWord} {l : Option Slot} {p : Slot}
    (h : l.all (asAccessed img) = true) (hp : l = some p) (hload : p.opcode = some .load) :
    p.memoryDatum.isSome = true := by
  obtain rfl := hp
  obtain ⟨-, hdatum⟩ := asAccessed_iff.mp h
  exact hdatum hload

end Sys2Proof.Proofs

open Sys2Proof Sys2Proof.Machine Sys2Proof.Laws Sys2Proof.Proofs

/-- Settles O43: each comparator of the stall check is a LOAD that writes a read register, and the ID phase latches
the finding. -/
theorem hazardCheckFindsLoadsInExAndMem1 : Obligations.HazardCheckFindsLoadsInExAndMem1 := by
  unfold Obligations.HazardCheckFindsLoadsInExAndMem1
  intro q e m1
  refine ⟨?_, ?_⟩
  · rw [hazard_iff, loadFeeds_iff, loadFeeds_iff]
    simp only [← exists_or, ← or_and_right]
  · rintro i s hph hq rfl rfl
    exact ⟨_, exec_id_of_slot hph hq, rfl⟩

/-- Settles O44: a silent stage leaves the mux to the next input. -/
theorem nearestProducerWins : Obligations.NearestProducerWins := by
  unfold Obligations.NearestProducerWins
  intro s r v arith loaded silent
  refine ⟨fun h => scanStage_of_arith h, fun h1 h2 => ?_, fun h1 h2 h3 => ?_, fun h1 h2 h3 => ?_⟩
  · rw [fwd, scanStage_of_silent (.inr rfl) h1]
    exact h2.elim scanStage_of_arith (scanStage_of_loaded (by simp))
  · rw [fwd, scanStage_of_silent (.inr rfl) h1, scanStage_of_silent (.inl rfl) h2]
    exact h3.elim scanStage_of_arith (scanStage_of_loaded (by simp))
  · rw [fwd, scanStage_of_silent (.inr rfl) h1, scanStage_of_silent (.inl rfl) h2, scanStage_of_silent (.inl rfl) h3]
    rfl

/-- Settles O45: the LOAD in MEM1 was in EX when the cycle began, where the invariants say that it feeds no slot about
to execute. -/
theorem stallPolicySuffices : Obligations.StallPolicySuffices := by
  unfold Obligations.StallPolicySuffices
  intro s s1 q hinv hrun h hq hgo
  have hno : s.fault = none := by simp_all [terminal]
  have hfree : loadFeeds s1.lat.mem1 q = false := loadFeeds_mem1_eq_false hinv hno h hq hgo
  have hlat : LatchesInv s1.img s1.seqNext s1.lat := ((midCycle_of_inv hinv hrun).of_backPhases h).latches
  refine ⟨fun p r hp hop hr => not_or.mp fun hreads => ?_, fun p hp hop => ?_⟩
  · exact absurd (hfree.symm.trans (loadFeeds_iff.mpr ⟨p, r, hp, hop, hr, hreads⟩)) (by simp)
  · rcases hp with hp | hp
    · exact memoryDatum_of_accessed hlat.accessed2 hp hop
    · exact memoryDatum_of_accessed hlat.accessed3 hp hop

end

section
/-! The decoder in its phase (42_control_decoder R116 to R121): the destination selector picks the register a slot
writes, and an illegal word ends the cycle in ID, before the branch evaluation could squash its slot. -/

namespace Sys2Proof.Proofs

open Sys2Proof Sys2Proof.Machine Sys2Proof.Laws

/-! ### The destination selector -/

theorem writeRegOf_of_select {i : Instr} {d : DestSelect} (h : (signalsOf i).destRegisterIsSecondSource = d) :
    writeRegOf i = selectDest d i.toRecord := by
  rw [writeRegOf, h]

theorem registerWriteEnabled_signalsOf (i : Instr) : (signalsOf i).registerWriteEnabled = (writeRegOf i).isSome :=
  registerWriteEnabled_of_decoded (decodedFrom_decodeSlot i (newSlot (encode i) 0 0) false)

/-! ### A word that does not decode -/

/-- No later phase of the cycle runs after a fatal condition (R150). -/
theorem andThen_raise (f : FatalCondition) (s : State) (k : State → Result State) :
    andThen (raise f s) k = raise f s :=
  andThen_of_fault rfl

theorem idPhase_of_illegal {s : State} {q : Slot} {e : DecodeError} (hq : s.lat.if2 = some q)
    (he : decode q.instr = .error e) : idPhase s = raise (.illegalInstruction q.pc q.instr) s := by
  simp only [idPhase, hq, he]

/-- Neither the branch evaluation, which could squash the slot, nor the fetch runs (R158). -/
theorem frontPhases_of_illegal {s : State} {q : Slot} {e : DecodeError} (hq : s.lat.if2 = some q)
    (he : decode q.instr = .error e) : frontPhases s = raise (.illegalInstruction q.pc q.instr) s := by
  rw [frontPhases, idPhase_of_illegal hq he, andThen_raise]

/-- The phases WB to EX that raise nothing leave the slot in IF2 where it is. -/
theorem if2_of_backPhases_exPhase {s u v : State} (hb : backPhases s = .next u) (hnou : u.fault = none)
    (hex : exPhase u = .next v) (hnov : v.fault = none) : v.lat.if2 = s.lat.if2 := by
  obtain ⟨m1, -, hu⟩ := backPhases_latches hb hnou
  obtain ⟨e, -, hv⟩ := exPhase_latches (by rw [hu]) hex hnov
  rw [hv, hu]

/-- A cycle whose phases WB to EX raise nothing and which does not stall goes on to its front phases. -/
theorem cyclePhases_of_exPhase {s u v : State} (hb : backPhases s = .next u) (hnou : u.fault = none)
    (hgo : stalled s = false) (hex : exPhase u = .next v) (hnov : v.fault = none) :
    cyclePhases s = andThen (frontPhases v) fun w => .next (endOfCycle false s.lat.mem3 w) := by
  have hgo' : stalled u = false := (stalled_of_backPhases hb).trans hgo
  simp [cyclePhases, hb, andThen_of_noFault hnou, hgo', hex, andThen_of_noFault hnov]

end Sys2Proof.Proofs

open Sys2Proof Sys2Proof.Machine Sys2Proof.Laws Sys2Proof.Proofs

/-- Settles O51: the illegal word is still in IF2 when the front phases begin, and their first phase raises. -/
theorem illegalWordRaisesWhenDecoded : Obligations.IllegalWordRaisesWhenDecoded := by
  unfold Obligations.IllegalWordRaisesWhenDecoded
  intro s s1 s2 q e hinv hrun hb hno1 hgo hex hno2 hq he
  have hq2 : s2.lat.if2 = some q := (if2_of_backPhases_exPhase hb hno1 hex hno2).trans hq
  rw [step_of_running hrun, cyclePhases_of_exPhase hb hno1 hgo hex hno2, frontPhases_of_illegal hq2 he,
    andThen_raise]
  exact ⟨_, settle_of_fault false hinv.atRest rfl, rfl⟩

/-- Settles O34: the ID phase as one equation, and then the row of the tables for each form. -/
theorem decodePhaseFillsTheSlot : Obligations.DecodePhaseFillsTheSlot := by
  unfold Obligations.DecodePhaseFillsTheSlot
  intro i s q hph hq
  refine ⟨_, exec_id_of_slot hph hq, rfl, rfl, rfl, rfl, rfl, rfl, rfl, rfl, rfl, rfl, rfl, ?_⟩
  cases i with
  | addReg | addLit | subReg | subLit | load | store | branchNotZero => exact ⟨rfl, rfl, rfl, rfl, rfl, rfl⟩

/-- Settles O35: what each selector value picks, and then its value for each form. -/
theorem destinationSelectorPicksWriteReg : Obligations.DestinationSelectorPicksWriteReg := by
  unfold Obligations.DestinationSelectorPicksWriteReg
  intro i
  refine ⟨writeRegOf_of_select, writeRegOf_of_select, writeRegOf_of_select, registerWriteEnabled_signalsOf i, ?_⟩
  cases i with
  | addReg | addLit | subReg | subLit | load | store | branchNotZero => exact ⟨rfl, rfl⟩

end

section
/-! The branch resolution of a cycle (43_branch_resolution R132 to R134, 40_pipeline_engine R92, R94): the fetch reads
at the target of a taken branch in EX, and elsewhere at `fetchPtr`. -/

namespace Sys2Proof.Proofs

open Sys2Proof Sys2Proof.Machine Sys2Proof.Laws

/-- Where the fetch of a cycle reads, with `e` the slot in EX and `ptr` the `fetchPtr` the cycle began with (R132). -/
def fetchTarget (e : Option Slot) (ptr : Word) : Word :=
  if e.any takenBranch then (e.bind (·.branchTargetAddress)).getD 0 else ptr

theorem fetchPtr_of_branchPhase {s t : State} (h : branchPhase s = .next t) :
    t.fetchPtr = fetchTarget s.lat.ex s.fetchPtr := by
  obtain ⟨_, rfl⟩ := branchPhase_eq h
  rfl

/-- The branch target of a decoded slot is relative to the slot's own `pc` (R118). -/
theorem branchTargetAddress_of_decoded {i : Instr} {q : Slot} (hd : decodedFrom i q) :
    q.branchTargetAddress = q.immediate.map (q.pc + ·) := by
  obtain ⟨-, -, -, -, him, htarget, -⟩ := hd
  rw [htarget, him, branchTargetOf]

theorem fetchTarget_of_executed {img : List InstrWord} {e : Option Slot} (ptr : Word)
    (h : e.all (asExecuted img) = true) :
    fetchTarget e ptr =
      if e.any takenBranch then (e.bind fun q => q.immediate.map (q.pc + ·)).getD 0 else ptr := by
  cases e with
  | none => rfl
  | some q =>
    obtain ⟨i, -, hd, -⟩ := asExecuted_iff.mp h
    simp only [fetchTarget, Option.bind_some, branchTargetAddress_of_decoded hd]

/-- A fetch that raises nothing creates the slot of the word at `fetchPtr` or finds the end of the program there. -/
theorem fetch_completes {s t : State} (h : fetch s = .next t) (hno : t.fault = none) :
    (∃ w, imageAt s s.fetchPtr = some w ∧ t = { s with
      lat := { s.lat with if1 := some (newSlot w s.fetchPtr s.seqNext) }
      seqNext := s.seqNext + 1
      fetchPtr := s.fetchPtr + 1
      eop := false }) ∨
    (imageAt s s.fetchPtr = none ∧ t = { s with lat := { s.lat with if1 := none }, eop := true }) := by
  rcases fetch_next h with ⟨-, rfl⟩ | ⟨hge, w, hw, rfl⟩ | ⟨hge, hnone, rfl⟩
  · simp at hno
  · exact .inl ⟨w, (imageAt_of_nonneg hge).trans hw, rfl⟩
  · exact .inr ⟨(imageAt_of_nonneg hge).trans hnone, rfl⟩

/-- The front phases fetch at `fetchTarget`. -/
theorem frontPhases_fetch {s t : State} {p : Word} (hp : fetchTarget s.lat.ex s.fetchPtr = p)
    (h : frontPhases s = .next t) (hno : t.fault = none) :
    (∃ w, imageAt s p = some w ∧ t.lat.if1 = some (newSlot w p s.seqNext) ∧ t.fetchPtr = p + 1 ∧
      t.seqNext = s.seqNext + 1 ∧ t.eop = false) ∨
    (imageAt s p = none ∧ t.lat.if1 = none ∧ t.fetchPtr = p ∧ t.seqNext = s.seqNext ∧ t.eop = true) := by
  rcases frontPhases_next h with ⟨-, hf⟩ | ⟨d, b, hid, hnod, hbr, -, hfe⟩
  · simp [hno] at hf
  · have hd := idPhase_frame hid
    have hex : d.lat.ex = s.lat.ex := by
      rcases idPhase_next hid with ⟨-, rfl⟩ | ⟨_, _, -, -, rfl⟩ | ⟨_, _, -, -, rfl⟩ <;> rfl
    have hb := branchPhase_frame hbr
    have hptr : b.fetchPtr = p := by
      rw [fetchPtr_of_branchPhase hbr, ← hp, ← hex, hd]
      rfl
    have himg : imageAt b p = imageAt s p := by rw [hb, hd]; rfl
    have hseq : b.seqNext = s.seqNext := by rw [hb, hd]; rfl
    rcases fetch_completes hfe hno with ⟨w, hw, rfl⟩ | ⟨hnone, rfl⟩
    · exact .inl ⟨w, by rw [← himg, ← hptr, hw], by simp [hptr, hseq]⟩
    · exact .inr ⟨by rw [← himg, ← hptr, hnone], by simp [hptr, hseq]⟩

end Sys2Proof.Proofs

open Sys2Proof Sys2Proof.Machine Sys2Proof.Laws Sys2Proof.Proofs

/-- Settles O48: the phases before the fetch keep `fetchPtr` and the image, and the slot the cycle executed has the
target it was decoded with. -/
theorem takenBranchFetchesItsTarget : Obligations.TakenBranchFetchesItsTarget := by
  unfold Obligations.TakenBranchFetchesItsTarget
  intro s t hinv hrun hgo h hno
  have hexe := (step_keeps_inv hinv h).executedEx
  obtain ⟨u, hb, hnou, ⟨hstall, -⟩ | ⟨-, v, w, hex, hnov, hfr, hnow, rfl⟩⟩ := step_completes hrun h hno
  · exact absurd (hgo.symm.trans hstall) (by simp)
  · obtain ⟨_, -, hu⟩ := backPhases_latches hb hnou
    obtain ⟨e, -, hv⟩ := exPhase_latches (by rw [hu]) hex hnov
    obtain ⟨_, _, -, hw⟩ := frontPhases_latches (by rw [hv]) hfr hnow
    obtain ⟨-, -, -, himgu, hptru, hsequ, -⟩ := backPhases_front hb
    have hv' := exPhase_frame hex
    have himg (p : Word) : imageAt v p = imageAt s p := by rw [hv']; simp only [imageAt, himgu]
    have hptr : v.fetchPtr = s.fetchPtr := by rw [hv']; exact hptru
    have hseq : v.seqNext = s.seqNext := by rw [hv']; exact hsequ
    have hexw : v.lat.ex = w.lat.ex := by rw [hw]
    refine ⟨_, fetchTarget_of_executed s.fetchPtr hexe, ?_, fun htaken => ?_⟩
    · rw [← himg]
      rcases frontPhases_fetch (by rw [hexw, hptr]) hfr hnow with ⟨word, hat, hrest⟩ | ⟨hat, hrest⟩
      · simpa [hat, hseq] using hrest
      · simpa [hat, hseq] using hrest
    · have htaken' : v.lat.ex.any takenBranch = true := hexw ▸ htaken
      simp [hw, htaken']

end

section
/-! Instructions taken as a whole (44_arithmetic R139 to R143, 60_exceptions R154): what `exec` is between cycles, and
what ADD and SUB leave. -/

namespace Sys2Proof.Proofs

open Sys2Proof Sys2Proof.Machine Sys2Proof.Laws

/-- The architectural effect of an instruction (R140 to R147). -/
def wholeOf : Instr → State → Result State
  | .addReg rd rs rt => arithRegister (· + ·) rd rs rt
  | .addLit rd rs imm => arithLiteral (· + ·) rd rs imm
  | .subReg rd rs rt => arithRegister (· - ·) rd rs rt
  | .subLit rd rs imm => arithLiteral (· - ·) rd rs imm
  | .load rt rs imm => loadWhole rt rs imm
  | .store rt rs imm => storeWhole rt rs imm
  | .branchNotZero rs imm => branchWhole rs imm

theorem exec_atRest {i : Instr} {s : State} (h : s.phase = .atRest) : exec i s = wholeOf i s := by
  cases i <;> simp only [exec, execAddReg, execAddLit, execSubReg, execSubLit, execLoad, execStore,
    execBranchNotZero, inPhase, h, wholeOf]

/-! ### The register an instruction writes -/

theorem readReg_nextPc_writeReg (s : State) (rd : RegIdx) (v : Word) :
    readReg (nextPc (writeReg s rd v)) rd = some v :=
  readReg_writeReg_self s rd v

theorem writesOnlyRegister_nextPc_writeReg (s : State) (rd : RegIdx) (v : Word) :
    writesOnlyRegister s (nextPc (writeReg s rd v)) rd :=
  ⟨fun _ hne => readReg_writeReg_of_ne s v hne, fun _ => rfl, rfl⟩

section
variable {s : State} {rs rt : RegIdx} {a b : Word}

theorem withReg_of_present (k : Word → Result State) (ha : readReg s rs = some a) : withReg rs s k = k a := by
  simp [withReg, ha]

theorem arithRegister_of_present (op : Word → Word → Word) (rd : RegIdx) (ha : readReg s rs = some a)
    (hb : readReg s rt = some b) : arithRegister op rd rs rt s = .next (nextPc (writeReg s rd (op a b))) := by
  rw [arithRegister, withReg_of_present _ ha, withReg_of_present _ hb]

theorem arithLiteral_of_present (op : Word → Word → Word) (rd : RegIdx) (imm : Imm) (ha : readReg s rs = some a) :
    arithLiteral op rd rs imm s = .next (nextPc (writeReg s rd (op a (sext32 imm)))) := by
  rw [arithLiteral, withReg_of_present _ ha]

end

/-! ### Arithmetic modulo `2^32` -/

theorem toNat_sub_eq_emod (a b : BitVec 32) : ((a - b).toNat : Int) = ((a.toNat : Int) - b.toNat) % 2 ^ 32 := by
  rw [BitVec.toNat_sub]
  omega

/-- As an operand the sign-extended immediate stands for its signed value (R60). -/
theorem toNat_sext32 (imm : Imm) : ((sext32 imm).toNat : Int) = imm.toInt % 2 ^ 32 := by
  have hcond := BitVec.toInt_eq_toNat_cond imm
  rw [sext32, BitVec.signExtend_eq]
  split at hcond <;> omega

theorem toNat_add_sext32 (a : Word) (imm : Imm) :
    ((a + sext32 imm).toNat : Int) = ((a.toNat : Int) + imm.toInt) % 2 ^ 32 := by
  have hadd : (a + sext32 imm).toNat = (a.toNat + (sext32 imm).toNat) % 2 ^ 32 := BitVec.toNat_add _ _
  rw [hadd, Int.natCast_mod, Nat.cast_add, toNat_sext32]
  exact Int.add_emod_emod _ _ _

theorem toNat_sub_sext32 (a : Word) (imm : Imm) :
    ((a - sext32 imm).toNat : Int) = ((a.toNat : Int) - imm.toInt) % 2 ^ 32 := by
  rw [toNat_sub_eq_emod, toNat_sext32, Int.sub_emod_emod]

end Sys2Proof.Proofs

open Sys2Proof Sys2Proof.Machine Sys2Proof.Laws Sys2Proof.Proofs

/-- Settles O28: with its sources present each form writes the sum to `rd` and moves the pc on. -/
theorem addWholeEffect : Obligations.AddWholeEffect := by
  unfold Obligations.AddWholeEffect
  intro s rd rs rt imm a b hrest ha
  refine ⟨fun hb => ?_, ?_⟩
  · exact ⟨_, a + b, (exec_atRest hrest).trans (arithRegister_of_present (· + ·) rd ha hb),
      readReg_nextPc_writeReg s rd _, BitVec.toNat_add a b, writesOnlyRegister_nextPc_writeReg s rd _⟩
  · exact ⟨_, a + sext32 imm, (exec_atRest hrest).trans (arithLiteral_of_present (· + ·) rd imm ha),
      readReg_nextPc_writeReg s rd _, toNat_add_sext32 a imm, writesOnlyRegister_nextPc_writeReg s rd _⟩

/-- Settles O29: with its sources present each form writes the difference to `rd` and moves the pc on. -/
theorem subWholeEffect : Obligations.SubWholeEffect := by
  unfold Obligations.SubWholeEffect
  intro s rd rs rt imm a b hrest ha
  refine ⟨fun hb => ?_, ?_⟩
  · exact ⟨_, a - b, (exec_atRest hrest).trans (arithRegister_of_present (· - ·) rd ha hb),
      readReg_nextPc_writeReg s rd _, toNat_sub_eq_emod a b, writesOnlyRegister_nextPc_writeReg s rd _⟩
  · exact ⟨_, a - sext32 imm, (exec_atRest hrest).trans (arithLiteral_of_present (· - ·) rd imm ha),
      readReg_nextPc_writeReg s rd _, toNat_sub_sext32 a imm, writesOnlyRegister_nextPc_writeReg s rd _⟩

end

section
/-! The architectural effect through the stages (44_arithmetic R138): the slot of an instruction, executed on the
registers before it, carries what the instruction does as a whole through MEM1 and WB. -/

namespace Sys2Proof.Proofs

open Sys2Proof Sys2Proof.Machine Sys2Proof.Laws

section
variable {i : Instr} {q : Slot} {s t : State} {rf : RegFile} {mem : Memory} {a b v : Word}

/-! ### MEM1 and WB of the pseudocode for a decoded slot -/

theorem r95Memory_of_passing (hd : decodedFrom i q) (hload : i.opcode ≠ .load) (hstore : i.opcode ≠ .store) :
    r95Memory mem (some q) = .ok (some q, mem) := by
  simp [r95Memory, r95Access, memoryReadEnabled_eq_false hd hload, memoryWriteEnabled_eq_false hd hstore]

theorem r95Memory_of_load (hd : decodedFrom i q) (hi : i.opcode = .load) (ha : q.aluResult = some a)
    (hv : mapGet mem a.toNat = some v) :
    r95Memory mem (some q) = .ok (some { q with memoryDatum := some v }, mem) := by
  simp [r95Memory, r95Access, (memoryReadEnabled_iff hd).mpr hi, ha, hv,
    memoryWriteEnabled_eq_false hd (by simp [hi] : i.opcode ≠ .store)]

theorem r95Memory_of_store (hd : decodedFrom i q) (hi : i.opcode = .store) (ha : q.aluResult = some a)
    (hv : q.opVal2 = some v) : r95Memory mem (some q) = .ok (some q, mapSet mem a.toNat v) := by
  simp [r95Memory, r95Access, memoryReadEnabled_eq_false hd (by simp [hi] : i.opcode ≠ .load),
    (memoryWriteEnabled_iff hd).mpr hi, ha, hv]

theorem r95WriteBack_of_noDest (hd : decodedFrom i q) (hr : writeRegOf i = none) :
    r95WriteBack rf (some q) = rf := by
  simp [r95WriteBack, registerWriteEnabled_of_decoded hd, hr]

theorem r95WriteBack_of_dest {r : RegIdx} (hd : decodedFrom i q) (hr : writeRegOf i = some r)
    (hv : (if i.opcode = .load then q.memoryDatum else q.aluResult) = some v) :
    r95WriteBack rf (some q) = mapSet rf r.toNat v := by
  have hen : q.registerWriteEnabled = true := by simp [registerWriteEnabled_of_decoded hd, hr]
  have hresult : resultOf q = some v := (resultOf_of_decoded hd).trans hv
  obtain ⟨-, -, -, hwr, -⟩ := hd
  exact r95WriteBack_of_result hen (hwr.trans hr) hresult

/-! ### EX of the pseudocode on the register file -/

theorem r95Execute_of_registers (hd : decodedFrom i q) (ha : readReg s (readReg1Of i) = some a)
    (hb : ∀ r, readReg2Of i = some r → readReg s r = some b) :
    r95Execute s.rf none none none q = .ok (r95Alu (latchOperands q a b)) := by
  have reads {r : RegIdx} {v : Word} (hv : readReg s r = some v) : r95Fwd s.rf none none none r = .ok v := by
    rw [readReg] at hv
    simp [r95Fwd, hv]
  obtain ⟨-, hr1, hr2, -⟩ := hd
  exact r95Execute_of_values (by rw [hr1]; exact reads ha) fun r hr => reads (hb r (hr2 ▸ hr))

/-- The ALU computes fields that no decode fills. -/
theorem r95Alu_frame (q : Slot) :
    r95Alu q = { q with aluResult := (r95Alu q).aluResult, isZero := (r95Alu q).isZero } := by
  obtain ⟨_, _, _, _ | op⟩ := q
  · rfl
  · cases op <;> rfl

theorem decodedFrom_r95Alu (hd : decodedFrom i q) : decodedFrom i (r95Alu (latchOperands q a b)) := by
  rw [r95Alu_frame]
  exact hd

/-- Every form but the branch has the second operand that its ALU operation takes (R88). -/
theorem aluSecond_latchOperands (hd : decodedFrom i q) (hi : i.opcode ≠ .branchNotZero) :
    aluSecond (latchOperands q a b) = some ((immediateOf i).getD b) := by
  rw [aluSecond_of_decoded (q := latchOperands q a b) hd]
  obtain ⟨-, -, hr2, -⟩ := hd
  cases i with
  | branchNotZero => exact absurd rfl hi
  | addReg | subReg => simp [latchOperands, hr2, readReg2Of, immediateOf, Instr.toRecord]
  | addLit | subLit | load | store => rfl

theorem aluResult_of_sub (hd : decodedFrom i q) (hi : i.opcode = .sub) :
    (r95Alu (latchOperands q a b)).aluResult = some (a - (immediateOf i).getD b) := by
  have hop : (latchOperands q a b).opcode = some .sub := hd.1.trans (congrArg some hi)
  simp only [r95Alu, ← aluSecond.eq_1, hop, aluSecond_latchOperands hd (by simp [hi])]
  rfl

/-- ADD, and the address computation of LOAD and STORE. -/
theorem aluResult_of_adds (hd : decodedFrom i q) (hi : i.opcode = .add ∨ i.opcode = .load ∨ i.opcode = .store) :
    (r95Alu (latchOperands q a b)).aluResult = some (a + (immediateOf i).getD b) := by
  have hop : (latchOperands q a b).opcode = some i.opcode := hd.1
  have hbranch : i.opcode ≠ .branchNotZero := by rcases hi with hi | hi | hi <;> simp [hi]
  simp only [r95Alu, ← aluSecond.eq_1, hop, aluSecond_latchOperands hd hbranch]
  rcases hi with hi | hi | hi <;> rw [hi] <;> rfl

theorem isZero_of_branch (hd : decodedFrom i q) (hi : i.opcode = .branchNotZero) :
    (r95Alu (latchOperands q a b)).isZero = some (isZeroWord a) := by
  have hop : (latchOperands q a b).opcode = some .branchNotZero := hd.1.trans (congrArg some hi)
  simp only [r95Alu, hop]
  rfl

/-! ### What the slot delivers -/

/-- The slot `e`, in EX with nothing ahead of it, leads the cycles that begin in `s` to the registers, the memory and
the index of `t`. -/
def Delivers (s : State) (e : Slot) (t : State) : Prop :=
  fetchTarget (some e) (s.fetchPtr + 1) = t.fetchPtr ∧
  ∃ m, r95Memory s.mem (some e) = .ok (some m, t.mem) ∧ r95WriteBack s.rf (some m) = t.rf

theorem fetchTarget_of_noBranch {e : Slot} {p : Word} (hd : decodedFrom i e) (hi : i.opcode ≠ .branchNotZero) :
    fetchTarget (some e) p = p := by
  simp [fetchTarget, takenBranch_eq_false hd hi]

theorem delivers_result {rd : RegIdx} {e : Slot} (hd : decodedFrom i e) (hi : i.opcode = .add ∨ i.opcode = .sub)
    (hdest : writeRegOf i = some rd) (hv : e.aluResult = some v) : Delivers s e (nextPc (writeReg s rd v)) := by
  have hload : i.opcode ≠ .load := by rcases hi with hi | hi <;> simp [hi]
  have hstore : i.opcode ≠ .store := by rcases hi with hi | hi <;> simp [hi]
  have hbranch : i.opcode ≠ .branchNotZero := by rcases hi with hi | hi <;> simp [hi]
  exact ⟨fetchTarget_of_noBranch hd hbranch, e, r95Memory_of_passing hd hload hstore,
    r95WriteBack_of_dest hd hdest ((if_neg hload).trans hv)⟩

theorem delivers_load {rt rs : RegIdx} {imm : Imm} {e : Slot} (hd : decodedFrom (.load rt rs imm) e)
    (ha : e.aluResult = some a) (hv : readCell s a = some v) : Delivers s e (nextPc (writeReg s rt v)) :=
  ⟨fetchTarget_of_noBranch hd (by simp [Instr.opcode, Instr.toRecord]), _, r95Memory_of_load hd rfl ha hv,
    r95WriteBack_of_dest (i := .load rt rs imm) hd rfl rfl⟩

theorem delivers_store {rt rs : RegIdx} {imm : Imm} {e : Slot} (hd : decodedFrom (.store rt rs imm) e)
    (ha : e.aluResult = some a) (hv : e.opVal2 = some v) : Delivers s e (nextPc (writeCell s a v)) :=
  ⟨fetchTarget_of_noBranch hd (by simp [Instr.opcode, Instr.toRecord]), e, r95Memory_of_store hd rfl ha hv,
    r95WriteBack_of_noDest hd rfl⟩

theorem delivers_branch {rs : RegIdx} {imm : Imm} {e : Slot} (hd : decodedFrom (.branchNotZero rs imm) e)
    (hpc : e.pc = s.fetchPtr) (hz : e.isZero = some (isZeroWord a)) :
    Delivers s e { s with fetchPtr := if isZeroWord a then s.fetchPtr + 1 else s.fetchPtr + sext32 imm } := by
  have htaken : takenBranch e = !isZeroWord a := by
    rw [takenBranch_of_branch hd rfl, hz]
    cases isZeroWord a <;> rfl
  have htarget : e.branchTargetAddress = some (s.fetchPtr + sext32 imm) := by
    obtain ⟨-, -, -, -, -, htarget, -⟩ := hd
    rw [htarget, hpc]
    rfl
  refine ⟨?_, e, r95Memory_of_passing hd (by simp [Instr.opcode, Instr.toRecord])
    (by simp [Instr.opcode, Instr.toRecord]), r95WriteBack_of_noDest hd rfl⟩
  cases hzero : isZeroWord a <;> simp [fetchTarget, htaken, htarget, hzero]

/-! ### Every form -/

theorem withReg_completes {r : RegIdx} {k : Word → Result State} (h : withReg r s k = .next t) (hno : t.fault = none) :
    ∃ v, readReg s r = some v ∧ k v = .next t := by
  rcases withReg_next h with hv | ⟨-, rfl⟩
  · exact hv
  · simp at hno

theorem withCell_completes {k : Word → Result State} (h : withCell a s k = .next t) (hno : t.fault = none) :
    ∃ v, readCell s a = some v ∧ k v = .next t := by
  rcases withCell_next h with hv | ⟨-, rfl⟩
  · exact hv
  · simp at hno

/-- An instruction that as a whole raises nothing executes on the same registers, and its slot delivers what the
instruction does as a whole. -/
theorem wholeOf_delivers (hd : decodedFrom i q) (hpc : q.pc = s.fetchPtr) (h : wholeOf i s = .next t)
    (hno : t.fault = none) : ∃ e, r95Execute s.rf none none none q = .ok e ∧ Delivers s e t := by
  have hde (a b : Word) : decodedFrom i (r95Alu (latchOperands q a b)) := decodedFrom_r95Alu hd
  cases i with
  | addReg rd rs rt =>
    obtain ⟨a, ha, h⟩ := withReg_completes h hno
    obtain ⟨b, hb, h⟩ := withReg_completes h hno
    obtain rfl : nextPc (writeReg s rd (a + b)) = t := by simpa using h
    exact ⟨_, r95Execute_of_registers hd ha (by rintro _ ⟨⟩; exact hb), delivers_result (hde a b) (.inl rfl) rfl
      (aluResult_of_adds hd (.inl rfl))⟩
  | subReg rd rs rt =>
    obtain ⟨a, ha, h⟩ := withReg_completes h hno
    obtain ⟨b, hb, h⟩ := withReg_completes h hno
    obtain rfl : nextPc (writeReg s rd (a - b)) = t := by simpa using h
    exact ⟨_, r95Execute_of_registers hd ha (by rintro _ ⟨⟩; exact hb), delivers_result (hde a b) (.inr rfl) rfl
      (aluResult_of_sub hd rfl)⟩
  | addLit rd rs imm =>
    obtain ⟨a, ha, h⟩ := withReg_completes h hno
    obtain rfl : nextPc (writeReg s rd (a + sext32 imm)) = t := by simpa using h
    exact ⟨_, r95Execute_of_registers (b := 0) hd ha nofun, delivers_result (hde a 0) (.inl rfl) rfl
      (aluResult_of_adds hd (.inl rfl))⟩
  | subLit rd rs imm =>
    obtain ⟨a, ha, h⟩ := withReg_completes h hno
    obtain rfl : nextPc (writeReg s rd (a - sext32 imm)) = t := by simpa using h
    exact ⟨_, r95Execute_of_registers (b := 0) hd ha nofun, delivers_result (hde a 0) (.inr rfl) rfl
      (aluResult_of_sub hd rfl)⟩
  | load rt rs imm =>
    obtain ⟨a, ha, h⟩ := withReg_completes h hno
    obtain ⟨v, hv, h⟩ := withCell_completes h hno
    obtain rfl : nextPc (writeReg s rt v) = t := by simpa using h
    exact ⟨_, r95Execute_of_registers (b := 0) hd ha nofun, delivers_load (hde a 0)
      (aluResult_of_adds hd (.inr (.inl rfl))) hv⟩
  | store rt rs imm =>
    obtain ⟨a, ha, h⟩ := withReg_completes h hno
    obtain ⟨v, hv, h⟩ := withReg_completes h hno
    obtain rfl : nextPc (writeCell s (effectiveAddress a imm) v) = t := by simpa using h
    have hdatum : (r95Alu (latchOperands q a v)).opVal2 = some v := by
      obtain ⟨-, -, hr2, -⟩ := hd
      rw [r95Alu_frame]
      simp [latchOperands, hr2, readReg2Of]
    exact ⟨_, r95Execute_of_registers hd ha (by rintro _ ⟨⟩; exact hv), delivers_store (hde a v)
      (aluResult_of_adds hd (.inr (.inr rfl))) hdatum⟩
  | branchNotZero rs imm =>
    obtain ⟨a, ha, h⟩ := withReg_completes h hno
    obtain rfl : { s with fetchPtr := if isZeroWord a then s.fetchPtr + 1 else s.fetchPtr + sext32 imm } = t := by
      cases hz : isZeroWord a <;> simpa [hz, nextPc] using h
    have hpc' : (r95Alu (latchOperands q a 0)).pc = s.fetchPtr := by
      rw [r95Alu_frame]
      exact hpc
    exact ⟨_, r95Execute_of_registers (b := 0) hd ha nofun, delivers_branch (hde a 0) hpc' (isZero_of_branch hd rfl)⟩

end

end Sys2Proof.Proofs
end

section
/-! The cycles of a program whose end has been found (40_pipeline_engine R81, R94, R98, 70_reset_and_hazards R185): one
instruction alone is fetched in the first cycle and then moves on by itself, one stage a cycle, until it retires in the
eighth. -/

namespace Sys2Proof.Proofs

open Sys2Proof Sys2Proof.Machine Sys2Proof.Laws

/-! ### A cycle that raises nothing, as the pseudocode computes it -/

section
variable {s : State} {e d m1 : Option Slot} {mem' : Memory}

theorem step_of_inv (h : Inv s) : step s = .next (r95Step s) :=
  cycleIsThePseudocode s h

/-- A cycle that neither stalls nor raises before its fetch (R95). -/
theorem r95Step_of_ok (hrun : terminal s = false) (hgo : stalled s = false)
    (hm : r95Memory s.mem s.lat.ex = .ok (m1, mem'))
    (he : overSlot s.lat.id (r95Execute (r95WriteBack s.rf s.lat.mem3) m1 s.lat.mem1 s.lat.mem2) = .ok e)
    (hd : overSlot s.lat.if2 (r95Decode e m1) = .ok d) :
    r95Step s =
      r95FetchHere
        { s with rf := r95WriteBack s.rf s.lat.mem3, mem := mem', fetchPtr := fetchTarget e s.fetchPtr } s.lat.mem3
        ⟨none, if e.any takenBranch then none else s.lat.if1, if e.any takenBranch then none else d, e, m1,
          s.lat.mem1, s.lat.mem2⟩ := by
  rw [r95Step_of_mem1Ok hrun hm,
    r95Young_of_ok (s := { s with rf := r95WriteBack s.rf s.lat.mem3, mem := mem' }) hgo he hd, r95Fetch_eq_here]
  rfl

end

theorem r95FetchHere_of_word {s : State} {w : InstrWord} (p : Option Slot) (lat : Latches)
    (hge : 0 ≤ s.fetchPtr.toInt) (hw : s.img[s.fetchPtr.toNat]? = some w) :
    ∃ report, r95FetchHere s p lat =
      r95End { s with fetchPtr := s.fetchPtr + 1, seqNext := s.seqNext + 1, eop := false }
        { lat with if1 := some (newSlot w s.fetchPtr s.seqNext) } report := by
  have hlt : s.fetchPtr.toInt < imageLength s := (toInt_lt_length_iff hge).mpr ⟨w, hw⟩
  have hat : imageAt s s.fetchPtr = some w := (imageAt_of_nonneg hge).trans hw
  rw [r95FetchHere, if_neg (not_lt.mpr hge), if_pos hlt, hat]
  exact ⟨_, rfl⟩

theorem r95FetchHere_of_pastEnd {s : State} (p : Option Slot) (lat : Latches)
    (h : (imageLength s : Int) ≤ s.fetchPtr.toInt) :
    ∃ report, r95FetchHere s p lat = r95End { s with eop := true } { lat with if1 := none } report := by
  have hge : 0 ≤ s.fetchPtr.toInt := (Int.natCast_nonneg _).trans h
  rw [r95FetchHere, if_neg (not_lt.mpr hge), if_neg (not_lt.mpr h)]
  exact ⟨_, rfl⟩

/-! ### Past the end of the program -/

/-- `s` is between cycles, `cycle` of them done, with registers `rf`, memory `mem` and the slots `lat` in flight, and
has `ptr` past the end of an image of `len` words to fetch at. -/
structure PastEnd (len : Nat) (rf : RegFile) (mem : Memory) (ptr : Word) (lat : Latches) (cycle : Nat) (s : State) :
    Prop where
  inv : Inv s
  noFault : s.fault = none
  finished : s.finished = drained lat
  length : imageLength s = len
  atEnd : (len : Int) ≤ ptr.toInt
  rf : s.rf = rf
  mem : s.mem = mem
  fetchPtr : s.fetchPtr = ptr
  lat : s.lat = lat
  cycle : s.cycle = cycle

section
variable {len n : Nat} {rf : RegFile} {mem mem' : Memory} {ptr ptr' : Word} {lat : Latches} {s : State}
  {e d m1 : Option Slot}

/-- A cycle past the end of the program moves every slot one stage on and fetches nothing (R81, R94). -/
theorem PastEnd.advance (h : PastEnd len rf mem ptr lat n s) (hbusy : drained lat = false)
    (hgo : lat.id.any (·.stallPending) = false) (hm : r95Memory mem lat.ex = .ok (m1, mem'))
    (he : overSlot lat.id (r95Execute (r95WriteBack rf lat.mem3) m1 lat.mem1 lat.mem2) = .ok e)
    (hd : overSlot lat.if2 (r95Decode e m1) = .ok d) (hptr : fetchTarget e ptr = ptr')
    (hend : (len : Int) ≤ ptr'.toInt) :
    ∃ t, step s = .next t ∧
      PastEnd len (r95WriteBack rf lat.mem3) mem' ptr'
        ⟨none, if e.any takenBranch then none else lat.if1, if e.any takenBranch then none else d, e, m1, lat.mem1,
          lat.mem2⟩ (n + 1) t := by
  obtain ⟨hinv, hno, hfin, rfl, -, rfl, rfl, rfl, rfl, rfl⟩ := h
  have hrun : terminal s = false := by simp [terminal, hno, hfin, hbusy]
  have hstep := step_of_inv hinv
  rw [r95Step_of_ok hrun hgo hm he hd, hptr] at hstep
  obtain ⟨report, hr⟩ := r95FetchHere_of_pastEnd (s := { s with
    rf := r95WriteBack s.rf s.lat.mem3, mem := mem', fetchPtr := ptr' }) s.lat.mem3 _ hend
  rw [hr] at hstep
  exact ⟨_, hstep, {
    inv := step_keeps_inv hinv hstep, noFault := hno, finished := rfl, length := rfl, atEnd := hend, rf := rfl
    mem := rfl, fetchPtr := rfl, lat := rfl, cycle := rfl }⟩

/-- Where ID and EX are empty the slots only move on, and the one in WB retires. -/
theorem PastEnd.advance_idle (h : PastEnd len rf mem ptr lat n s) (hbusy : drained lat = false)
    (hif2 : lat.if2 = none) (hid : lat.id = none) (hex : lat.ex = none) :
    ∃ t, step s = .next t ∧
      PastEnd len (r95WriteBack rf lat.mem3) mem ptr ⟨none, lat.if1, none, none, none, lat.mem1, lat.mem2⟩
        (n + 1) t :=
  h.advance (e := none) (d := none) (m1 := none) hbusy (by rw [hid]; rfl) (by rw [hex]; rfl) (by rw [hid]; rfl)
    (by rw [hif2]; rfl) rfl h.atEnd

end

/-! ### One instruction alone -/

theorem r95Decode_encode (i : Instr) (pc : Word) (seq : Nat) :
    r95Decode none none (newSlot (encode i) pc seq) = .ok (decodeSlot i (newSlot (encode i) pc seq)) := by
  simp only [r95Decode, newSlot, decode_encode]
  rfl

/-- The first cycle fetches the only word of the image. -/
theorem boot_fetches {regs : List (RegIdx × Word)} {cells : List (Word × Word)} {w : InstrWord} {s : State}
    (h : boot regs cells [w] = some s) :
    ∃ t, step s = .next t ∧
      PastEnd 1 s.rf s.mem 1 ⟨some (newSlot w 0 Config.seqBase), none, none, none, none, none, none⟩ 1 t := by
  have hinv := boot_inv h
  have hstep := step_of_inv hinv
  obtain ⟨-, -, -, rfl⟩ := boot_eq_some h
  rw [r95Step_of_ok (e := none) (d := none) rfl rfl rfl rfl rfl] at hstep
  obtain ⟨report, hr⟩ := r95FetchHere_of_word (w := w) (s := { State.reset with
    rf := loadSection (registerLines regs), mem := loadSection (memoryLines cells), img := [w] }) none Latches.empty
    (by decide : 0 ≤ (0 : Word).toInt) rfl
  replace hstep := hstep.trans (congrArg Host.Outcome.next hr)
  exact ⟨_, hstep, {
    inv := step_keeps_inv hinv hstep, noFault := rfl, finished := rfl, length := rfl, atEnd := by decide, rf := rfl
    mem := rfl, fetchPtr := rfl, lat := rfl, cycle := rfl }⟩

/-- In eight cycles one instruction alone passes the eight stages and leaves what it does as a whole. -/
theorem boot_runs_alone {i : Instr} {regs : List (RegIdx × Word)} {cells : List (Word × Word)} {s t : State}
    (hboot : boot regs cells [encode i] = some s) (h : wholeOf i s = .next t) (hno : t.fault = none)
    (hend : 1 ≤ t.fetchPtr.toInt) :
    ∃ u, runFor 8 s = .next u ∧ PastEnd 1 t.rf t.mem t.fetchPtr Latches.empty 8 u := by
  have hptr : s.fetchPtr = 0 := by
    obtain ⟨-, -, -, rfl⟩ := boot_eq_some hboot
    rfl
  obtain ⟨e, hexecute, htarget, m, hmemory, hwriteback⟩ :=
    wholeOf_delivers (q := decodeSlot i (newSlot (encode i) 0 Config.seqBase))
      (decodedFrom_decodeSlot i _ false) hptr.symm h hno
  rw [hptr] at htarget
  obtain ⟨s1, hs1, hif1⟩ := boot_fetches hboot
  obtain ⟨s2, hs2, hif2⟩ := hif1.advance_idle rfl rfl rfl rfl
  obtain ⟨s3, hs3, hid⟩ :=
    hif2.advance rfl rfl rfl rfl (overSlot_some_ok (r95Decode_encode i 0 Config.seqBase)) rfl hif2.atEnd
  obtain ⟨s4, hs4, hex⟩ := hid.advance rfl rfl rfl (overSlot_some_ok hexecute) rfl htarget hend
  simp only [ite_self] at hex
  obtain ⟨s5, hs5, hmem1⟩ := hex.advance rfl rfl hmemory rfl rfl rfl hend
  obtain ⟨s6, hs6, hmem2⟩ := hmem1.advance_idle rfl rfl rfl rfl
  obtain ⟨s7, hs7, hmem3⟩ := hmem2.advance_idle rfl rfl rfl rfl
  obtain ⟨s8, hs8, hwb⟩ := hmem3.advance_idle rfl rfl rfl rfl
  refine ⟨s8, ?_, hwriteback ▸ hwb⟩
  simp only [runFor, hs1, hs2, hs3, hs4, hs5, hs6, hs7, hs8]

end Sys2Proof.Proofs

open Sys2Proof Sys2Proof.Machine Sys2Proof.Laws Sys2Proof.Proofs

/-- Settles O19: the slot of the instruction passes the stages alone and delivers what `exec` does at rest. -/
theorem loneInstructionHasItsWholeEffect : Obligations.LoneInstructionHasItsWholeEffect := by
  unfold Obligations.LoneInstructionHasItsWholeEffect
  intro i regs cells s t hboot hexec hno hend
  rw [exec_atRest (boot_inv hboot).atRest] at hexec
  obtain ⟨u, hrun, hdone⟩ := boot_runs_alone hboot hexec hno hend
  have hcompleted : completed u = true := by
    rw [completed, hdone.finished, hdone.noFault]
    rfl
  exact ⟨u, hrun, hcompleted, hdone.cycle, hdone.rf, hdone.mem⟩

end

section
/-! LOAD and STORE as a whole (45_load_store R144 to R146): the cell they access, and what they leave. -/

namespace Sys2Proof.Proofs

open Sys2Proof Sys2Proof.Machine Sys2Proof.Laws

/-! ### The cell an instruction accesses -/

theorem toNat_effectiveAddress (base : Word) (imm : Imm) :
    ((effectiveAddress base imm).toNat : Int) = ((base.toNat : Int) + imm.toInt) % 2 ^ 32 :=
  toNat_add_sext32 base imm

/-- The effective address is the only address with the arithmetic value of base plus offset. -/
theorem eq_effectiveAddress {base a : Word} {imm : Imm}
    (h : (a.toNat : Int) = ((base.toNat : Int) + imm.toInt) % 2 ^ 32) : a = effectiveAddress base imm :=
  BitVec.eq_of_toNat_eq (Int.ofNat_inj.mp (h.trans (toNat_effectiveAddress base imm).symm))

theorem readCell_nextPc_writeCell (s : State) (a v : Word) : readCell (nextPc (writeCell s a v)) a = some v :=
  readCell_writeCell_self s a v

theorem writesOnlyCell_nextPc_writeCell (s : State) (a v : Word) :
    writesOnlyCell s (nextPc (writeCell s a v)) a :=
  ⟨fun _ hne => readCell_writeCell_of_ne s v hne, fun _ => rfl, rfl⟩

/-! ### The two instructions -/

section
variable {s : State} {rt rs : RegIdx} {imm : Imm} {base v : Word}

theorem withCell_of_present {a : Word} (k : Word → Result State) (hv : readCell s a = some v) :
    withCell a s k = k v := by
  simp [withCell, hv]

theorem withCell_of_absent {a : Word} (k : Word → Result State) (hno : readCell s a = none) :
    withCell a s k = raise (.memoryAbsent a) s := by
  simp [withCell, hno]

theorem loadWhole_of_present (hbase : readReg s rs = some base)
    (hv : readCell s (effectiveAddress base imm) = some v) :
    loadWhole rt rs imm s = .next (nextPc (writeReg s rt v)) := by
  rw [loadWhole, withReg_of_present _ hbase, withCell_of_present _ hv]

theorem loadWhole_of_absent (hbase : readReg s rs = some base)
    (hno : readCell s (effectiveAddress base imm) = none) :
    loadWhole rt rs imm s = raise (.memoryAbsent (effectiveAddress base imm)) s := by
  rw [loadWhole, withReg_of_present _ hbase, withCell_of_absent _ hno]

theorem storeWhole_of_present (hbase : readReg s rs = some base) (hv : readReg s rt = some v) :
    storeWhole rt rs imm s = .next (nextPc (writeCell s (effectiveAddress base imm) v)) := by
  rw [storeWhole, withReg_of_present _ hbase, withReg_of_present _ hv]

end

end Sys2Proof.Proofs

open Sys2Proof Sys2Proof.Machine Sys2Proof.Laws Sys2Proof.Proofs

/-- Settles O30: the stated address is the effective address, whose cell is written to `rt` or found absent. -/
theorem loadWholeEffect : Obligations.LoadWholeEffect := by
  unfold Obligations.LoadWholeEffect
  intro s rt rs imm base a hrest hbase haddr
  obtain rfl := eq_effectiveAddress haddr
  refine ⟨fun v hv => ?_, fun hno => ?_⟩
  · exact ⟨_, (exec_atRest hrest).trans (loadWhole_of_present hbase hv), readReg_nextPc_writeReg s rt v,
      writesOnlyRegister_nextPc_writeReg s rt v⟩
  · exact (exec_atRest hrest).trans (loadWhole_of_absent hbase hno)

/-- Settles O31: with base and source present STORE writes the cell at the effective address and moves the pc on. -/
theorem storeWholeEffect : Obligations.StoreWholeEffect := by
  unfold Obligations.StoreWholeEffect
  intro s rt rs imm base v hrest hbase hv
  refine ⟨_, (exec_atRest hrest).trans (storeWhole_of_present hbase hv), ?_⟩
  rintro _ rfl
  exact ⟨toNat_effectiveAddress base imm, readCell_nextPc_writeCell s _ v, writesOnlyCell_nextPc_writeCell s _ v⟩

end

section
/-! BRANCH_NOT_ZERO as a whole (46_branch_instruction R147): where the pc goes when the register is zero and when it
is not. -/

namespace Sys2Proof.Proofs

open Sys2Proof Sys2Proof.Machine Sys2Proof.Laws

theorem toNat_nextPc_fetchPtr (s : State) :
    ((nextPc s).fetchPtr.toNat : Int) = ((s.fetchPtr.toNat : Int) + 1) % 2 ^ 32 := by
  have hadd : (nextPc s).fetchPtr.toNat = (s.fetchPtr.toNat + 1) % 2 ^ 32 := BitVec.toNat_add s.fetchPtr 1
  exact_mod_cast hadd

section
variable {s : State} {rs : RegIdx} {a : Word}

theorem branchWhole_of_zero (imm : Imm) (ha : readReg s rs = some a) (hz : a.toNat = 0) :
    branchWhole rs imm s = .next (nextPc s) := by
  rw [branchWhole, withReg_of_present _ ha, if_pos (by simpa [isZeroWord_eq] using hz)]

theorem branchWhole_of_nonzero (imm : Imm) (ha : readReg s rs = some a) (hz : a.toNat ≠ 0) :
    branchWhole rs imm s = .next { s with fetchPtr := s.fetchPtr + sext32 imm } := by
  rw [branchWhole, withReg_of_present _ ha, if_neg (by simpa [isZeroWord_eq] using hz)]

end

end Sys2Proof.Proofs

open Sys2Proof Sys2Proof.Machine Sys2Proof.Laws Sys2Proof.Proofs

/-- Settles O32: by cases on the test of the register, which sends the pc on by one or by the immediate. -/
theorem branchWholeEffect : Obligations.BranchWholeEffect := by
  unfold Obligations.BranchWholeEffect
  intro s rs imm a hrest ha
  by_cases hz : a.toNat = 0
  · exact ⟨_, (exec_atRest hrest).trans (branchWhole_of_zero imm ha hz), rfl, fun _ => rfl, fun _ => rfl,
      fun _ => toNat_nextPc_fetchPtr s, fun hne => absurd hz hne⟩
  · exact ⟨_, (exec_atRest hrest).trans (branchWhole_of_nonzero imm ha hz), rfl, fun _ => rfl, fun _ => rfl,
      fun h => absurd h hz, fun _ => toNat_add_sext32 s.fetchPtr imm⟩

end

section
/-! Where a fatal condition comes from and what its cycle leaves (60_exceptions R150 to R158): each of the four phases
that can raise raises its own condition, and the counters and the end marks are then as the cycle found them. -/

namespace Sys2Proof.Proofs

open Sys2Proof Sys2Proof.Machine Sys2Proof.Laws

theorem noFault_of_running {s : State} (hrun : terminal s = false) : s.fault = none := by
  simp_all [terminal]

theorem runFor_of_terminal {s : State} (h : terminal s = true) (k : Nat) : runFor k s = .next s := by
  induction k with
  | zero => rfl
  | succ k ih => simpa only [runFor, step_of_terminal h] using ih

/-! ### What each phase raises -/

/-- The back phases raise only `MemoryAbsent` (R155). -/
theorem backPhases_raises {s t : State} {f : FatalCondition} (hno : s.fault = none) (h : backPhases s = .next t)
    (hf : t.fault = some f) : ∃ a, f = .memoryAbsent a := by
  rcases andThen_next h with ⟨u, hwb, -, rfl⟩ | ⟨u, hwb, -, hm⟩
  · obtain ⟨ht, -⟩ := wbPhase_next hwb
    rw [ht] at hf
    simp [hno] at hf
  · obtain ⟨hu, -⟩ := wbPhase_next hwb
    have hnou : u.fault = none := by rw [hu]; exact hno
    rcases mem1Phase_next hm with ⟨-, rfl⟩ | ⟨_, a, -, -, -, -, rfl⟩ | ⟨_, _, -, ht, -, -⟩
    · simp [hnou] at hf
    · exact ⟨a, (Option.some.inj hf).symm⟩
    · rw [ht] at hf
      simp [hnou] at hf

/-- The EX phase raises only `RegisterAbsent` (R154). -/
theorem exPhase_raises {s t : State} {f : FatalCondition} (hno : s.fault = none) (h : exPhase s = .next t)
    (hf : t.fault = some f) : ∃ r, f = .registerAbsent r := by
  rcases exPhase_next h with ⟨-, rfl⟩ | ⟨_, _, _, _, -, -, -, rfl, -⟩ | ⟨_, r, -, -, -, rfl⟩
  · simp [hno] at hf
  · simp [hno] at hf
  · exact ⟨r, (Option.some.inj hf).symm⟩

theorem idPhase_lat_ex {s t : State} (h : idPhase s = .next t) : t.lat.ex = s.lat.ex := by
  rcases idPhase_next h with ⟨-, rfl⟩ | ⟨_, _, -, -, rfl⟩ | ⟨_, _, -, -, rfl⟩ <;> rfl

/-- The front phases raise `IllegalInstruction` for the word in IF2 (R153), or `FetchOutOfRange` where the branch
resolution left `fetchPtr` negative (R156). -/
theorem frontPhases_raises {s t : State} {f : FatalCondition} (hno : s.fault = none) (h : frontPhases s = .next t)
    (hf : t.fault = some f) :
    (∃ q e, s.lat.if2 = some q ∧ decode q.instr = .error e ∧ f = .illegalInstruction q.pc q.instr) ∨
    (t.fetchPtr = fetchTarget s.lat.ex s.fetchPtr ∧ t.fetchPtr.toInt < 0 ∧ f = .fetchOutOfRange t.fetchPtr) := by
  rcases frontPhases_next h with ⟨hid, -⟩ | ⟨d, b, hid, -, hbr, hnob, hfe⟩
  · rcases idPhase_next hid with ⟨-, rfl⟩ | ⟨_, _, -, -, rfl⟩ | ⟨q, e, hq, he, rfl⟩
    · simp [hno] at hf
    · simp [hno] at hf
    · exact .inl ⟨q, e, hq, he, (Option.some.inj hf).symm⟩
  · have hptr : b.fetchPtr = fetchTarget s.lat.ex s.fetchPtr := by
      rw [fetchPtr_of_branchPhase hbr, passFetch_lat_ex, idPhase_lat_ex hid, idPhase_frame hid]
      rfl
    rcases fetch_next hfe with ⟨hneg, rfl⟩ | ⟨-, _, -, rfl⟩ | ⟨-, -, rfl⟩
    · exact .inr ⟨hptr, hneg, (Option.some.inj hf).symm⟩
    · simp [hnob] at hf
    · simp [hnob] at hf

/-! ### The cycle that raises -/

/-- A step that raises leaves what the phase that raised left, with the latches put back (R150). -/
theorem step_raises {s t : State} {f : FatalCondition} (hrun : terminal s = false) (h : step s = .next t)
    (hf : t.fault = some f) :
    ∃ c, c.fault = some f ∧ t = { c with lat := s.lat, phase := .atRest } ∧
      (backPhases s = .next c ∨
       ∃ u, backPhases s = .next u ∧ u.fault = none ∧ stalled s = false ∧
        (exPhase u = .next c ∨
         ∃ v, exPhase u = .next v ∧ v.fault = none ∧ frontPhases v = .next c)) := by
  rw [step_of_running hrun] at h
  obtain ⟨c, hc, ⟨-, rfl⟩ | ⟨hnone, rfl⟩⟩ := settle_next h
  · refine ⟨c, hf, rfl, ?_⟩
    rcases cyclePhases_next hc with ⟨hb, -⟩ | ⟨u, hb, hnou, hrest⟩
    · exact .inl hb
    · have hstall := stalled_of_backPhases hb
      rcases hrest with ⟨-, rfl⟩ | ⟨hgo, ⟨hex, -⟩ | ⟨v, hex, hnov, ⟨hfr, -⟩ | ⟨w, -, hnow, rfl⟩⟩⟩
      · simp [hnou] at hf
      · exact .inr ⟨u, hb, hnou, hstall ▸ hgo, .inl hex⟩
      · exact .inr ⟨u, hb, hnou, hstall ▸ hgo, .inr ⟨v, hex, hnov, hfr⟩⟩
      · simp [hnow] at hf
  · exact absurd (congrArg Option.isSome hf) (by simp [hnone])

/-- A condition that is neither of memory nor of a register is raised by the front phases, after the others have
completed (R158). -/
theorem step_raises_front {s t : State} {f : FatalCondition} (hrun : terminal s = false) (h : step s = .next t)
    (hf : t.fault = some f) (hmem : ∀ a, f ≠ .memoryAbsent a) (hreg : ∀ r, f ≠ .registerAbsent r) :
    stalled s = false ∧ ∃ u v c, backPhases s = .next u ∧ u.fault = none ∧ exPhase u = .next v ∧ v.fault = none ∧
      frontPhases v = .next c ∧ c.fault = some f ∧ t.fetchPtr = c.fetchPtr := by
  obtain ⟨c, hcf, rfl, hb | ⟨u, hb, hnou, hgo, hex | ⟨v, hex, hnov, hfr⟩⟩⟩ := step_raises hrun h hf
  · obtain ⟨a, ha⟩ := backPhases_raises (noFault_of_running hrun) hb hcf
    exact absurd ha (hmem a)
  · obtain ⟨r, hr⟩ := exPhase_raises hnou hex hcf
    exact absurd hr (hreg r)
  · exact ⟨hgo, u, v, c, hb, hnou, hex, hnov, hfr, hcf, rfl⟩

/-! ### What it leaves -/

/-- The front phases that raise change `fetchPtr` and nothing else but latches and `fault`: the fetch, which counts
and marks the end of the program, has raised or has not run. -/
theorem frontPhases_raise_frame {s t : State} (h : frontPhases s = .next t) (hf : t.fault.isSome = true) :
    t = { s with lat := t.lat, fetchPtr := t.fetchPtr, fault := t.fault, phase := t.phase } := by
  rcases frontPhases_next h with ⟨hid, -⟩ | ⟨d, b, hid, -, hbr, hnob, hfe⟩
  · have ht := idPhase_frame hid
    rw [ht]
  · have hd := idPhase_frame hid
    have hb := branchPhase_frame hbr
    rcases fetch_next hfe with ⟨-, rfl⟩ | ⟨-, _, -, rfl⟩ | ⟨-, -, rfl⟩
    · rw [hb, hd]
      rfl
    · simp [hnob] at hf
    · simp [hnob] at hf

/-- A step that raises counts nothing and marks no end (R150, R151). -/
theorem step_raise_frame {s t : State} (hrun : terminal s = false) (h : step s = .next t)
    (hf : t.fault.isSome = true) :
    t.lat = s.lat ∧ t.seqNext = s.seqNext ∧ t.eop = s.eop ∧ t.cycle = s.cycle ∧ t.finished = s.finished := by
  obtain ⟨f, hf'⟩ := Option.isSome_iff_exists.mp hf
  obtain ⟨c, hcf, rfl, hraised⟩ := step_raises hrun h hf'
  refine ⟨rfl, ?_⟩
  dsimp only
  rcases hraised with hb | ⟨u, hb, -, -, hyoung⟩
  · obtain ⟨-, -, -, -, -, hseq, hcycle, heop, hfin, -⟩ := backPhases_front hb
    exact ⟨hseq, heop, hcycle, hfin⟩
  · obtain ⟨-, -, -, -, -, hseq, hcycle, heop, hfin, -⟩ := backPhases_front hb
    rw [← hseq, ← heop, ← hcycle, ← hfin]
    rcases hyoung with hex | ⟨v, hex, -, hfr⟩
    · rw [exPhase_frame hex]
      exact ⟨rfl, rfl, rfl, rfl⟩
    · rw [frontPhases_raise_frame hfr hf, exPhase_frame hex]
      exact ⟨rfl, rfl, rfl, rfl⟩

/-! ### The branch that redirects the fetch -/

/-- The slot the EX phase leaves in EX is the one that was in ID, with its operands and results. -/
theorem exPhase_ex {s t : State} {q : Slot} (hempty : s.lat.ex = none) (h : exPhase s = .next t)
    (hq : t.lat.ex = some q) :
    ∃ d, s.lat.id = some d ∧
      q = { d with opVal1 := q.opVal1, opVal2 := q.opVal2, aluResult := q.aluResult, isZero := q.isZero } := by
  rcases exPhase_next h with ⟨-, rfl⟩ | ⟨d, i, q1, q2, hd, -, halu, rfl, hops⟩ | ⟨_, _, -, -, -, rfl⟩
  · simp [hempty] at hq
  · obtain rfl : q2 = q := Option.some.inj hq
    refine ⟨d, hd, ?_⟩
    rw [aluOf_frame halu]
    rcases hops with ⟨_, _, -, -, -, rfl⟩ | ⟨_, _, _, _, -, -, -, -, rfl⟩ <;> rfl
  · simp [hempty] at hq

/-- Where the target of the fetch is not the `fetchPtr` the cycle began with, the slot in EX is a branch to it. -/
theorem branch_of_fetchTarget_ne {img : List InstrWord} {e : Option Slot} {ptr : Word}
    (hexe : e.all (asExecuted img) = true) (hne : fetchTarget e ptr ≠ ptr) :
    ∃ q imm, e = some q ∧ q.branchEnabled = true ∧ q.immediate = some imm ∧ fetchTarget e ptr = q.pc + imm := by
  cases e with
  | none => exact absurd rfl hne
  | some q =>
    cases htaken : takenBranch q with
    | false => simp [fetchTarget, htaken] at hne
    | true =>
      obtain ⟨i, -, hd, -⟩ := asExecuted_iff.mp hexe
      obtain ⟨a, ha⟩ := branchTarget_ready hd htaken
      obtain ⟨imm, himm, rfl⟩ := Option.map_eq_some_iff.mp ((branchTargetAddress_of_decoded hd).symm.trans ha)
      obtain ⟨hen, -⟩ := Bool.and_eq_true_iff.mp htaken
      exact ⟨q, imm, rfl, hen, himm, by simp [fetchTarget, htaken, ha]⟩

end Sys2Proof.Proofs

open Sys2Proof Sys2Proof.Machine Sys2Proof.Laws Sys2Proof.Proofs

/-- Settles O27: the phases before the fetch count nothing, and a state with a fault is terminal. -/
theorem fatalConditionStopsTheEngine : Obligations.FatalConditionStopsTheEngine := by
  unfold Obligations.FatalConditionStopsTheEngine
  intro s t hrun h hne
  have hf : t.fault.isSome = true := Option.isSome_iff_ne_none.mpr hne
  obtain ⟨hlat, hseq, heop, hcycle, hfin⟩ := step_raise_frame hrun h hf
  have hrunning : s.finished = false := by simp_all [terminal]
  have hterm : terminal t = true := by simp [terminal, hf]
  exact ⟨hlat, hseq, heop, hcycle, hfin.trans hrunning, runFor_of_terminal hterm⟩

/-- Settles O52: the front phases raised, and of their two phases it was ID, on the slot that was in IF2 when the cycle
began. -/
theorem illegalInstructionOnlyFromDecode : Obligations.IllegalInstructionOnlyFromDecode := by
  unfold Obligations.IllegalInstructionOnlyFromDecode
  intro s t p w hrun h hf
  obtain ⟨hgo, u, v, c, hb, hnou, hex, hnov, hfr, hcf, -⟩ := step_raises_front hrun h hf nofun nofun
  rcases frontPhases_raises hnov hfr hcf with ⟨q, e, hq, he, heq⟩ | ⟨-, -, heq⟩
  · obtain ⟨rfl, rfl⟩ := FatalCondition.illegalInstruction.inj heq
    exact ⟨⟨q, (if2_of_backPhases_exPhase hb hnou hex hnov).symm.trans hq, rfl, rfl, e, he⟩, hgo⟩
  · exact absurd heq nofun

/-- Settles O53: the cycle began with a `fetchPtr` that is not negative, so a taken branch redirected it, whose slot the
EX phase took from ID. -/
theorem fetchOutOfRangeOnlyFromTakenBranch : Obligations.FetchOutOfRangeOnlyFromTakenBranch := by
  unfold Obligations.FetchOutOfRangeOnlyFromTakenBranch
  intro s t p hinv hrun h hf
  obtain ⟨hgo, u, v, c, hb, hnou, hex, hnov, hfr, hcf, hptr⟩ := step_raises_front hrun h hf nofun nofun
  rcases frontPhases_raises hnov hfr hcf with ⟨_, _, -, -, heq⟩ | ⟨htarget, hneg, heq⟩
  · exact absurd heq nofun
  · obtain rfl := FatalCondition.fetchOutOfRange.inj heq
    obtain ⟨-, -, hid, -, hptru, -⟩ := backPhases_front hb
    obtain ⟨_, -, hu⟩ := backPhases_latches hb hnou
    have hmid : MidCycle v := ((midCycle_of_inv hinv hrun).of_backPhases hb).of_exPhase
      ((stalled_of_backPhases hb).trans hgo) hex
    have hptrv : 0 ≤ v.fetchPtr.toInt := by
      rw [exPhase_frame hex, hptru]
      exact hinv.pointer (noFault_of_running hrun)
    have hne : fetchTarget v.lat.ex v.fetchPtr ≠ v.fetchPtr := fun heq' =>
      absurd hneg (by rw [htarget, heq']; exact not_lt.mpr hptrv)
    obtain ⟨q, imm, hq, hen, himm, htarget'⟩ := branch_of_fetchTarget_ne hmid.latches.executedEx hne
    obtain ⟨d, hd, hqd⟩ := exPhase_ex (by rw [hu]) hex hq
    rw [hqd] at hen himm htarget'
    exact ⟨hneg, hptr, d, imm, hid.symm.trans hd, hen, himm, htarget.trans htarget'⟩

end

section
/-! Absent operands and absent cells (60_exceptions R154, R155, R158): the first thing an instruction finds absent is
what it raises, at the sequential level, in the EX phase and in a whole cycle. -/

namespace Sys2Proof.Proofs

open Sys2Proof Sys2Proof.Machine Sys2Proof.Laws

/-! ### At the sequential level -/

theorem withReg_of_absent {s : State} {r : RegIdx} (k : Word → Result State) (hno : readReg s r = none) :
    withReg r s k = raise (.registerAbsent r) s := by
  simp [withReg, hno]

/-- Every instruction reads its first register before it does anything else (R140 to R147). -/
theorem wholeOf_reads_first (i : Instr) (s : State) : ∃ k, wholeOf i s = withReg (readReg1Of i) s k := by
  cases i <;> exact ⟨_, rfl⟩

/-- An instruction with a second register reads it next. -/
theorem wholeOf_reads_second {i : Instr} {r : RegIdx} (hr : readReg2Of i = some r) (s : State) :
    ∃ k : Word → Word → Result State,
      wholeOf i s = withReg (readReg1Of i) s fun a => withReg r s (k a) := by
  cases i with
  | addReg | subReg | store =>
    obtain rfl := Option.some.inj hr
    exact ⟨_, rfl⟩
  | addLit | subLit | load | branchNotZero => simp [readReg2Of] at hr

/-! ### In the EX phase -/

/-- `r` is the first operand register of `q`, in the order of R154, that the forwarding unit finds absent. -/
def FirstAbsent (s : State) (q : Slot) (r : RegIdx) : Prop :=
  (q.readReg1 = some r ∧ fwd s r = .absent) ∨
  ∃ r1 a, q.readReg1 = some r1 ∧ fwd s r1 = .value a ∧ q.readReg2 = some r ∧ fwd s r = .absent

theorem resolveOperands_of_absent {s : State} {q : Slot} {r : RegIdx} (k : Slot → Result State)
    (h : FirstAbsent s q r) : resolveOperands q s k = raise (.registerAbsent r) s := by
  rcases h with ⟨hr1, habsent⟩ | ⟨r1, a, hr1, ha, hr2, habsent⟩
  · simp only [resolveOperands, hr1, habsent]
  · simp only [resolveOperands, hr1, ha, resolveSecond, hr2, habsent]

theorem exec_ex_of_absent {i : Instr} {s : State} {q : Slot} {r : RegIdx} (hph : s.phase = .ex)
    (hq : s.lat.id = some q) (h : FirstAbsent s q r) : exec i s = raise (.registerAbsent r) s := by
  rw [exec_ex hph, executeWith]
  simp only [hq]
  exact resolveOperands_of_absent _ h

/-- A cycle that comes to execute a slot with an absent operand ends there, whatever the younger slots hold (R158). -/
theorem step_of_absent_operand {s u : State} {q : Slot} {r : RegIdx} (hinv : Inv s) (hrun : terminal s = false)
    (hb : backPhases s = .next u) (hno : u.fault = none) (hq : u.lat.id = some q) (hgo : q.stallPending = false)
    (h : FirstAbsent u q r) : ∃ t, step s = .next t ∧ t.fault = some (.registerAbsent r) := by
  obtain ⟨-, -, hid, -⟩ := backPhases_front hb
  have hq_s : s.lat.id = some q := hid.symm.trans hq
  have hdec : inDecode s.img q = true := by simpa [hq_s] using hinv.decodedId
  obtain ⟨i, hi, -⟩ := asDecoded_iff.mp (asDecoded_of_inDecode hdec)
  have hex : exec i { u with phase := .ex } = raise (.registerAbsent r) { u with phase := .ex } :=
    exec_ex_of_absent rfl hq h
  rw [step_of_decoded hi hrun hq_s hgo, hb, andThen_of_noFault hno, hex, andThen_raise]
  exact ⟨_, settle_of_fault false hinv.atRest rfl, rfl⟩

/-! ### In the MEM1 phase -/

/-- What the data port shows of a LOAD in MEM1 whose cell is absent (R177). -/
theorem slot_of_dmem {s : State} {a : Word} (hre : dmemReadEnable s = true) (ha : dmemAddr s = some a)
    (hno : dmemPresent s = false) :
    ∃ q, s.lat.ex = some q ∧ q.memoryReadEnabled = true ∧ q.aluResult = some a ∧ readCell s a = none := by
  have hcell : readCell s a = none := by simpa [dmemPresent, dmemReadData, ha] using hno
  cases hq : s.lat.ex with
  | none => simp [dmemReadEnable, slotInMem1, hq] at hre
  | some q =>
    have hen : q.memoryReadEnabled = true := by simpa [dmemReadEnable, slotInMem1, hq] using hre
    have hres : q.aluResult = some a := by simpa [dmemAddr, slotInMem1, hq] using ha
    exact ⟨q, rfl, hen, hres, hcell⟩

theorem r95Memory_of_absent {s : State} {q : Slot} {a : Word} (hen : q.memoryReadEnabled = true)
    (ha : q.aluResult = some a) (hno : readCell s a = none) :
    r95Memory s.mem (some q) = .error (.memoryAbsent a) := by
  rw [readCell] at hno
  simp [r95Memory, r95Access, hen, ha, hno]

end Sys2Proof.Proofs

open Sys2Proof Sys2Proof.Machine Sys2Proof.Laws Sys2Proof.Proofs

/-- Settles O49: the step is the pseudocode's, which ends in its MEM1 phase. -/
theorem absentCellRaisesBeforeAnythingYounger : Obligations.AbsentCellRaisesBeforeAnythingYounger := by
  unfold Obligations.AbsentCellRaisesBeforeAnythingYounger
  intro s a hinv hrun hre ha hno
  obtain ⟨q, hq, hen, hres, hcell⟩ := slot_of_dmem hre ha hno
  have hraise : r95Memory s.mem s.lat.ex = .error (.memoryAbsent a) := hq ▸ r95Memory_of_absent hen hres hcell
  rw [cycleIsThePseudocode s hinv, r95Step_of_mem1Error hrun hraise]
  exact ⟨_, rfl, rfl, rfl⟩

/-- Settles O50: either clause names the first absent operand of the executing slot. -/
theorem absentRegisterRaisesBeforeAnythingYounger : Obligations.AbsentRegisterRaisesBeforeAnythingYounger := by
  unfold Obligations.AbsentRegisterRaisesBeforeAnythingYounger
  intro s u q hinv hrun hb hno hq hgo
  have raises {r : RegIdx} (h : FirstAbsent u q r) := step_of_absent_operand hinv hrun hb hno hq hgo h
  exact ⟨fun _ hr1 habsent => raises (.inl ⟨hr1, habsent⟩),
    fun r1 a _ hr1 ha hr2 habsent => raises (.inr ⟨r1, a, hr1, ha, hr2, habsent⟩)⟩

/-- Settles O33: both registers are read before anything is written. -/
theorem absentRegisterRaisesAsAWhole : Obligations.AbsentRegisterRaisesAsAWhole := by
  unfold Obligations.AbsentRegisterRaisesAsAWhole
  intro s i hrest
  rw [exec_atRest hrest]
  refine ⟨fun hno => ?_, fun a r ha hr hno => ?_⟩
  · obtain ⟨k, hk⟩ := wholeOf_reads_first i s
    rw [hk, withReg_of_absent _ hno, raise]
  · obtain ⟨k, hk⟩ := wholeOf_reads_second hr s
    rw [hk, withReg_of_present _ ha, withReg_of_absent _ hno, raise]

/-- Settles O37: the slot's read registers are the instruction's, and the first absent one raises. -/
theorem executePhaseRaisesRegisterAbsent : Obligations.ExecutePhaseRaisesRegisterAbsent := by
  unfold Obligations.ExecutePhaseRaisesRegisterAbsent
  intro i s q hph hq hd
  obtain ⟨-, hr1, hr2, -⟩ := hd
  exact ⟨fun habsent => exec_ex_of_absent hph hq (.inl ⟨hr1, habsent⟩),
    fun a r ha hr habsent => exec_ex_of_absent hph hq (.inr ⟨_, a, hr1, ha, hr2.trans hr, habsent⟩)⟩

end

section
/-! The ways a clock cycle can go (40_pipeline_engine R86 to R96): with the local copies of the pseudocode, one case
for each way it comes to its end and for each place where it raises. -/

namespace Sys2Proof.Proofs

open Sys2Proof Sys2Proof.Machine Sys2Proof.Laws

/-- The state in the middle of the cycle that begins in `s`, with the write-back done and the memory `mem'`. -/
def afterBack (s : State) (mem' : Memory) : State :=
  { s with rf := r95WriteBack s.rf s.lat.mem3, mem := mem' }

/-- The cycle that begins in `s` does not stall and comes to its fetch, with `m1`, `e` and `d` in MEM1, EX and ID. -/
structure Reaches (s : State) (m1 : Option Slot) (mem' : Memory) (e d : Option Slot) : Prop where
  memory : r95Memory s.mem s.lat.ex = .ok (m1, mem')
  going : stalled s = false
  executed : overSlot s.lat.id (r95Execute (r95WriteBack s.rf s.lat.mem3) m1 s.lat.mem1 s.lat.mem2) = .ok e
  decoded : overSlot s.lat.if2 (r95Decode e m1) = .ok d

/-- The latches a cycle leaves that does not stall, with `f1` in IF1. -/
def movedLatches (s : State) (f1 d e m1 : Option Slot) : Latches :=
  ⟨f1, if e.any takenBranch then none else s.lat.if1, if e.any takenBranch then none else d, e, m1, s.lat.mem1,
    s.lat.mem2⟩

/-- The latches a stall cycle leaves. -/
def heldLatches (s : State) (m1 : Option Slot) : Latches :=
  ⟨s.lat.if1, s.lat.if2, s.lat.id.map fun q => { q with stallPending := false }, none, m1, s.lat.mem1, s.lat.mem2⟩

/-- What the cycle that begins in `s` leaves when it comes to its end: a stall cycle (R86), one that fetches a word
(R92) and one that finds the end of the program (R94). -/
inductive Completes (s : State) : State → Prop where
  | stall {m1 : Option Slot} {mem' : Memory} (hm : r95Memory s.mem s.lat.ex = .ok (m1, mem'))
      (hs : stalled s = true) :
      Completes s (r95End (afterBack s mem') (heldLatches s m1) (stageReport true (heldLatches s m1) s.lat.mem3))
  | fetched {m1 e d : Option Slot} {mem' : Memory} {w : InstrWord} (h : Reaches s m1 mem' e d)
      (hw : imageAt s (fetchTarget e s.fetchPtr) = some w) :
      Completes s (r95End
        { afterBack s mem' with fetchPtr := fetchTarget e s.fetchPtr + 1, seqNext := s.seqNext + 1, eop := false }
        (movedLatches s (some (newSlot w (fetchTarget e s.fetchPtr) s.seqNext)) d e m1)
        (stageReport false (movedLatches s (some (newSlot w (fetchTarget e s.fetchPtr) s.seqNext)) d e m1)
          s.lat.mem3))
  | pastEnd {m1 e d : Option Slot} {mem' : Memory} (h : Reaches s m1 mem' e d)
      (hw : imageAt s (fetchTarget e s.fetchPtr) = none) :
      Completes s (r95End { afterBack s mem' with fetchPtr := fetchTarget e s.fetchPtr, eop := true }
        (movedLatches s none d e m1) (stageReport false (movedLatches s none d e m1) s.lat.mem3))

/-- The cycle that begins in `s` raises `f`: in MEM1 (R155), EX (R154), ID (R153) or IF1 (R156). -/
inductive Raises (s : State) : FatalCondition → Prop where
  | memory {f : FatalCondition} (hm : r95Memory s.mem s.lat.ex = .error f) : Raises s f
  | execute {m1 : Option Slot} {mem' : Memory} {f : FatalCondition}
      (hm : r95Memory s.mem s.lat.ex = .ok (m1, mem')) (hgo : stalled s = false)
      (he : overSlot s.lat.id (r95Execute (r95WriteBack s.rf s.lat.mem3) m1 s.lat.mem1 s.lat.mem2) = .error f) :
      Raises s f
  | decode {m1 e : Option Slot} {f : FatalCondition} (hd : overSlot s.lat.if2 (r95Decode e m1) = .error f) :
      Raises s f
  | outOfRange {m1 e d : Option Slot} {mem' : Memory} (h : Reaches s m1 mem' e d)
      (hneg : (fetchTarget e s.fetchPtr).toInt < 0) : Raises s (.fetchOutOfRange (fetchTarget e s.fetchPtr))

theorem r95Step_of_memory {s : State} {m1 : Option Slot} {mem' : Memory} (hrun : terminal s = false)
    (hm : r95Memory s.mem s.lat.ex = .ok (m1, mem')) :
    r95Step s = r95Young (afterBack s mem') s.lat.mem3 s.lat.mem2 s.lat.mem1 m1 :=
  r95Step_of_mem1Ok hrun hm

theorem r95Young_of_stall {s : State} (mem' : Memory) (m1 : Option Slot) (h : stalled s = true) :
    r95Young (afterBack s mem') s.lat.mem3 s.lat.mem2 s.lat.mem1 m1 =
      r95End (afterBack s mem') (heldLatches s m1) (stageReport true (heldLatches s m1) s.lat.mem3) := by
  rw [stalled] at h
  have hnone : entry .EX none = [] := rfl
  simp [r95Young, afterBack, h, heldLatches, stageReport, hnone]

theorem r95Step_of_reaches {s : State} {m1 e d : Option Slot} {mem' : Memory} (hrun : terminal s = false)
    (h : Reaches s m1 mem' e d) :
    r95Step s =
      r95FetchHere { afterBack s mem' with fetchPtr := fetchTarget e s.fetchPtr } s.lat.mem3
        (movedLatches s none d e m1) :=
  r95Step_of_ok hrun h.going h.memory h.executed h.decoded

/-- How a cycle that begins in `s` and leaves `t` has gone. -/
def Goes (s t : State) : Prop :=
  (t.fault = none ∧ Completes s t) ∨ ∃ f, t.fault = some f ∧ Raises s f

theorem goes_of_reaches {s : State} {m1 e d : Option Slot} {mem' : Memory} (hrun : terminal s = false)
    (h : Reaches s m1 mem' e d) : Goes s (r95Step s) := by
  have hno : s.fault = none := noFault_of_running hrun
  rw [r95Step_of_reaches hrun h, r95FetchHere]
  split
  · next hneg => exact .inr ⟨_, rfl, .outOfRange h hneg⟩
  · next hneg =>
    have hge : 0 ≤ (fetchTarget e s.fetchPtr).toInt := not_lt.mp hneg
    split
    · next hlt =>
      obtain ⟨w, hw⟩ := (toInt_lt_length_iff hge).mp hlt
      have hat : imageAt s (fetchTarget e s.fetchPtr) = some w := (imageAt_of_nonneg hge).trans hw
      rw [show imageAt { afterBack s mem' with fetchPtr := fetchTarget e s.fetchPtr } (fetchTarget e s.fetchPtr) =
        some w from hat]
      exact .inl ⟨hno, .fetched h hat⟩
    · next hend =>
      have hat : imageAt s (fetchTarget e s.fetchPtr) = none := by
        rw [imageAt_of_nonneg hge]
        exact Option.eq_none_iff_forall_ne_some.mpr fun w hw => hend ((toInt_lt_length_iff hge).mpr ⟨w, hw⟩)
      exact .inl ⟨hno, .pastEnd h hat⟩

theorem r95Step_goes {s : State} (hrun : terminal s = false) : Goes s (r95Step s) := by
  have hno : s.fault = none := noFault_of_running hrun
  cases hm : r95Memory s.mem s.lat.ex with
  | error f =>
    rw [r95Step_of_mem1Error hrun hm]
    exact .inr ⟨f, rfl, .memory hm⟩
  | ok p =>
    obtain ⟨m1, mem'⟩ := p
    cases hs : stalled s with
    | true =>
      rw [r95Step_of_memory hrun hm, r95Young_of_stall mem' m1 hs]
      exact .inl ⟨hno, .stall hm hs⟩
    | false =>
      cases he : overSlot s.lat.id (r95Execute (r95WriteBack s.rf s.lat.mem3) m1 s.lat.mem1 s.lat.mem2) with
      | error f =>
        rw [r95Step_of_memory hrun hm, r95Young_of_exError (s := afterBack s mem') hs he]
        exact .inr ⟨f, rfl, .execute hm hs he⟩
      | ok e =>
        cases hd : overSlot s.lat.if2 (r95Decode e m1) with
        | error f =>
          rw [r95Step_of_memory hrun hm, r95Young_of_idError (s := afterBack s mem') hs he hd]
          exact .inr ⟨f, rfl, .decode hd⟩
        | ok d => exact goes_of_reaches hrun ⟨hm, hs, he, hd⟩

/-- Every step of a running engine comes to the end of its cycle or raises. -/
theorem step_goes {s t : State} (h : Inv s) (hrun : terminal s = false) (hstep : step s = .next t) : Goes s t := by
  obtain rfl : r95Step s = t := by simpa [step_of_inv h] using hstep
  exact r95Step_goes hrun

theorem step_completes_cycle {s t : State} (h : Inv s) (hrun : terminal s = false) (hstep : step s = .next t)
    (hno : t.fault = none) : Completes s t := by
  rcases step_goes h hrun hstep with ⟨-, hc⟩ | ⟨f, hf, -⟩
  · exact hc
  · simp [hno] at hf

/-! ### A phase over a stage that may be empty -/

theorem overSlot_ok {p p' : Option Slot} {f : Slot → Except FatalCondition Slot} (h : overSlot p f = .ok p') :
    (p = none ∧ p' = none) ∨ ∃ q q', p = some q ∧ p' = some q' ∧ f q = .ok q' := by
  unfold overSlot at h
  split at h
  · exact .inl ⟨rfl, (Except.ok.inj h).symm⟩
  · next q =>
    split at h
    · simp at h
    · next q' hq => exact .inr ⟨q, q', rfl, (Except.ok.inj h).symm, hq⟩

theorem overSlot_error {p : Option Slot} {f : Slot → Except FatalCondition Slot} {c : FatalCondition}
    (h : overSlot p f = .error c) : ∃ q, p = some q ∧ f q = .error c := by
  unfold overSlot at h
  split at h
  · simp at h
  · next q =>
    split at h
    · next hq =>
      obtain rfl := Except.error.inj h
      exact ⟨q, rfl, hq⟩
    · simp at h

end Sys2Proof.Proofs
end

section
/-! The sequential level (00_scope R8, 70_reset_and_hazards R186): what one of its steps does in each range of the pc,
and its runs as lists of executed instructions. -/

namespace Sys2Proof.Proofs

open Sys2Proof Sys2Proof.Machine Sys2Proof.Laws

theorem imageAt_eq_some_iff {s : State} {p : Word} {w : InstrWord} :
    imageAt s p = some w ↔ 0 ≤ p.toInt ∧ s.img[p.toNat]? = some w := by
  rw [imageAt]
  split
  · next hneg => simp [hneg]
  · next hge => simp [not_lt.mp hge]

/-! ### One step -/

section
variable {s : State} {w : InstrWord} {i : Instr}

theorem seqStep_of_word (hrun : terminal s = false) (hw : imageAt s s.fetchPtr = some w) (hi : decode w = .ok i) :
    seqStep s = exec i { s with phase := .atRest } := by
  obtain ⟨hge, hword⟩ := imageAt_eq_some_iff.mp hw
  simp [seqStep, hrun, not_lt.mpr hge, hword, hi]

theorem seqStep_of_pastEnd (hrun : terminal s = false) (hge : 0 ≤ s.fetchPtr.toInt)
    (hw : imageAt s s.fetchPtr = none) : seqStep s = .next { s with eop := true, finished := true } := by
  rw [imageAt_of_nonneg hge] at hw
  simp [seqStep, hrun, not_lt.mpr hge, hw]

theorem seqStep_of_negative (hrun : terminal s = false) (hneg : s.fetchPtr.toInt < 0) :
    seqStep s = .next { s with fault := some (.fetchOutOfRange s.fetchPtr) } := by
  simp [seqStep, hrun, hneg, raise]

theorem seqStep_of_terminal (h : terminal s = true) : seqStep s = .next s := by
  simp [seqStep, h]

end

/-! ### Runs -/

theorem seqRun_succ {s t : State} (n : Nat) (h : seqStep s = .next t) : seqRun (n + 1) s = seqRun n t := by
  simp [seqRun, h]

theorem seqRun_of_terminal {s : State} (h : terminal s = true) (n : Nat) : seqRun n s = .next s := by
  induction n with
  | zero => rfl
  | succ n ih => rw [seqRun_succ n (seqStep_of_terminal h), ih]

/-- A run that has come to a terminal state stays there. -/
theorem seqRun_add {s u : State} {n : Nat} (m : Nat) (h : seqRun n s = .next u) (hterm : terminal u = true) :
    seqRun (n + m) s = .next u := by
  induction n generalizing s with
  | zero =>
    obtain rfl : s = u := by simpa [seqRun] using h
    exact seqRun_of_terminal hterm _
  | succ n ih =>
    rw [Nat.succ_add]
    simp only [seqRun] at h ⊢
    split at h
    · next t ht =>
      exact ih h
    · simp at h
    · simp at h

/-- The sequential level ends in one way. -/
theorem seqRun_unique {s u u' : State} {n n' : Nat} (h : seqRun n s = .next u) (hterm : terminal u = true)
    (h' : seqRun n' s = .next u') (hterm' : terminal u' = true) : u = u' := by
  have hlong := seqRun_add n' h hterm
  rw [Nat.add_comm, seqRun_add n h' hterm'] at hlong
  exact (Host.Outcome.next.inj hlong).symm

/-- From `s` the sequential level comes to `t` by executing the instruction `done`, or is there. -/
def Advances (s : State) (done : Option (Word × InstrWord)) (t : State) : Prop :=
  match done with
  | none => t = s
  | some (p, w) =>
    terminal s = false ∧ s.fetchPtr = p ∧ imageAt s p = some w ∧ seqStep s = .next t ∧ t.fault = none

/-- What the sequential level does from `t` it does from `s` after `done`. -/
theorem Advances.then_run {s t u : State} {done : Option (Word × InstrWord)} {n : Nat} (h : Advances s done t)
    (hrun : seqRun n t = .next u) :
    ∃ m, seqRun m s = .next u ∧ executedBy m s = done.toList ++ executedBy n t := by
  cases done with
  | none =>
    obtain rfl : t = s := h
    exact ⟨n, hrun, rfl⟩
  | some x =>
    obtain ⟨p, w⟩ := x
    obtain ⟨hterm, rfl, hw, hstep, hno⟩ := h
    exact ⟨n + 1, (seqRun_succ n hstep).trans hrun, by simp [executedBy, hterm, hstep, hno, hw]⟩

/-! ### What an instruction does as a whole, and its slot in EX and MEM1 -/

section
variable {i : Instr} {q : Slot} {s t : State} {f : FatalCondition} {a b : Word}

/-- An instruction as a whole changes registers, memory and the pc, and nothing else. -/
theorem wholeOf_frame (h : wholeOf i s = .next t) (hno : t.fault = none) :
    t = { s with rf := t.rf, mem := t.mem, fetchPtr := t.fetchPtr } := by
  cases i with
  | addReg | subReg | store =>
    obtain ⟨_, -, h⟩ := withReg_completes h hno
    obtain ⟨_, -, h⟩ := withReg_completes h hno
    obtain rfl := Host.Outcome.next.inj h
    rfl
  | addLit | subLit =>
    obtain ⟨_, -, h⟩ := withReg_completes h hno
    obtain rfl := Host.Outcome.next.inj h
    rfl
  | load =>
    obtain ⟨_, -, h⟩ := withReg_completes h hno
    obtain ⟨_, -, h⟩ := withCell_completes h hno
    obtain rfl := Host.Outcome.next.inj h
    rfl
  | branchNotZero =>
    obtain ⟨_, -, h⟩ := withReg_completes h hno
    split at h <;> obtain rfl := Host.Outcome.next.inj h <;> rfl

/-- With its operands present an instruction completes, unless it is a LOAD of an absent cell. -/
theorem wholeOf_of_operands (ha : readReg s (readReg1Of i) = some a)
    (hb : ∀ r, readReg2Of i = some r → readReg s r = some b) :
    (∃ t, wholeOf i s = .next t ∧ t.fault = s.fault) ∨
    (i.opcode = .load ∧ ∃ imm, immediateOf i = some imm ∧ readCell s (a + imm) = none ∧
      wholeOf i s = raise (.memoryAbsent (a + imm)) s) := by
  cases i with
  | addReg => exact .inl ⟨_, arithRegister_of_present _ _ ha (hb _ rfl), rfl⟩
  | subReg => exact .inl ⟨_, arithRegister_of_present _ _ ha (hb _ rfl), rfl⟩
  | addLit => exact .inl ⟨_, arithLiteral_of_present _ _ _ ha, rfl⟩
  | subLit => exact .inl ⟨_, arithLiteral_of_present _ _ _ ha, rfl⟩
  | store => exact .inl ⟨_, storeWhole_of_present ha (hb _ rfl), rfl⟩
  | load rt rs imm =>
    cases hv : readCell s (effectiveAddress a imm) with
    | none => exact .inr ⟨rfl, _, rfl, hv, loadWhole_of_absent ha hv⟩
    | some v => exact .inl ⟨_, loadWhole_of_present ha hv, rfl⟩
  | branchNotZero rs imm =>
    by_cases hz : a.toNat = 0
    · exact .inl ⟨_, branchWhole_of_zero imm ha hz, rfl⟩
    · exact .inl ⟨_, branchWhole_of_nonzero imm ha hz, rfl⟩

theorem r95Fwd_of_registers (s : State) (r : RegIdx) :
    r95Fwd s.rf none none none r =
      match readReg s r with
      | some v => .ok v
      | none => .error (.registerAbsent r) := rfl

/-- The slot `q` of `i`, in EX on the registers of `s` and then in MEM1, raises what `i` raises as a whole and else
delivers what `i` does. -/
def SlotFollows (i : Instr) (s : State) (q : Slot) : Prop :=
  (∃ t e, wholeOf i s = .next t ∧ t.fault = none ∧ r95Execute s.rf none none none q = .ok e ∧ Delivers s e t) ∨
  (∃ f, wholeOf i s = raise f s ∧
    (r95Execute s.rf none none none q = .error f ∨
     ∃ e, r95Execute s.rf none none none q = .ok e ∧ r95Memory s.mem (some e) = .error f))

theorem slotFollows_of_operands (hd : decodedFrom i q) (hpc : q.pc = s.fetchPtr) (hno : s.fault = none)
    (ha : readReg s (readReg1Of i) = some a) (hb : ∀ r, readReg2Of i = some r → readReg s r = some b) :
    SlotFollows i s q := by
  rcases wholeOf_of_operands ha hb with ⟨t, ht, hnot⟩ | ⟨hload, imm, himm, hcell, hraise⟩
  · obtain ⟨e, he, hdel⟩ := wholeOf_delivers hd hpc ht (hnot.trans hno)
    exact .inl ⟨t, e, ht, hnot.trans hno, he, hdel⟩
  · have hde : decodedFrom i (r95Alu (latchOperands q a b)) := decodedFrom_r95Alu hd
    have haddr := aluResult_of_adds (a := a) (b := b) hd (.inr (.inl hload))
    rw [himm] at haddr
    exact .inr ⟨_, hraise, .inr ⟨_, r95Execute_of_registers hd ha hb,
      r95Memory_of_absent ((memoryReadEnabled_iff hde).mpr hload) haddr hcell⟩⟩

/-- The stages do what the architectural effect says (R138), fatal conditions included (R154, R155). -/
theorem slotFollows_of_decoded (hd : decodedFrom i q) (hpc : q.pc = s.fetchPtr) (hno : s.fault = none) :
    SlotFollows i s q := by
  obtain ⟨-, hr1, hr2, -⟩ := id hd
  cases ha : readReg s (readReg1Of i) with
  | none =>
    obtain ⟨k, hk⟩ := wholeOf_reads_first i s
    refine .inr ⟨_, hk.trans (withReg_of_absent k ha), .inl ?_⟩
    simp [r95Execute, hr1, r95Fwd_of_registers, ha]
  | some a =>
    cases h2 : readReg2Of i with
    | none => exact slotFollows_of_operands (b := 0) hd hpc hno ha (by simp [h2])
    | some r =>
      cases hb : readReg s r with
      | some b =>
        exact slotFollows_of_operands hd hpc hno ha fun r' hr' => Option.some.inj (h2.symm.trans hr') ▸ hb
      | none =>
        obtain ⟨k, hk⟩ := wholeOf_reads_second h2 s
        refine .inr ⟨.registerAbsent r, ?_, .inl ?_⟩
        · rw [hk, withReg_of_present _ ha]
          exact withReg_of_absent (k a) hb
        · simp [r95Execute, hr1, hr2, h2, r95Fwd_of_registers, ha, hb]

end

end Sys2Proof.Proofs

open Sys2Proof Sys2Proof.Machine Sys2Proof.Proofs

/-- Settles O21: the image gives the word and the decoder its instruction. -/
theorem sequentialStepRunsTheDecodedInstruction : Obligations.SequentialStepRunsTheDecodedInstruction := by
  unfold Obligations.SequentialStepRunsTheDecodedInstruction
  intro s w i hrun hw hi
  exact seqStep_of_word hrun hw hi

end

section
/-! Forwarding reads what will be written back (41_hazard_forwarding R105 to R109): the operands of a slot that executes
are those in the register file with the write-backs of the slots ahead of it done. -/

namespace Sys2Proof.Proofs

open Sys2Proof Sys2Proof.Machine Sys2Proof.Laws

section
variable {img : List InstrWord} {p m1 m2 m3 : Option Slot} {q e : Slot} {r : RegIdx} {st : ScanStage}
  {rf : RegFile} {mem mem' : Memory}

/-- The slot's `pc` and word. -/
def idOf (p : Option Slot) : Option (Word × InstrWord) := p.map fun q => (q.pc, q.instr)

/-! ### The slot that leaves MEM1 -/

/-- The MEM1 phase fills at most the memory datum, and that of a slot that reads. -/
theorem r95Access_slot {q' : Slot} (h : r95Access mem q = .ok (q', mem')) :
    (q.memoryReadEnabled = false ∧ q' = q) ∨ ∃ v, q' = { q with memoryDatum := some v } := by
  cases hen : q.memoryReadEnabled with
  | false =>
    simp only [r95Access, hen, Bool.false_eq_true, if_false] at h
    obtain ⟨rfl, -⟩ := Prod.mk.inj (Except.ok.inj h)
    exact .inl ⟨rfl, rfl⟩
  | true =>
    simp only [r95Access, hen, if_true] at h
    generalize mapGet mem _ = cell at h
    cases cell with
    | none => simp at h
    | some v =>
      obtain ⟨rfl, -⟩ := Prod.mk.inj (Except.ok.inj h)
      exact .inr ⟨v, rfl⟩

theorem r95Memory_slot (h : r95Memory mem p = .ok (m1, mem')) :
    (p = none ∧ m1 = none ∧ mem' = mem) ∨
    (∃ q q', p = some q ∧ m1 = some q' ∧
      ((q.memoryReadEnabled = false ∧ q' = q) ∨ ∃ v, q' = { q with memoryDatum := some v })) := by
  unfold r95Memory at h
  split at h
  · obtain ⟨rfl, rfl⟩ := Prod.mk.inj (Except.ok.inj h)
    exact .inl ⟨rfl, rfl, rfl⟩
  · next q =>
    split at h
    · simp at h
    · next hacc =>
      obtain ⟨rfl, rfl⟩ := Prod.mk.inj (Except.ok.inj h)
      exact .inr ⟨q, _, rfl, rfl, r95Access_slot hacc⟩

/-- R39(f) of the slot that leaves MEM1. -/
theorem accessed_of_r95Memory (hp : p.all (asExecuted img) = true) (h : r95Memory mem p = .ok (m1, mem')) :
    m1.all (asAccessed img) = true := by
  rcases r95Memory_slot h with ⟨-, rfl, -⟩ | ⟨q, q', rfl, rfl, hacc⟩
  · rfl
  · exact asAccessed_of_access (by simpa using hp) hacc

theorem loadFeeds_of_r95Memory (h : r95Memory mem p = .ok (m1, mem')) : loadFeeds m1 q = loadFeeds p q := by
  rcases r95Memory_slot h with ⟨rfl, rfl, -⟩ | ⟨_, _, rfl, rfl, ⟨-, rfl⟩ | ⟨_, rfl⟩⟩ <;> rfl

/-- The slot that leaves MEM1 is of the instruction that entered it. -/
theorem idOf_of_r95Memory (h : r95Memory mem p = .ok (m1, mem')) : idOf m1 = idOf p := by
  rcases r95Memory_slot h with ⟨rfl, rfl, -⟩ | ⟨_, _, rfl, rfl, ⟨-, rfl⟩ | ⟨_, rfl⟩⟩ <;> rfl

/-! ### One input of the forwarding mux -/

/-- A decoded slot qualifies for the register it writes, but for a LOAD in MEM1 (R106). -/
theorem qualifies_eq_writes (h : asExecuted img q = true)
    (hload : st = .mem1 → q.opcode = some .load → q.writeReg ≠ some r) :
    qualifies q st r = (q.registerWriteEnabled && q.writeReg == some r) := by
  obtain ⟨i, -, hd, -⟩ := asExecuted_iff.mp h
  have hen := registerWriteEnabled_of_decoded hd
  obtain ⟨hop, -, -, hwr, -⟩ := hd
  rw [qualifies, hen, hwr, hop]
  rw [hop, hwr] at hload
  cases i with
  | store | branchNotZero => rfl
  | addReg | addLit | subReg | subLit => simp [Instr.opcode, Instr.toRecord, ready]
  | load rt rs imm =>
    cases st with
    | mem2 | mem3 => simp [Instr.opcode, Instr.toRecord, ready]
    | mem1 =>
      have hne : writeRegOf (.load rt rs imm) ≠ some r := hload rfl rfl
      simp [Instr.opcode, Instr.toRecord, ready, hne]

/-- The value a producer forwards is the one it will write back. -/
theorem producedValue_eq_resultOf (h : asExecuted img q = true) : producedValue q = resultOf q := by
  obtain ⟨i, -, hd, -⟩ := asExecuted_iff.mp h
  rw [resultOf_of_decoded hd]
  obtain ⟨hop, -⟩ := hd
  rw [producedValue, hop]
  cases i <;> rfl

/-- The register after the write-back of `p` is what the mux takes from `p`, or else what it was. -/
theorem mapGet_r95WriteBack (hp : p.all (asAccessed img) = true)
    (hload : st = .mem1 → ∀ q, p = some q → q.opcode = some .load → q.writeReg ≠ some r) :
    mapGet (r95WriteBack rf p) r.toNat =
      if p.any (qualifies · st r) then some ((p.bind producedValue).getD 0) else mapGet rf r.toNat := by
  cases p with
  | none => rfl
  | some q =>
    have hacc : asAccessed img q = true := by simpa using hp
    have hexe := asExecuted_of_asAccessed hacc
    rw [Option.any_some, qualifies_eq_writes hexe fun hst => hload hst q rfl, Option.bind_some,
      producedValue_eq_resultOf hexe]
    cases hen : q.registerWriteEnabled with
    | false => simp [r95WriteBack, hen]
    | true =>
      obtain ⟨⟨r', hr'⟩, v, hv⟩ := writeback_ready hacc hen
      rw [r95WriteBack_of_result hen hr' hv, hr', hv]
      by_cases hr : r' = r
      · subst hr
        simp [mapGet_mapSet_self]
      · have hne : r.toNat ≠ r'.toNat := fun heq => hr (BitVec.eq_of_toNat_eq heq.symm)
        simp [mapGet_mapSet_of_ne _ _ hne, hr]

/-! ### The operands of a slot in EX -/

/-- The register file with the write-backs of the slots in MEM3, MEM2 and MEM1 done, in program order. -/
def settledRegs (rf : RegFile) (m1 m2 m3 : Option Slot) : RegFile :=
  r95WriteBack (r95WriteBack (r95WriteBack rf m3) m2) m1

theorem r95Fwd_settled (h1 : m1.all (asAccessed img) = true) (h2 : m2.all (asAccessed img) = true)
    (h3 : m3.all (asAccessed img) = true)
    (hload : ∀ q, m1 = some q → q.opcode = some .load → q.writeReg ≠ some r) :
    r95Fwd rf m1 m2 m3 r = r95Fwd (settledRegs rf m1 m2 m3) none none none r := by
  have settled : mapGet (settledRegs rf m1 m2 m3) r.toNat = _ :=
    mapGet_r95WriteBack (st := .mem1) h1 fun _ => hload
  rw [mapGet_r95WriteBack (st := .mem2) h2 (by simp), mapGet_r95WriteBack (st := .mem3) h3 (by simp)] at settled
  simp only [r95Fwd, settled, Option.any_none, Bool.false_eq_true, if_false]
  split
  · rfl
  · split
    · rfl
    · split <;> rfl

theorem r95Execute_congr {rf' : RegFile} {m1' m2' m3' : Option Slot}
    (h : ∀ r, reads q r = true → r95Fwd rf m1 m2 m3 r = r95Fwd rf' m1' m2' m3' r) (h1 : q.readReg1.isSome = true) :
    r95Execute rf m1 m2 m3 q = r95Execute rf' m1' m2' m3' q := by
  obtain ⟨r1, hr1⟩ := Option.isSome_iff_exists.mp h1
  simp only [r95Execute, hr1, Option.getD_some, h r1 (reads_iff.mpr (.inl hr1))]
  cases hr2 : q.readReg2 with
  | none => rfl
  | some r2 => simp only [h r2 (reads_iff.mpr (.inr hr2))]

/-- A slot that no LOAD in MEM1 feeds executes on the registers as they will be when the slots ahead have retired. -/
theorem r95Execute_settled (hq : asDecoded img q = true) (h1 : m1.all (asAccessed img) = true)
    (h2 : m2.all (asAccessed img) = true) (h3 : m3.all (asAccessed img) = true) (hfeeds : loadFeeds m1 q = false) :
    r95Execute rf m1 m2 m3 q = r95Execute (settledRegs rf m1 m2 m3) none none none q := by
  obtain ⟨i, -, ⟨-, hr1, -⟩, -⟩ := asDecoded_iff.mp hq
  refine r95Execute_congr (fun r hr => r95Fwd_settled h1 h2 h3 fun l hl hop hwr => ?_) (by simp [hr1])
  exact absurd (loadFeeds_iff.mpr ⟨l, r, hl, hop, hwr, reads_iff.mp hr⟩) (by simp [hfeeds])

/-- Executing fills operands and results. -/
theorem r95Execute_frame (h : r95Execute rf m1 m2 m3 q = .ok e) :
    e = { q with opVal1 := e.opVal1, opVal2 := e.opVal2, aluResult := e.aluResult, isZero := e.isZero } := by
  unfold r95Execute at h
  split at h
  · simp at h
  · split at h
    · obtain rfl := Except.ok.inj h
      rw [r95Alu_frame]
    · split at h
      · simp at h
      · obtain rfl := Except.ok.inj h
        rw [r95Alu_frame]

end

end Sys2Proof.Proofs
end

section
/-! The pipeline follows the sequential level (70_reset_and_hazards R186). The two are compared at the MEM1 phase: the
sequential level has executed the slots past it, whose write-backs are to come, and its pc is at the oldest slot before
it. A cycle takes the sequential level one instruction on when a slot passes MEM1, and leaves it otherwise. -/

namespace Sys2Proof.Proofs

open Sys2Proof Sys2Proof.Machine Sys2Proof.Laws

/-! ### Program order in the front of the pipeline -/

/-- The slot's `pc`. -/
def pcOf (p : Option Slot) : Option Word := p.map (·.pc)

/-- The present entries of the list are `p`, `p + 1` and so on, and the next is `ptr`. -/
def InOrder (ptr : Word) : Word → List (Option Word) → Prop
  | p, [] => ptr = p
  | p, none :: rest => InOrder ptr p rest
  | p, some pc :: rest => pc = p ∧ InOrder ptr (p + 1) rest

theorem InOrder.append_none {ptr p : Word} {l : List (Option Word)} (h : InOrder ptr p l) :
    InOrder ptr p (l ++ [none]) := by
  induction l generalizing p with
  | nil => exact h
  | cons x rest ih =>
    cases x with
    | none => exact ih (p := p) h
    | some pc => exact ⟨h.1, ih h.2⟩

theorem InOrder.append_ptr {ptr p : Word} {l : List (Option Word)} (h : InOrder ptr p l) :
    InOrder (ptr + 1) p (l ++ [some ptr]) := by
  induction l generalizing p with
  | nil => exact ⟨h, congrArg (· + 1) h⟩
  | cons x rest ih =>
    cases x with
    | none => exact ih (p := p) h
    | some pc => exact ⟨h.1, ih h.2⟩

/-- The pc after the slot `e` in EX, when the pc before it is `p`. -/
def pcAfter (e : Option Slot) (p : Word) : Word :=
  match e with
  | none => p
  | some q => fetchTarget (some q) (p + 1)

theorem fetchTarget_of_taken {e : Option Slot} (p p' : Word) (h : e.any takenBranch = true) :
    fetchTarget e p = fetchTarget e p' := by
  simp [fetchTarget, h]

theorem fetchTarget_of_notTaken {e : Option Slot} (p : Word) (h : e.any takenBranch = false) :
    fetchTarget e p = p := by
  simp [fetchTarget, h]

/-- When the slot of ID moves to EX, what stands behind it follows it, or is squashed and the fetch follows it. -/
theorem InOrder.resolve {ptr p : Word} {d e f2 f1 : Option Slot} (h : InOrder ptr p [pcOf d, pcOf f2, pcOf f1])
    (he : pcOf e = pcOf d) :
    InOrder (fetchTarget e ptr) (pcAfter e p)
      [if e.any takenBranch then none else pcOf f2, if e.any takenBranch then none else pcOf f1] := by
  cases e with
  | none =>
    rw [← he] at h
    exact h
  | some q =>
    cases ht : (some q).any takenBranch with
    | true => exact fetchTarget_of_taken ptr (p + 1) ht
    | false =>
      rw [← he] at h
      simpa [pcAfter, fetchTarget_of_notTaken _ ht] using h.2

/-! ### The relation -/

/-- The sequential level is between two instructions, with these registers and this memory. -/
structure SeqAt (img : List InstrWord) (rf : RegFile) (mem : Memory) (x : State) : Prop where
  atRest : x.phase = .atRest
  noFault : x.fault = none
  unfinished : x.finished = false
  img : x.img = img
  rf : x.rf = rf
  mem : x.mem = mem

/-- `q` is the decoded slot of the instruction at the pc of the sequential level `x`. -/
structure AtPc (x : State) (i : Instr) (q : Slot) : Prop where
  legal : decode q.instr = .ok i
  decoded : decodedFrom i q
  pc : q.pc = x.fetchPtr
  word : imageAt x q.pc = some q.instr

/-- `e` is the slot of the instruction at the pc of the sequential level `x`, executed on the registers of `x`. -/
def ExecutedOn (x : State) (e : Slot) : Prop :=
  ∃ i q, AtPc x i q ∧ r95Execute x.rf none none none q = .ok e

/-- Between two cycles the sequential level `x` has executed the slots in MEM1 to MEM3 of `s` and no other. -/
structure Tracks (s x : State) : Prop where
  level : SeqAt s.img (settledRegs s.rf s.lat.mem1 s.lat.mem2 s.lat.mem3) s.mem x
  executing : ∀ e, s.lat.ex = some e → ExecutedOn x e
  order : InOrder s.fetchPtr (pcAfter s.lat.ex x.fetchPtr) [pcOf s.lat.id, pcOf s.lat.if2, pcOf s.lat.if1]
  atEnd : s.eop = true → imageAt s s.fetchPtr = none

/-- In the cycle that begins in `s`, after the MEM1 phase, the sequential level `x` has executed the slot `m1` in MEM1
too. -/
structure Passed (s : State) (m1 : Option Slot) (mem' : Memory) (x : State) : Prop where
  level : SeqAt s.img (settledRegs (r95WriteBack s.rf s.lat.mem3) m1 s.lat.mem1 s.lat.mem2) mem' x
  order : InOrder s.fetchPtr x.fetchPtr [pcOf s.lat.id, pcOf s.lat.if2, pcOf s.lat.if1]

section
variable {img : List InstrWord} {rf : RegFile} {mem mem' : Memory} {s t x y : State} {m1 p d : Option Slot} {q e : Slot}
  {i : Instr} {w : InstrWord} {f : FatalCondition}

theorem SeqAt.running (h : SeqAt img rf mem x) : terminal x = false := by
  simp [terminal, h.noFault, h.unfinished]

theorem toInt_nonneg_of_lt {p : BitVec 32} (h : p.toNat < 2 ^ 31) : 0 ≤ p.toInt := by
  rw [BitVec.toInt_eq_toNat_of_lt] <;> omega

/-- Every slot past the fetch is of a legal word of the image (R39(c)). -/
theorem asDecoded_imageAt (himg : imageWellFormed x.img = true) (h : asDecoded x.img q = true) :
    ∃ i, decode q.instr = .ok i ∧ decodedFrom i q ∧ imageAt x q.pc = some q.instr := by
  obtain ⟨i, hi, hd, hw⟩ := asDecoded_iff.mp h
  obtain ⟨hinside, -⟩ := List.getElem?_eq_some_iff.mp hw
  have hlimit : x.img.length < 2 ^ 31 := of_decide_eq_true himg
  exact ⟨i, hi, hd, imageAt_eq_some_iff.mpr ⟨toInt_nonneg_of_lt (hinside.trans hlimit), hw⟩⟩

/-- The sequential level does as a whole what the slot at its pc does in the stages. -/
theorem SeqAt.seqStep_eq_whole (h : SeqAt img rf mem x) {i : Instr} (hq : AtPc x i q) : seqStep x = wholeOf i x := by
  rw [seqStep_of_word h.running (hq.pc ▸ hq.word) hq.legal, exec_atRest rfl, ← h.atRest]

theorem AtPc.follows (hq : AtPc x i q) (h : SeqAt img rf mem x) : SlotFollows i x q :=
  slotFollows_of_decoded hq.decoded hq.pc h.noFault

/-! ### The slot in EX passes MEM1 -/

theorem ExecutedOn.decoded (h : ExecutedOn x e) : ∃ i, decodedFrom i e := by
  obtain ⟨i, q, hq, hex⟩ := h
  rw [r95Execute_frame hex]
  exact ⟨i, hq.decoded⟩

theorem ExecutedOn.atPc (h : ExecutedOn x e) : e.pc = x.fetchPtr ∧ imageAt x e.pc = some e.instr := by
  obtain ⟨i, q, hq, hex⟩ := h
  rw [r95Execute_frame hex]
  exact ⟨hq.pc, hq.word⟩

/-- The sequential level delivers what the slot in EX will, or raises what it will raise in MEM1. -/
theorem SeqAt.follows_executed (h : SeqAt img rf mem x) (he : ExecutedOn x e) :
    (∃ y, Advances x (some (e.pc, e.instr)) y ∧ Delivers x e y ∧ SeqAt img y.rf y.mem y) ∨
    (∃ f, seqStep x = raise f x ∧ r95Memory x.mem (some e) = .error f) := by
  obtain ⟨hpc, hw⟩ := he.atPc
  obtain ⟨i, q, hq, hex⟩ := he
  have hstep := h.seqStep_eq_whole hq
  rcases hq.follows h with ⟨y, e', hy, hno, he', hdel⟩ | ⟨f, hraise, hf | ⟨e', he', hf⟩⟩
  · obtain rfl : e = e' := Except.ok.inj (hex.symm.trans he')
    refine .inl ⟨y, ⟨h.running, hpc.symm, hw, hstep.trans hy, hno⟩, hdel, ?_⟩
    have hframe := wholeOf_frame hy hno
    exact ⟨by rw [hframe]; exact h.atRest, hno, by rw [hframe]; exact h.unfinished, by rw [hframe]; exact h.img, rfl,
      rfl⟩
  · simp [hex] at hf
  · obtain rfl : e = e' := Except.ok.inj (hex.symm.trans he')
    exact .inr ⟨f, hstep.trans hraise, hf⟩

theorem Tracks.passes (h : Tracks s x) (hm : r95Memory s.mem s.lat.ex = .ok (m1, mem')) :
    ∃ y, Advances x (idOf s.lat.ex) y ∧ Passed s m1 mem' y := by
  have hregs : x.rf = settledRegs s.rf s.lat.mem1 s.lat.mem2 s.lat.mem3 := h.level.rf
  have horder := h.order
  cases hex : s.lat.ex with
  | none =>
    rw [hex] at hm horder
    obtain ⟨rfl, rfl⟩ := Prod.mk.inj (Except.ok.inj hm)
    exact ⟨x, rfl, { h.level with }, horder⟩
  | some e =>
    rw [hex] at horder
    rw [hex, ← h.level.mem] at hm
    rcases h.level.follows_executed (h.executing e hex) with ⟨y, hadv, ⟨htarget, m, hmem, hwb⟩, hy⟩ | ⟨f, -, hf⟩
    · obtain ⟨rfl, rfl⟩ := Prod.mk.inj (Except.ok.inj (hm.symm.trans hmem))
      rw [hregs] at hwb
      exact ⟨y, hadv, { hy with rf := hwb.symm }, htarget ▸ horder⟩
    · simp [hm] at hf

theorem Tracks.raises_memory (h : Tracks s x) (hm : r95Memory s.mem s.lat.ex = .error f) :
    seqStep x = raise f x := by
  cases hex : s.lat.ex with
  | none => simp [hex, r95Memory] at hm
  | some e =>
    rw [hex, ← h.level.mem] at hm
    rcases h.level.follows_executed (h.executing e hex) with ⟨y, -, ⟨-, m, hmem, -⟩, -⟩ | ⟨f', hraise, hf'⟩
    · simp [hm] at hmem
    · obtain rfl : f' = f := Except.error.inj (hf'.symm.trans hm)
      exact hraise

/-! ### The slot in ID executes -/

/-- A slot that leaves ID executes on the registers of the sequential level, at its pc. -/
theorem Passed.executes (h : Passed s m1 mem' x) (hinv : Inv s) (hm : r95Memory s.mem s.lat.ex = .ok (m1, mem'))
    (hgo : stalled s = false) (hq : s.lat.id = some q) :
    (∃ i, AtPc x i q) ∧
    r95Execute (r95WriteBack s.rf s.lat.mem3) m1 s.lat.mem1 s.lat.mem2 q = r95Execute x.rf none none none q := by
  have hdec : asDecoded s.img q = true := asDecoded_of_inDecode (by simpa [hq] using hinv.decodedId)
  have hfeeds : loadFeeds m1 q = false := by
    have hgo' : q.stallPending = false := by simpa [stalled, hq] using hgo
    rw [loadFeeds_of_r95Memory hm]
    simpa [hq, hgo'] using hinv.stallSound
  have hpc : q.pc = x.fetchPtr := by
    have horder := h.order
    rw [hq] at horder
    exact horder.1
  have himg := h.level.img
  obtain ⟨i, hi, hd, hw⟩ := asDecoded_imageAt (x := x) (himg ▸ hinv.imageLimit) (himg ▸ hdec)
  refine ⟨⟨i, hi, hd, hpc, hw⟩, ?_⟩
  rw [h.level.rf]
  exact r95Execute_settled hdec (accessed_of_r95Memory hinv.executedEx hm) hinv.accessed1 hinv.accessed2 hfeeds

theorem Passed.raises_execute (h : Passed s m1 mem' x) (hinv : Inv s)
    (hm : r95Memory s.mem s.lat.ex = .ok (m1, mem')) (hgo : stalled s = false)
    (he : overSlot s.lat.id (r95Execute (r95WriteBack s.rf s.lat.mem3) m1 s.lat.mem1 s.lat.mem2) = .error f) :
    seqStep x = raise f x := by
  obtain ⟨q, hid, hf⟩ := overSlot_error he
  obtain ⟨⟨i, hq⟩, hex⟩ := h.executes hinv hm hgo hid
  rw [hex] at hf
  rw [h.level.seqStep_eq_whole hq]
  rcases hq.follows h.level with ⟨_, _, -, -, he', -⟩ | ⟨f', hraise, hf' | ⟨_, he', -⟩⟩
  · simp [hf] at he'
  · obtain rfl : f' = f := Except.error.inj (hf'.symm.trans hf)
    exact hraise
  · simp [hf] at he'

/-- The slot that the EX phase leaves in EX. -/
theorem Passed.executedOn (h : Passed s m1 mem' x) (hinv : Inv s) (hr : Reaches s m1 mem' p d) :
    pcOf p = pcOf s.lat.id ∧ ∀ e, p = some e → ExecutedOn x e := by
  rcases overSlot_ok hr.executed with ⟨hid, rfl⟩ | ⟨q, e, hid, rfl, he⟩
  · exact ⟨by rw [hid], fun _ hp => by simp at hp⟩
  · obtain ⟨⟨i, hq⟩, hex⟩ := h.executes hinv hr.memory hr.going hid
    have hpc : e.pc = q.pc := by rw [r95Execute_frame he]
    refine ⟨by simp [pcOf, hid, hpc], fun e' hp => ?_⟩
    obtain rfl : e = e' := Option.some.inj hp
    exact ⟨i, q, hq, hex.symm.trans he⟩

theorem pcOf_of_r95Decode {m : Option Slot} (h : overSlot p (r95Decode m1 m) = .ok d) : pcOf d = pcOf p := by
  rcases overSlot_ok h with ⟨rfl, rfl⟩ | ⟨q, q', rfl, rfl, hq'⟩
  · rfl
  · unfold r95Decode at hq'
    split at hq'
    · simp at hq'
    · obtain rfl := Except.ok.inj hq'
      rfl

/-- What stands behind the slot in EX at the end of a cycle that does not stall. -/
theorem Passed.order_moved (h : Passed s m1 mem' x) (hinv : Inv s) (hr : Reaches s m1 mem' p d) :
    InOrder (fetchTarget p s.fetchPtr) (pcAfter p x.fetchPtr)
      [pcOf (if p.any takenBranch then none else d), pcOf (if p.any takenBranch then none else s.lat.if1)] := by
  obtain ⟨hpc, -⟩ := h.executedOn hinv hr
  have hmoved := h.order.resolve hpc
  rw [← pcOf_of_r95Decode hr.decoded] at hmoved
  simpa only [pcOf, apply_ite (Option.map _), Option.map_none] using hmoved

/-! ### A whole cycle -/

theorem Passed.tracks_stall (h : Passed s m1 mem' x) (hatEnd : s.eop = true → imageAt s s.fetchPtr = none)
    (report : List ReportEntry) : Tracks (r95End (afterBack s mem') (heldLatches s m1) report) x where
  level := h.level
  executing := fun _ he => by simp [r95End, heldLatches] at he
  order := by
    have hid : pcOf (s.lat.id.map fun q => { q with stallPending := false }) = pcOf s.lat.id := by
      simp [pcOf, Function.comp_def]
    have horder := h.order
    rw [← hid] at horder
    exact horder
  atEnd := hatEnd

theorem Passed.tracks_fetched (h : Passed s m1 mem' x) (hinv : Inv s) (hr : Reaches s m1 mem' p d)
    (report : List ReportEntry) :
    Tracks (r95End
      { afterBack s mem' with fetchPtr := fetchTarget p s.fetchPtr + 1, seqNext := s.seqNext + 1, eop := false }
      (movedLatches s (some (newSlot w (fetchTarget p s.fetchPtr) s.seqNext)) d p m1) report) x where
  level := h.level
  executing := (h.executedOn hinv hr).2
  order := (h.order_moved hinv hr).append_ptr
  atEnd := nofun

theorem Passed.tracks_pastEnd (h : Passed s m1 mem' x) (hinv : Inv s) (hr : Reaches s m1 mem' p d)
    (hw : imageAt s (fetchTarget p s.fetchPtr) = none) (report : List ReportEntry) :
    Tracks (r95End { afterBack s mem' with fetchPtr := fetchTarget p s.fetchPtr, eop := true }
      (movedLatches s none d p m1) report) x where
  level := h.level
  executing := (h.executedOn hinv hr).2
  order := (h.order_moved hinv hr).append_none
  atEnd := fun _ => hw

/-- A cycle that comes to its end takes the sequential level past the slot in EX. -/
theorem Tracks.completes (h : Tracks s x) (hinv : Inv s) (hc : Completes s t) :
    ∃ y, Advances x (idOf s.lat.ex) y ∧ Tracks t y := by
  cases hc with
  | stall hm hs =>
    obtain ⟨y, hadv, hpassed⟩ := h.passes hm
    exact ⟨y, hadv, hpassed.tracks_stall h.atEnd _⟩
  | fetched hr hw =>
    obtain ⟨y, hadv, hpassed⟩ := h.passes hr.memory
    exact ⟨y, hadv, hpassed.tracks_fetched hinv hr _⟩
  | pastEnd hr hw =>
    obtain ⟨y, hadv, hpassed⟩ := h.passes hr.memory
    exact ⟨y, hadv, hpassed.tracks_pastEnd hinv hr hw _⟩

/-- The sequential level comes to the fatal condition `f`. -/
def SeqFaults (x : State) (f : FatalCondition) : Prop := ∃ n u, seqRun n x = .next u ∧ u.fault = some f

theorem SeqFaults.of_seqStep (h : seqStep x = raise f x) : SeqFaults x f :=
  ⟨1, { x with fault := some f }, by simp [seqRun, h, raise], rfl⟩

theorem SeqFaults.of_advances {done : Option (Word × InstrWord)} (h : SeqFaults y f) (hadv : Advances x done y) :
    SeqFaults x f := by
  obtain ⟨n, u, hrun, hf⟩ := h
  obtain ⟨m, hrun', -⟩ := hadv.then_run hrun
  exact ⟨m, u, hrun', hf⟩

theorem decodes_of_allLegal (hlegal : allLegal s.img = true) {p : Nat} (hw : s.img[p]? = some w) :
    ∃ i, decode w = .ok i := by
  have hmem := List.all_eq_true.mp hlegal w (List.mem_of_getElem? hw)
  split at hmem
  · next i hi => exact ⟨i, hi⟩
  · simp at hmem

/-- A taken branch executes at the sequential level and leaves its pc at the target. -/
theorem Passed.faults_outOfRange (h : Passed s m1 mem' x) (hinv : Inv s) (hno : s.fault = none)
    (hr : Reaches s m1 mem' p d) (hneg : (fetchTarget p s.fetchPtr).toInt < 0) :
    SeqFaults x (.fetchOutOfRange (fetchTarget p s.fetchPtr)) := by
  have htaken : p.any takenBranch = true := by
    by_contra hnot
    rw [fetchTarget_of_notTaken _ (by simpa using hnot)] at hneg
    exact absurd (hinv.pointer hno) (not_le.mpr hneg)
  obtain ⟨e, rfl⟩ := Option.isSome_iff_exists.mp (Option.isSome_of_any htaken)
  obtain ⟨-, hex⟩ := h.executedOn hinv hr
  have he : ExecutedOn x e := hex e rfl
  rcases h.level.follows_executed he with ⟨y, hadv, ⟨htarget, -⟩, hy⟩ | ⟨f, -, hf⟩
  · rw [fetchTarget_of_taken _ s.fetchPtr (by simpa using htaken)] at htarget
    rw [htarget] at hneg ⊢
    exact (SeqFaults.of_seqStep (seqStep_of_negative hy.running hneg)).of_advances hadv
  · obtain ⟨i, hd⟩ := he.decoded
    have hbranch : i.opcode = .branchNotZero := by
      by_contra hne
      simp [takenBranch_eq_false hd hne] at htaken
    simp [r95Memory_of_passing hd (by simp [hbranch] : i.opcode ≠ .load) (by simp [hbranch] : i.opcode ≠ .store)] at hf

/-- A cycle that raises raises what the sequential level comes to, where every word is legal. -/
theorem Tracks.raises (h : Tracks s x) (hinv : Inv s) (hno : s.fault = none) (hlegal : allLegal s.img = true)
    (hc : Raises s f) : SeqFaults x f := by
  cases hc with
  | memory hm => exact .of_seqStep (h.raises_memory hm)
  | execute hm hgo he =>
    obtain ⟨y, hadv, hpassed⟩ := h.passes hm
    exact (SeqFaults.of_seqStep (hpassed.raises_execute hinv hm hgo he)).of_advances hadv
  | decode hd =>
    obtain ⟨q, hq, hf⟩ := overSlot_error hd
    obtain ⟨-, hw⟩ := asFetched_iff.mp (by simpa [hq] using hinv.fetched2 : asFetched s.img q = true)
    obtain ⟨i, hi⟩ := decodes_of_allLegal hlegal hw
    simp [r95Decode, hi] at hf
  | outOfRange hr hneg =>
    obtain ⟨y, hadv, hpassed⟩ := h.passes hr.memory
    exact (hpassed.faults_outOfRange hinv hno hr hneg).of_advances hadv

end

end Sys2Proof.Proofs
end

section
/-! The two levels along a run (70_reset_and_hazards R186): a run that completes retires what the sequential level
executes and leaves what it leaves, and a run comes to a fatal condition exactly when the sequential level does. -/

namespace Sys2Proof.Proofs

open Sys2Proof Sys2Proof.Machine Sys2Proof.Laws

section
variable {s t x : State} {f : FatalCondition} {k : Nat}

/-! ### Runs of clock cycles -/

theorem runFor_succ (k : Nat) (h : step s = .next t) : runFor (k + 1) s = runFor k t := by
  simp [runFor, h]

theorem terminal_of_fault (h : s.fault = some f) : terminal s = true := by
  simp [terminal, h]

theorem terminal_of_finished (h : s.finished = true) : terminal s = true := by
  simp [terminal, h]

/-- After a fatal condition a run stays where it is. -/
theorem fault_of_runFor (h : runFor k s = .next t) (hf : s.fault = some f) : t.fault = some f := by
  rw [runFor_of_terminal (terminal_of_fault hf) k] at h
  exact Host.Outcome.next.inj h ▸ hf

theorem noFault_of_runFor (h : runFor k s = .next t) (hno : t.fault = none) : s.fault = none :=
  Option.eq_none_iff_forall_ne_some.mpr fun _ hf => by simp [fault_of_runFor h hf] at hno

/-! ### The end of the program -/

/-- Nothing is left to execute: no slot stands before MEM1 and none is to be fetched. -/
structure Exhausted (s : State) : Prop where
  if1 : s.lat.if1 = none
  if2 : s.lat.if2 = none
  id : s.lat.id = none
  ex : s.lat.ex = none
  pastEnd : imageAt s s.fetchPtr = none

/-- The sequential level finds the end of the program too. -/
theorem Tracks.seqStep_of_exhausted (h : Tracks s x) (hinv : Inv s) (hno : s.fault = none) (hex : Exhausted s) :
    seqStep x = .next { x with eop := true, finished := true } ∧ imageAt x x.fetchPtr = none := by
  have hptr : s.fetchPtr = x.fetchPtr := by
    have horder := h.order
    rw [hex.if1, hex.if2, hex.id, hex.ex] at horder
    exact horder
  have hend : imageAt x x.fetchPtr = none := by
    have hpast := hex.pastEnd
    rw [hptr, imageAt, ← h.level.img] at hpast
    exact hpast
  exact ⟨seqStep_of_pastEnd h.level.running (hptr ▸ hinv.pointer hno) hend, hend⟩

theorem Tracks.exhausted_of_finished (h : Tracks s x) (hinv : Inv s) (hfin : s.finished = true) : Exhausted s := by
  obtain ⟨hlat, heop⟩ := hinv.finishedEmpty hfin
  exact ⟨by rw [hlat]; rfl, by rw [hlat]; rfl, by rw [hlat]; rfl, by rw [hlat]; rfl, h.atEnd heop⟩

/-! ### The run that completes -/

/-- The slots past MEM1, in the order in which they will retire. -/
def inFlight (s : State) : List (Word × InstrWord) :=
  (idOf s.lat.mem3).toList ++ (idOf s.lat.mem2).toList ++ (idOf s.lat.mem1).toList

/-- A cycle retires the slot in MEM3, and the slot in EX joins those past MEM1. -/
theorem Completes.inFlight_append (h : Completes s t) :
    inFlight s ++ (idOf s.lat.ex).toList = (idOf s.lat.mem3).toList ++ inFlight t := by
  cases h with
  | stall hm hs =>
    rw [← idOf_of_r95Memory hm]
    simp [inFlight, r95End, heldLatches, idOf]
  | fetched hr hw | pastEnd hr hw =>
    rw [← idOf_of_r95Memory hr.memory]
    simp [inFlight, r95End, movedLatches, idOf]

theorem retiredBy_succ (hrun : terminal s = false) (h : step s = .next t) (hno : t.fault = none) (k : Nat) :
    retiredBy (k + 1) s = (idOf s.lat.mem3).toList ++ retiredBy k t := by
  simp [retiredBy, hrun, h, hno, idOf]

theorem retiredBy_of_terminal (h : terminal s = true) (k : Nat) : retiredBy k s = [] := by
  cases k <;> simp [retiredBy, h]

/-- The sequential level `x` comes to its end with the registers and the memory of `t` and executes `l`. -/
def SeqEnds (x t : State) (l : List (Word × InstrWord)) : Prop :=
  ∃ n u, seqRun n x = .next u ∧ completed u = true ∧ u.rf = t.rf ∧ u.mem = t.mem ∧ executedBy n x = l

theorem SeqEnds.of_advances {y : State} {done : Option (Word × InstrWord)} {l : List (Word × InstrWord)}
    (h : SeqEnds y t l) (hadv : Advances x done y) : SeqEnds x t (done.toList ++ l) := by
  obtain ⟨n, u, hrun, hdone, hrf, hmem, hl⟩ := h
  obtain ⟨m, hrun', hexe⟩ := hadv.then_run hrun
  exact ⟨m, u, hrun', hdone, hrf, hmem, hl ▸ hexe⟩

/-- With the engine finished the sequential level ends in one step, and nothing is in flight. -/
theorem Tracks.seqEnds_of_finished (h : Tracks s x) (hinv : Inv s) (hfin : s.finished = true) (hno : s.fault = none) :
    SeqEnds x s [] ∧ inFlight s = [] := by
  obtain ⟨hstep, hend⟩ := h.seqStep_of_exhausted hinv hno (h.exhausted_of_finished hinv hfin)
  obtain ⟨hlat, -⟩ := hinv.finishedEmpty hfin
  have hrf := h.level.rf
  rw [hlat] at hrf
  refine ⟨⟨1, _, seqRun_succ 0 hstep, by simp [completed, h.level.noFault], hrf, h.level.mem, ?_⟩, ?_⟩
  · simp [executedBy, h.level.running, hstep, hend]
  · simp [inFlight, hlat, Latches.empty, idOf]

/-- While the engine goes on to finish, the sequential level executes what is in flight and what is to retire. -/
theorem Tracks.seqEnds (h : Tracks s x) (hinv : Inv s) (hrun : runFor k s = .next t) (hfin : t.finished = true)
    (hnot : t.fault = none) : ∃ l, SeqEnds x t l ∧ inFlight s ++ l = retiredBy k s := by
  induction k generalizing s x with
  | zero =>
    obtain rfl : s = t := Host.Outcome.next.inj hrun
    obtain ⟨hends, hflight⟩ := h.seqEnds_of_finished hinv hfin hnot
    exact ⟨[], hends, by rw [hflight]; rfl⟩
  | succ k ih =>
    cases hterm : terminal s with
    | true =>
      rw [runFor_of_terminal hterm] at hrun
      obtain rfl : s = t := Host.Outcome.next.inj hrun
      obtain ⟨hends, hflight⟩ := h.seqEnds_of_finished hinv hfin hnot
      exact ⟨[], hends, by rw [hflight, retiredBy_of_terminal hterm]; rfl⟩
    | false =>
      obtain ⟨s', hstep⟩ := step_answers hinv
      rw [runFor_succ k hstep] at hrun
      have hno' := noFault_of_runFor hrun hnot
      have hc := step_completes_cycle hinv hterm hstep hno'
      obtain ⟨y, hadv, htracks⟩ := h.completes hinv hc
      obtain ⟨l, hends, hl⟩ := ih htracks (step_keeps_inv hinv hstep) hrun
      refine ⟨_, hends.of_advances hadv, ?_⟩
      rw [retiredBy_succ hterm hstep hno', ← hl, ← List.append_assoc, hc.inFlight_append, List.append_assoc]

/-! ### The run that comes to a fatal condition -/

theorem allLegal_of_step (hstep : step s = .next t) (h : allLegal s.img = true) : allLegal t.img = true := by
  rw [imageIsImmutable s t hstep]
  exact h

theorem Tracks.seqFaults (h : Tracks s x) (hinv : Inv s) (hno : s.fault = none) (hlegal : allLegal s.img = true)
    (hrun : runFor k s = .next t) (hf : t.fault = some f) : SeqFaults x f := by
  induction k generalizing s x with
  | zero =>
    obtain rfl : s = t := Host.Outcome.next.inj hrun
    simp [hno] at hf
  | succ k ih =>
    cases hterm : terminal s with
    | true =>
      rw [runFor_of_terminal hterm] at hrun
      obtain rfl : s = t := Host.Outcome.next.inj hrun
      simp [hno] at hf
    | false =>
      obtain ⟨s', hstep⟩ := step_answers hinv
      rw [runFor_succ k hstep] at hrun
      rcases step_goes hinv hterm hstep with ⟨hno', hc⟩ | ⟨f', hf', hc⟩
      · obtain ⟨y, hadv, htracks⟩ := h.completes hinv hc
        exact (ih htracks (step_keeps_inv hinv hstep) hno' (allLegal_of_step hstep hlegal) hrun).of_advances hadv
      · obtain rfl : f' = f := Option.some.inj ((fault_of_runFor hrun hf').symm.trans hf)
        exact h.raises hinv hno hlegal hc

theorem SeqFaults.unique {f' : FatalCondition} (h : SeqFaults x f) (h' : SeqFaults x f') : f = f' := by
  obtain ⟨n, u, hrun, hf⟩ := h
  obtain ⟨n', u', hrun', hf'⟩ := h'
  obtain rfl := seqRun_unique hrun (terminal_of_fault hf) hrun' (terminal_of_fault hf')
  exact Option.some.inj (hf.symm.trans hf')

/-- The engine comes to the fatal condition `f`. -/
def Faults (s : State) (f : FatalCondition) : Prop := ∃ k t, runFor k s = .next t ∧ t.fault = some f

theorem Faults.of_step (h : Faults t f) (hstep : step s = .next t) : Faults s f := by
  obtain ⟨k, u, hrun, hf⟩ := h
  exact ⟨k + 1, u, (runFor_succ k hstep).trans hrun, hf⟩

/-- A bound on the cycles before a slot passes MEM1, where one stands before it or is to be fetched. -/
def delay (s : State) : Nat :=
  if s.lat.ex.isSome then 0
  else if s.lat.id.isSome then (if stalled s then 2 else 1)
  else if s.lat.if2.isSome then 3
  else if s.lat.if1.isSome then 4
  else 5

theorem isSome_of_overSlot {p p' : Option Slot} {g : Slot → Except FatalCondition Slot} (h : overSlot p g = .ok p') :
    p'.isSome = p.isSome := by
  rcases overSlot_ok h with ⟨rfl, rfl⟩ | ⟨_, _, rfl, rfl, -⟩ <;> rfl

theorem Reaches.delay_lt {m1 e d f1 : Option Slot} {mem' : Memory} (h : Reaches s m1 mem' e d)
    (hex : s.lat.ex = none) (hlat : t.lat = movedLatches s f1 d e m1)
    (hf1 : s.lat.id = none → s.lat.if2 = none → s.lat.if1 = none → f1.isSome = true) : delay t < delay s := by
  have he := isSome_of_overSlot h.executed
  have hd := isSome_of_overSlot h.decoded
  cases hid : s.lat.id with
  | some q =>
    rw [hid] at he
    simp [delay, hlat, movedLatches, he, hex, hid, h.going]
  | none =>
    rw [hid] at he
    obtain rfl : e = none := by simpa using he
    cases hif2 : s.lat.if2 with
    | some q =>
      rw [hif2] at hd
      have hbound : delay t ≤ 2 := by
        simp only [delay, hlat, movedLatches, Option.isSome_none, Option.any_none, hd, Option.isSome_some,
          Bool.false_eq_true, if_true, if_false]
        split <;> simp
      simp only [delay, hex, hid, hif2] at hbound ⊢
      exact Nat.lt_succ_of_le hbound
    | none =>
      rw [hif2] at hd
      obtain rfl : d = none := by simpa using hd
      cases hif1 : s.lat.if1 with
      | some q => simp [delay, hlat, movedLatches, hex, hid, hif2, hif1]
      | none => simp [delay, hlat, movedLatches, hex, hid, hif2, hif1, hf1 hid hif2 hif1]

/-- While no slot passes MEM1 the oldest one before it comes nearer. -/
theorem Completes.delay_lt (h : Completes s t) (hex : s.lat.ex = none) (hmore : ¬ Exhausted s) : delay t < delay s := by
  cases h with
  | stall hm hs =>
    obtain ⟨q, hid⟩ := Option.isSome_iff_exists.mp (Option.isSome_of_any hs)
    have hpending : q.stallPending = true := by simpa [stalled, hid] using hs
    simp [delay, r95End, heldLatches, hex, hid, hpending, stalled]
  | fetched hr hw => exact hr.delay_lt hex rfl fun _ _ _ => rfl
  | pastEnd hr hw =>
    refine hr.delay_lt hex rfl fun hid hif2 hif1 => absurd ⟨hif1, hif2, hid, hex, ?_⟩ hmore
    obtain rfl : _ = none := by simpa [hid] using isSome_of_overSlot hr.executed
    exact hw

/-- Where the sequential level comes to a fatal condition, more is left for the engine to execute. -/
theorem Tracks.not_exhausted (h : Tracks s x) (hinv : Inv s) (hno : s.fault = none) {n : Nat} {u : State}
    (hrun : seqRun n x = .next u) (hf : u.fault = some f) : ¬ Exhausted s := by
  intro hex
  obtain ⟨hstep, -⟩ := h.seqStep_of_exhausted hinv hno hex
  have hend : seqRun 1 x = .next { x with eop := true, finished := true } := seqRun_succ 0 hstep
  obtain rfl := seqRun_unique hrun (terminal_of_fault hf) hend (terminal_of_finished rfl)
  exact absurd h.level.noFault (by simpa using Option.ne_none_iff_exists'.mpr ⟨f, hf⟩)

end

/-- The engine comes to the fatal condition to which the sequential level comes: each cycle takes that level one step
on or brings the next such cycle nearer. -/
theorem Tracks.faults {s x u : State} {f : FatalCondition} {n : Nat} (h : Tracks s x) (hinv : Inv s)
    (hno : s.fault = none) (hlegal : allLegal s.img = true) (hrun : seqRun n x = .next u) (hf : u.fault = some f) :
    Faults s f := by
  have hmore := h.not_exhausted hinv hno hrun hf
  have hterm : terminal s = false := by
    cases hfin : s.finished with
    | true => exact absurd (h.exhausted_of_finished hinv hfin) hmore
    | false => simp [terminal, hno, hfin]
  obtain ⟨t, hstep⟩ := step_answers hinv
  have hinvt := step_keeps_inv hinv hstep
  have hlegalt := allLegal_of_step hstep hlegal
  rcases step_goes hinv hterm hstep with ⟨hnot, hc⟩ | ⟨f', hf', hc⟩
  · obtain ⟨y, hadv, htracks⟩ := h.completes hinv hc
    refine Faults.of_step ?_ hstep
    cases hex : s.lat.ex with
    | none =>
      rw [hex] at hadv
      obtain rfl : y = x := hadv
      have hnear : delay t < delay s := hc.delay_lt hex hmore
      exact Tracks.faults htracks hinvt hnot hlegalt hrun hf
    | some q =>
      rw [hex] at hadv
      obtain ⟨-, -, -, hseq, -⟩ := hadv
      cases n with
      | zero =>
        obtain rfl : x = u := Host.Outcome.next.inj hrun
        exact absurd (h.level.noFault.symm.trans hf) (by simp)
      | succ n =>
        rw [seqRun_succ n hseq] at hrun
        exact Tracks.faults htracks hinvt hnot hlegalt hrun hf
  · obtain rfl : f' = f := (h.raises hinv hno hlegal hc).unique ⟨n, u, hrun, hf⟩
    exact Faults.of_step ⟨0, t, rfl, hf'⟩ hstep
termination_by (n, delay s)

theorem boot_tracks {regs : List (RegIdx × Word)} {cells : List (Word × Word)} {img : List InstrWord} {s : State}
    (h : boot regs cells img = some s) : Tracks s s := by
  obtain ⟨-, -, -, rfl⟩ := boot_eq_some h
  exact ⟨⟨rfl, rfl, rfl, rfl, rfl, rfl⟩, fun _ he => by simp [State.reset, Latches.empty] at he, rfl, nofun⟩

end Sys2Proof.Proofs

open Sys2Proof.Machine Sys2Proof.Proofs

/-- Settles O16: the engine follows the sequential level cycle by cycle, and at its end nothing is in flight. -/
theorem pipelineAgreesWithSequentialLevel : Obligations.PipelineAgreesWithSequentialLevel := by
  unfold Obligations.PipelineAgreesWithSequentialLevel
  intro regs cells img s t k hboot hrun hdone
  obtain ⟨hfin, hno⟩ : t.finished = true ∧ t.fault = none := by simpa [completed] using hdone
  obtain ⟨l, ⟨n, u, hseq, hu, hrf, hmem, hexe⟩, hl⟩ := (boot_tracks hboot).seqEnds (boot_inv hboot) hrun hfin hno
  have hflight : inFlight s = [] := by
    obtain ⟨-, -, -, rfl⟩ := boot_eq_some hboot
    rfl
  exact ⟨n, u, hseq, hu, hrf, hmem, by rw [hexe, ← hl, hflight]; rfl⟩

/-- Settles O17: a cycle raises only what the sequential level comes to, and does not put it off for ever. -/
theorem levelsAgreeOnTheFault : Obligations.LevelsAgreeOnTheFault := by
  unfold Obligations.LevelsAgreeOnTheFault
  intro regs cells img s f hboot hlegal
  have htracks := boot_tracks hboot
  have hinv := boot_inv hboot
  obtain ⟨-, -, -, rfl⟩ := boot_eq_some hboot
  constructor
  · rintro ⟨k, t, hrun, hf⟩
    exact htracks.seqFaults hinv rfl hlegal hrun hf
  · rintro ⟨n, u, hrun, hf⟩
    exact Tracks.faults htracks hinv rfl hlegal hrun hf

end

section
/-! The number of cycles of a run (70_reset_and_hazards R185). Every cycle retires a slot or has an empty WB stage, and
the empty positions that reach WB are the seven of reset, one for each stall cycle and two for each taken branch to an
index of the image. Those behind the youngest slot never come to count: the run ends before. -/

namespace Sys2Proof.Proofs

open Sys2Proof Sys2Proof.Machine Sys2Proof.Laws

/-! ### The gaps between the slots -/

/-- Which stages are occupied, the least advanced first. -/
def occupied (lat : Latches) : List Bool := lat.toList.map (·.isSome)

/-- The empty positions ahead of the youngest slot. -/
def gaps : List Bool → Nat
  | [] => 0
  | false :: rest => gaps rest
  | true :: rest => rest.count false

theorem gaps_append {l : List Bool} (h : true ∈ l) (l' : List Bool) : gaps (l ++ l') = gaps l + l'.count false := by
  induction l with
  | nil => simp at h
  | cons b rest ih =>
    cases b with
    | true => simp [gaps, List.count_append]
    | false => exact ih (by simpa using h)

theorem gaps_append_of_noSlot {l : List Bool} (h : true ∉ l) (l' : List Bool) : gaps (l ++ l') = gaps l' := by
  induction l with
  | nil => rfl
  | cons b rest ih =>
    cases b with
    | true => simp at h
    | false => exact ih (by simpa using h)

/-- The last position leaves the list: an empty one was a gap, since a slot is left behind it. -/
theorem gaps_concat {l : List Bool} (b : Bool) (h : true ∈ l ++ [b]) : gaps (l ++ [b]) + b.toNat = gaps l + 1 := by
  by_cases hl : true ∈ l
  · rw [gaps_append hl]
    cases b <;> simp
  · obtain rfl : b = true := by simpa [hl] using h
    have hnone : gaps (l ++ []) = gaps [] := gaps_append_of_noSlot hl []
    rw [List.append_nil] at hnone
    rw [gaps_append_of_noSlot hl, hnone]
    rfl

/-- A position ahead of all others opens no gap when it is empty or the next is occupied. -/
theorem gaps_cons {l : List Bool} (b : Bool) (h : b = true → l.head? = some true) : gaps (b :: l) = gaps l := by
  cases b with
  | false => rfl
  | true =>
    obtain ⟨rest, rfl⟩ := List.head?_eq_some_iff.mp (h rfl)
    simp [gaps]

theorem count_concat (l : List Bool) (b : Bool) : (l ++ [b]).count false + b.toNat = l.count false + 1 := by
  cases b <;> simp

/-! ### What a cycle adds to the counts -/

/-- What a cycle that leaves `t` adds to the number of cycles by R185(d). -/
def counted (t : State) : Nat :=
  (reports t .WB).toNat + (reports t .stall).toNat + 2 * (tookInsideBranch t).toNat

/-- The counts of a run, weighted as in R185(d). -/
def weight (r : Tally) : Nat := r.executed + r.stalls + 2 * r.taken

section
variable {s t : State} {m1 e d f1 : Option Slot} {mem' : Memory} {k : Nat}

theorem weight_tally_succ (hrun : terminal s = false) (h : step s = .next t) (k : Nat) :
    weight (tally (k + 1) s) = weight (tally k t) + counted t := by
  simp only [tally, hrun, h, weight, counted, Bool.false_eq_true, if_false]
  omega

theorem tally_of_terminal (h : terminal s = true) (k : Nat) : tally k s = ⟨0, 0, 0⟩ := by
  cases k <;> simp [tally, h]

theorem any_entry (tok tok' : StageToken) (p : Option Slot) :
    (entry tok p).any (·.token == tok') = (p.isSome && decide (tok = tok')) := by
  cases p <;> simp [entry, beq_eq_decide]

theorem reports_WB_of_report {isStall : Bool} {lat : Latches} {w : Option Slot}
    (h : t.report = stageReport isStall lat w) :
    reports t .WB = w.isSome := by
  cases isStall <;> simp [reports, h, stageReport, any_entry]

theorem reports_stall_of_report {isStall : Bool} {lat : Latches} {w : Option Slot}
    (h : t.report = stageReport isStall lat w) :
    reports t .stall = (isStall && lat.id.isSome) := by
  cases isStall <;> simp [reports, h, stageReport, any_entry]

/-- A cycle that fetches at the target of its branch takes it inside the image where it finds a word there. -/
theorem tookInsideBranch_eq (hinv : Inv t) (ptr : Word) :
    tookInsideBranch t =
      (t.lat.ex.any takenBranch && (imageAt t (fetchTarget t.lat.ex ptr)).isSome) := by
  have hexe := hinv.executedEx
  cases hex : t.lat.ex with
  | none => simp [tookInsideBranch, hex]
  | some q =>
    cases ht : takenBranch q with
    | false => simp [tookInsideBranch, hex, ht]
    | true =>
      obtain ⟨i, -, hd, -⟩ := asExecuted_iff.mp (by simpa [hex] using hexe : asExecuted t.img q = true)
      obtain ⟨a, ha⟩ := branchTarget_ready hd ht
      simp [tookInsideBranch, hex, ht, ha, fetchTarget]

theorem isSome_of_r95Memory {mem : Memory} {p : Option Slot} (h : r95Memory mem p = .ok (m1, mem')) :
    m1.isSome = p.isSome := by
  rcases r95Memory_slot h with ⟨rfl, rfl, -⟩ | ⟨_, _, rfl, rfl, -⟩ <;> rfl

/-! ### The slots of a running program -/

/-- What holds between two cycles once a word has been fetched: the fetch misses only past the end of the program, and
the slots that it brings stand together. -/
structure Flows (s : State) : Prop where
  atEnd : s.eop = true → imageAt s s.fetchPtr = none
  fetching : s.eop = false → s.lat.if1.isSome = true
  together : s.lat.id.isSome = true → s.lat.if2 = none → s.lat.if1 = none
  ends : drained s.lat = true → s.finished = true

theorem Flows.slot_of_running (h : Flows s) (hrun : terminal s = false) : true ∈ occupied s.lat := by
  by_contra hno
  have hempty : drained s.lat = true := by
    rw [drained_iff]
    simpa [occupied, Latches.toList, and_assoc] using hno
  simp [terminal, h.ends hempty] at hrun

/-- The slot of IF1 is there when the cycle goes on to fetch a word behind it. -/
theorem Flows.if1_of_fetch (h : Flows s) (hnot : e.any takenBranch = false)
    (hw : (imageAt s (fetchTarget e s.fetchPtr)).isSome = true) : s.lat.if1.isSome = true := by
  rw [fetchTarget_of_notTaken _ hnot] at hw
  cases heop : s.eop with
  | false => exact h.fetching heop
  | true => simp [h.atEnd heop] at hw

theorem Completes.flows (h : Flows s) (hc : Completes s t) : Flows t := by
  cases hc with
  | stall hm hs =>
    obtain ⟨q, hid⟩ := Option.isSome_iff_exists.mp (Option.isSome_of_any hs)
    refine ⟨h.atEnd, h.fetching, fun _ => h.together (by simp [hid]), fun hempty => ?_⟩
    simp [drained_iff, r95End, heldLatches, hid] at hempty
  | @fetched m1 e d mem' w hr hw =>
    refine ⟨fun heop => by simp [r95End] at heop, fun _ => rfl, fun hid hif2 => ?_, fun hempty => ?_⟩
    · cases ht : e.any takenBranch with
      | true => simp [r95End, movedLatches, ht] at hid
      | false =>
        have hif1 := h.if1_of_fetch ht (by simp [hw])
        have hnone : s.lat.if1 = none := by simpa [r95End, movedLatches, ht] using hif2
        simp [hnone] at hif1
    · simp [drained_iff, r95End, movedLatches] at hempty
  | pastEnd hr hw =>
    exact ⟨fun _ => hw, fun heop => by simp [r95End] at heop, fun _ _ => rfl,
      fun hempty => by simpa [r95End] using hempty⟩

/-! ### The balance of a cycle -/

theorem Reaches.gaps_notTaken (h : Reaches s m1 mem' e d) (hslot : true ∈ occupied s.lat)
    (hnot : e.any takenBranch = false) (hf1 : f1.isSome = true → s.lat.if1.isSome = true) :
    gaps (occupied s.lat) + s.lat.mem3.isSome.toNat = gaps (occupied (movedLatches s f1 d e m1)) + 1 := by
  have hmoved : occupied (movedLatches s f1 d e m1) =
      f1.isSome :: [s.lat.if1.isSome, s.lat.if2.isSome, s.lat.id.isSome, s.lat.ex.isSome, s.lat.mem1.isSome,
        s.lat.mem2.isSome] := by
    simp [occupied, Latches.toList, movedLatches, hnot, isSome_of_overSlot h.executed, isSome_of_overSlot h.decoded,
      isSome_of_r95Memory h.memory]
  rw [hmoved, gaps_cons _ (by simpa using hf1)]
  exact gaps_concat (l := [s.lat.if1.isSome, s.lat.if2.isSome, s.lat.id.isSome, s.lat.ex.isSome, s.lat.mem1.isSome,
    s.lat.mem2.isSome]) s.lat.mem3.isSome hslot

/-- A taken branch leaves two gaps behind it where it fetches a word, and stands last where it does not. -/
theorem Reaches.gaps_taken (h : Reaches s m1 mem' e d) (hflow : Flows s) (htaken : e.any takenBranch = true) :
    gaps (occupied s.lat) + s.lat.mem3.isSome.toNat + 2 * f1.isSome.toNat =
      gaps (occupied (movedLatches s f1 d e m1)) + 1 := by
  have he : e.isSome = true := Option.isSome_of_any htaken
  have hid : s.lat.id.isSome = true := (isSome_of_overSlot h.executed).symm.trans he
  have hbefore : gaps (occupied s.lat) =
      ([s.lat.ex.isSome, s.lat.mem1.isSome, s.lat.mem2.isSome] ++ [s.lat.mem3.isSome]).count false := by
    have hfront : gaps [s.lat.if1.isSome, s.lat.if2.isSome, true] = 0 := by
      cases hif2 : s.lat.if2 with
      | none => simp [hflow.together hid hif2, gaps]
      | some q => cases s.lat.if1 <;> simp [gaps]
    have happend := gaps_append (l := [s.lat.if1.isSome, s.lat.if2.isSome, true]) (by simp)
      ([s.lat.ex.isSome, s.lat.mem1.isSome, s.lat.mem2.isSome] ++ [s.lat.mem3.isSome])
    rw [hfront, Nat.zero_add] at happend
    rw [← happend]
    simp [occupied, Latches.toList, hid]
  have hafter : gaps (occupied (movedLatches s f1 d e m1)) =
      [s.lat.ex.isSome, s.lat.mem1.isSome, s.lat.mem2.isSome].count false + 2 * f1.isSome.toNat := by
    cases f1 <;> simp [occupied, Latches.toList, movedLatches, htaken, he, isSome_of_r95Memory h.memory, gaps]
  have hcount := count_concat [s.lat.ex.isSome, s.lat.mem1.isSome, s.lat.mem2.isSome] s.lat.mem3.isSome
  omega

/-- A stall cycle opens a gap ahead of the slot it holds. -/
theorem gaps_held (hid : s.lat.id.isSome = true) (hm1 : m1.isSome = s.lat.ex.isSome) :
    gaps (occupied s.lat) + s.lat.mem3.isSome.toNat = gaps (occupied (heldLatches s m1)) := by
  have hbefore := gaps_append (l := [s.lat.if1.isSome, s.lat.if2.isSome, true]) (by simp)
    ([s.lat.ex.isSome, s.lat.mem1.isSome, s.lat.mem2.isSome] ++ [s.lat.mem3.isSome])
  have hafter := gaps_append (l := [s.lat.if1.isSome, s.lat.if2.isSome, true]) (by simp)
    (false :: [s.lat.ex.isSome, s.lat.mem1.isSome, s.lat.mem2.isSome])
  have hcount := count_concat [s.lat.ex.isSome, s.lat.mem1.isSome, s.lat.mem2.isSome] s.lat.mem3.isSome
  have hs : occupied s.lat = [s.lat.if1.isSome, s.lat.if2.isSome, true] ++
      ([s.lat.ex.isSome, s.lat.mem1.isSome, s.lat.mem2.isSome] ++ [s.lat.mem3.isSome]) := by
    simp [occupied, Latches.toList, hid]
  have ht : occupied (heldLatches s m1) = [s.lat.if1.isSome, s.lat.if2.isSome, true] ++
      (false :: [s.lat.ex.isSome, s.lat.mem1.isSome, s.lat.mem2.isSome]) := by
    simp [occupied, Latches.toList, heldLatches, hid, hm1]
  rw [hs, ht, hbefore, hafter, List.count_cons_self]
  omega

/-- A cycle that does not stall and leaves `t`, having looked for a word at the target of `e`. -/
theorem Reaches.balance (h : Reaches s m1 mem' e d) (hflow : Flows s) (hrun : terminal s = false) (hinv : Inv t)
    (hlat : t.lat = movedLatches s f1 d e m1) (himg : t.img = s.img)
    (hreport : t.report = stageReport false (movedLatches s f1 d e m1) s.lat.mem3)
    (hf1 : f1.isSome = (imageAt s (fetchTarget e s.fetchPtr)).isSome) :
    gaps (occupied s.lat) + counted t = gaps (occupied t.lat) + 1 := by
  have hat (p : Word) : imageAt t p = imageAt s p := by simp only [imageAt, himg]
  rw [counted, reports_WB_of_report hreport, reports_stall_of_report hreport, tookInsideBranch_eq hinv s.fetchPtr, hat,
    hlat]
  have hex : (movedLatches s f1 d e m1).ex = e := rfl
  rw [hex, ← hf1]
  cases ht : e.any takenBranch with
  | true =>
    have hbalance := h.gaps_taken (f1 := f1) hflow ht
    simpa [← Nat.add_assoc] using hbalance
  | false =>
    have hbalance := h.gaps_notTaken (hflow.slot_of_running hrun) ht fun hsome => hflow.if1_of_fetch ht (hf1 ▸ hsome)
    simpa using hbalance

/-- Each cycle counts by what it adds to R185(d) and by the gaps it closes. -/
theorem Completes.balance (hc : Completes s t) (hflow : Flows s) (hrun : terminal s = false) (hinv : Inv t) :
    gaps (occupied s.lat) + counted t = gaps (occupied t.lat) + 1 := by
  cases hc with
  | @stall m1 mem' hm hs =>
    have hid : s.lat.id.isSome = true := Option.isSome_of_any hs
    have hgaps := gaps_held hid (isSome_of_r95Memory hm)
    rw [counted, reports_WB_of_report rfl, reports_stall_of_report rfl]
    have hlat : (r95End (afterBack s mem') (heldLatches s m1) (stageReport true (heldLatches s m1) s.lat.mem3)).lat =
      heldLatches s m1 := rfl
    simp only [tookInsideBranch, hlat]
    rw [← hgaps]
    simp [heldLatches, hid, Nat.add_assoc]
  | fetched hr hw => exact hr.balance hflow hrun hinv rfl rfl rfl (by rw [hw]; rfl)
  | pastEnd hr hw => exact hr.balance hflow hrun hinv rfl rfl rfl (by rw [hw]; rfl)

theorem Completes.cycle (hc : Completes s t) : t.cycle = s.cycle + 1 := by
  cases hc <;> rfl

/-! ### The cycles of a run -/

theorem gaps_of_finished (hinv : Inv s) (hfin : s.finished = true) : gaps (occupied s.lat) = 0 := by
  obtain ⟨hlat, -⟩ := hinv.finishedEmpty hfin
  rw [hlat]
  rfl

theorem Flows.cycle_of_run (h : Flows s) (hinv : Inv s) (hrun : runFor k s = .next t) (hfin : t.finished = true)
    (hno : t.fault = none) : t.cycle = s.cycle + weight (tally k s) + gaps (occupied s.lat) := by
  induction k generalizing s with
  | zero =>
    obtain rfl : s = t := Host.Outcome.next.inj hrun
    rw [gaps_of_finished hinv hfin]
    rfl
  | succ k ih =>
    cases hterm : terminal s with
    | true =>
      rw [runFor_of_terminal hterm] at hrun
      obtain rfl : s = t := Host.Outcome.next.inj hrun
      rw [gaps_of_finished hinv hfin, tally_of_terminal hterm]
      rfl
    | false =>
      obtain ⟨s', hstep⟩ := step_answers hinv
      have hinv' := step_keeps_inv hinv hstep
      rw [runFor_succ k hstep] at hrun
      have hno' := noFault_of_runFor hrun hno
      have hc := step_completes_cycle hinv hterm hstep hno'
      have hbalance := hc.balance h hterm hinv'
      have hcycle := ih (hc.flows h) hinv' hrun
      rw [hcycle, weight_tally_succ hterm hstep, hc.cycle]
      omega

/-! ### The first cycle -/

theorem Reaches.none_of_empty (h : Reaches s m1 mem' e d) (hlat : s.lat = Latches.empty) :
    m1 = none ∧ e = none ∧ d = none := by
  have hm : m1.isSome = false := by rw [isSome_of_r95Memory h.memory, hlat]; rfl
  have he : e.isSome = false := by rw [isSome_of_overSlot h.executed, hlat]; rfl
  have hd : d.isSome = false := by rw [isSome_of_overSlot h.decoded, hlat]; rfl
  exact ⟨by simpa using hm, by simpa using he, by simpa using hd⟩

theorem Completes.reports_WB (hc : Completes s t) : reports t .WB = s.lat.mem3.isSome := by
  cases hc <;> exact reports_WB_of_report rfl

/-- The first cycle finishes, or leaves one slot with six gaps ahead of it. -/
theorem Completes.first (hc : Completes s t) (hlat : s.lat = Latches.empty) :
    t.finished = true ∨ (Flows t ∧ gaps (occupied t.lat) = 6 ∧ counted t = 0) := by
  have hWB : reports t .WB = false := by rw [hc.reports_WB, hlat]; rfl
  cases hc with
  | stall hm hs => simp [stalled, hlat, Latches.empty] at hs
  | pastEnd hr hw =>
    obtain ⟨rfl, rfl, rfl⟩ := hr.none_of_empty hlat
    exact .inl (by simp [r95End, movedLatches, hlat, drained, Latches.empty])
  | fetched hr hw =>
    obtain ⟨rfl, rfl, rfl⟩ := hr.none_of_empty hlat
    refine .inr ⟨⟨fun heop => by simp [r95End] at heop, fun _ => rfl, fun hid => ?_, fun hempty => ?_⟩, ?_, ?_⟩
    · simp [r95End, movedLatches] at hid
    · simp [drained_iff, r95End, movedLatches] at hempty
    · simp [occupied, Latches.toList, r95End, movedLatches, hlat, Latches.empty, gaps]
    · rw [counted, hWB, reports_stall_of_report rfl]
      simp [tookInsideBranch, r95End, movedLatches]

end

theorem boot_fresh {regs : List (RegIdx × Word)} {cells : List (Word × Word)} {img : List InstrWord} {s : State}
    (h : boot regs cells img = some s) : s.lat = Latches.empty ∧ s.cycle = 0 ∧ terminal s = false := by
  obtain ⟨-, -, -, rfl⟩ := boot_eq_some h
  exact ⟨rfl, rfl, rfl⟩

end Sys2Proof.Proofs

open Sys2Proof.Machine Sys2Proof.Proofs

/-- Settles O18: after the first cycle, which fetches the first word, each cycle keeps the balance, and at the end no
gap is left. -/
theorem cycleCountFormula : Obligations.CycleCountFormula := by
  unfold Obligations.CycleCountFormula
  intro regs cells img s t k hboot hrun hdone hexe
  obtain ⟨hfin, hno⟩ : t.finished = true ∧ t.fault = none := by simpa [completed] using hdone
  have hinv := boot_inv hboot
  obtain ⟨hlat, hzero, hterm⟩ := boot_fresh hboot
  cases k with
  | zero => simp [tally] at hexe
  | succ k =>
    obtain ⟨u, hstep⟩ := step_answers hinv
    rw [runFor_succ k hstep] at hrun
    have hc := step_completes_cycle hinv hterm hstep (noFault_of_runFor hrun hno)
    rcases hc.first hlat with hend | ⟨hflow, hgaps, hcount⟩
    · have hWB : reports u .WB = false := by rw [hc.reports_WB, hlat]; rfl
      simp [tally, hterm, hstep, hWB, tally_of_terminal (terminal_of_finished hend)] at hexe
    · have hcycle := hflow.cycle_of_run (step_keeps_inv hinv hstep) hrun hfin hno
      have hweight := weight_tally_succ hterm hstep k
      rw [hgaps, hc.cycle, hzero] at hcycle
      rw [hcount] at hweight
      calc t.cycle = weight (tally (k + 1) s) + 7 := by omega
        _ = _ := rfl

end

section
/-! The host's side (70_reset_and_hazards R170 to R176): what it may load, the empty program, reset in any state, and
the final dump. -/

namespace Sys2Proof.Proofs

open Sys2Proof Sys2Proof.Machine Sys2Proof.Laws

/-! ### Loading -/

theorem mapGet_eq_none_iff {m : List (Nat × Word)} {k : Nat} : mapGet m k = none ↔ k ∉ m.map (·.1) := by
  induction m with
  | nil => simp
  | cons c m ih =>
    obtain ⟨k', v⟩ := c
    rw [mapGet]
    split
    · next heq => simp [heq]
    · next hne => simp [ih, Ne.symm hne]

theorem distinctKeys_iff {m : List (Nat × Word)} : distinctKeys m = true ↔ (m.map (·.1)).Nodup := by
  induction m with
  | nil => simp [distinctKeys]
  | cons c m ih =>
    rw [distinctKeys, Bool.and_eq_true, Option.isNone_iff_eq_none, mapGet_eq_none_iff, ih, List.map_cons,
      List.nodup_cons]

/-- Numbering the lines of a section keeps which keys are the same. -/
theorem distinctKeys_numberedLines {w : Nat} (lines : List (BitVec w × Word)) :
    distinctKeys (lines.map fun l => (l.1.toNat, l.2)) = true ↔ (lines.map (·.1)).Nodup := by
  have hkeys : (lines.map fun l => (l.1.toNat, l.2)).map (·.1) = (lines.map (·.1)).map BitVec.toNat := by
    simp only [List.map_map, Function.comp_def]
  rw [distinctKeys_iff, hkeys, List.nodup_map_iff fun _ _ => BitVec.eq_of_toNat_eq]

theorem imageWellFormed_iff {img : List InstrWord} : imageWellFormed img = true ↔ img.length < 2 ^ 31 := by
  exact decide_eq_true_iff

theorem boot_eq_none_iff {regs : List (RegIdx × Word)} {cells : List (Word × Word)} {img : List InstrWord} :
    boot regs cells img = none ↔
      ¬ (distinctKeys (registerLines regs) = true ∧ distinctKeys (memoryLines cells) = true ∧
        imageWellFormed img = true) := by
  rw [boot]
  split
  · next h => simpa [and_assoc] using h
  · next h => simpa [and_assoc] using h

/-! ### The final dump -/

/-- In canonical form the keys rise. -/
theorem pairwise_of_mapWfFrom {bound lo : Nat} {m : List (Nat × Word)} (h : mapWfFrom bound lo m = true) :
    m.Pairwise (fun x y => x.1 < y.1) ∧ ∀ c ∈ m, lo ≤ c.1 ∧ c.1 < bound := by
  induction m generalizing lo with
  | nil => simp
  | cons c m ih =>
    obtain ⟨k, v⟩ := c
    simp only [mapWfFrom, Bool.and_eq_true, decide_eq_true_eq] at h
    obtain ⟨⟨hlo, hbound⟩, hrest⟩ := h
    obtain ⟨hpair, hrange⟩ := ih hrest
    refine ⟨List.pairwise_cons.mpr ⟨fun c hc => (hrange c hc).1, hpair⟩, List.forall_mem_cons.mpr ⟨⟨hlo, hbound⟩, ?_⟩⟩
    exact fun c hc => ⟨by have := (hrange c hc).1; omega, (hrange c hc).2⟩

/-- The signed value of an address given by its number. -/
def signedKey (k : Nat) : Int := if k < 2 ^ 31 then (k : Int) else (k : Int) - 2 ^ 32

theorem toInt_eq_signedKey (a : BitVec 32) : a.toInt = signedKey a.toNat := by
  have hcond := BitVec.toInt_eq_toNat_cond a
  rw [signedKey]
  split at hcond <;> split <;> omega

/-- The dump at the width of an address (R54). -/
theorem dumpMemory_eq (s : State) :
    dumpMemory s =
      (s.mem.filter fun c => decide (2 ^ 31 ≤ c.1)).map (fun c => ((c.1 : Int) - 2 ^ 32, c.2)) ++
        (s.mem.filter fun c => decide (c.1 < 2 ^ 31)).map fun c => ((c.1 : Int), c.2) := rfl

theorem mem_dumpMemory {s : State} {e : Int × Word} :
    e ∈ dumpMemory s ↔ ∃ c ∈ s.mem, e = (signedKey c.1, c.2) := by
  simp only [dumpMemory_eq, List.mem_append, List.mem_map, List.mem_filter, decide_eq_true_eq, signedKey]
  constructor
  · rintro (⟨c, ⟨hc, hge⟩, rfl⟩ | ⟨c, ⟨hc, hlt⟩, rfl⟩)
    · exact ⟨c, hc, by rw [if_neg (not_lt.mpr hge)]⟩
    · exact ⟨c, hc, by rw [if_pos hlt]⟩
  · rintro ⟨c, hc, rfl⟩
    by_cases hlt : c.1 < 2 ^ 31
    · exact .inr ⟨c, ⟨hc, hlt⟩, by rw [if_pos hlt]⟩
    · exact .inl ⟨c, ⟨hc, not_lt.mp hlt⟩, by rw [if_neg hlt]⟩

/-- The addresses with the sign bit come first, and rise by number as the others do. -/
theorem dumpMemory_ascends {s : State} (h : Memory.wf s.mem = true) :
    (dumpMemory s).Pairwise (fun x y => x.1 < y.1) := by
  obtain ⟨hpair, hrange⟩ := pairwise_of_mapWfFrom h
  rw [dumpMemory_eq, List.pairwise_append, List.pairwise_map, List.pairwise_map]
  refine ⟨(hpair.filter _).imp fun hlt => by dsimp only; omega,
    (hpair.filter _).imp fun hlt => by dsimp only; omega, ?_⟩
  simp only [List.mem_map, List.mem_filter]
  rintro _ ⟨c, ⟨hc, -⟩, rfl⟩ _ ⟨c', -, rfl⟩
  have hbound : c.1 < 2 ^ 32 := (hrange c hc).2
  dsimp only
  omega

theorem readCell_iff_mem_dumpMemory {s : State} (h : Memory.wf s.mem = true) (a v : Word) :
    readCell s a = some v ↔ (a.toInt, v) ∈ dumpMemory s := by
  obtain ⟨-, hrange⟩ := pairwise_of_mapWfFrom h
  rw [readCell, ← mem_iff_mapGet h, mem_dumpMemory]
  constructor
  · exact fun hmem => ⟨_, hmem, by rw [toInt_eq_signedKey]⟩
  · rintro ⟨⟨k, v'⟩, hmem, heq⟩
    obtain ⟨hkey, rfl⟩ := Prod.mk.inj heq
    obtain ⟨-, hbound⟩ := hrange _ hmem
    have hk : BitVec.ofNat 32 k = a := BitVec.eq_of_toInt_eq (by
      rw [hkey, toInt_eq_signedKey, BitVec.toNat_ofNat, Nat.mod_eq_of_lt hbound])
    rw [← hk, BitVec.toNat_ofNat, Nat.mod_eq_of_lt hbound]
    exact hmem

end Sys2Proof.Proofs

open Sys2Proof Sys2Proof.Machine Sys2Proof.Laws Sys2Proof.Proofs

/-- Settles O8: the loader checks the two sections for distinct keys and the image for its length. -/
theorem bootRefusesDuplicatesAndLongImages : Obligations.BootRefusesDuplicatesAndLongImages := by
  unfold Obligations.BootRefusesDuplicatesAndLongImages
  intro regs cells img
  rw [boot_eq_none_iff, registerLines, memoryLines, distinctKeys_numberedLines, distinctKeys_numberedLines,
    imageWellFormed_iff, not_and_or, not_and_or, not_lt]

/-- Settles O9: reset sets each field, and a terminal state is held by every step. -/
theorem resetKeepsWhatTheHostLoaded : Obligations.ResetKeepsWhatTheHostLoaded := by
  unfold Obligations.ResetKeepsWhatTheHostLoaded
  intro s
  refine ⟨rfl, rfl, rfl, rfl, rfl, rfl, rfl, rfl, rfl, rfl, rfl, fun hend => runFor_of_terminal ?_⟩
  rw [terminal, Bool.or_eq_true, Option.isSome_iff_ne_none]
  exact hend

/-- Settles O12: the first fetch finds the end of the program and the pipeline is empty. -/
theorem emptyProgramTakesOneCycle : Obligations.EmptyProgramTakesOneCycle := by
  unfold Obligations.EmptyProgramTakesOneCycle
  intro regs cells s hboot
  have hstep := step_of_inv (boot_inv hboot)
  obtain ⟨-, -, -, rfl⟩ := boot_eq_some hboot
  rw [r95Step_of_reaches (m1 := none) (e := none) (d := none) rfl ⟨rfl, rfl, rfl, rfl⟩] at hstep
  exact hstep

/-- Settles O54: the dump is the canonical map, cut at the sign bit, and each part of it rises. -/
theorem dumpIsCompleteAndAscending : Obligations.DumpIsCompleteAndAscending := by
  unfold Obligations.DumpIsCompleteAndAscending
  intro s
  refine ⟨fun h => ⟨dumpMemory_ascends h, readCell_iff_mem_dumpMemory h, fun e he => ?_⟩,
    fun h => ⟨(pairwise_of_mapWfFrom h).1, fun i v => (mem_iff_mapGet h _ _).symm, fun e he => ?_⟩⟩
  · obtain ⟨⟨k, v⟩, hmem, rfl⟩ := mem_dumpMemory.mp he
    obtain ⟨-, hbound⟩ := (pairwise_of_mapWfFrom h).2 _ hmem
    have hkey : signedKey k = (BitVec.ofNat 32 k).toInt := by
      rw [toInt_eq_signedKey, BitVec.toNat_ofNat, Nat.mod_eq_of_lt hbound]
    refine ⟨BitVec.ofNat 32 k, v, by rw [hkey], ?_⟩
    rw [readCell_iff_mem_dumpMemory h, ← hkey]
    exact he
  · obtain ⟨k, v⟩ := e
    obtain ⟨-, hbound⟩ := (pairwise_of_mapWfFrom h).2 _ he
    have hkey : (BitVec.ofNat 8 k).toNat = k := Nat.mod_eq_of_lt hbound
    refine ⟨BitVec.ofNat 8 k, v, by rw [hkey], ?_⟩
    rw [readReg, hkey]
    exact (mem_iff_mapGet h k v).mp he

end

section
/-! The words 95_test_vectors V20 writes out. A word decodes to an instruction exactly when it is that instruction's
encoding, so each word is compared with the fields the encoder assembles. -/

open Sys2Proof.Proofs

/-- Settles O5: each written-out word is the encoding of its instruction. -/
theorem writtenOutWordsDecode : Obligations.WrittenOutWordsDecode := by
  unfold Obligations.WrittenOutWordsDecode
  simp only [decode_ok_iff_encode]
  decide

end
